-- ==== Sys2Proof/Word.lean ====
section
/-! DEFINITION. The word types of the block (00_scope.md R7, R8): registers of 8 bits, SETUP fields of 16 bits,
the 32-bit status word, 7-bit device addresses, 4-bit endpoint numbers. All quantities are unsigned. -/

namespace Sys2Proof

/-- A register or a data byte (R7). -/
abbrev Byte := BitVec 8

/-- A SETUP field or an operation word (R7, R109). -/
abbrev Half := BitVec 16

/-- The `ENGSTATUS` word (R7, R45). -/
abbrev Word := BitVec 32

/-- A USB device address (R7). -/
abbrev DevAddr := BitVec 7

/-- The endpoint number of a token (R107). -/
abbrev EpNum := BitVec 4

end Sys2Proof
end

