-- ==== Sys2Proof/Config.lean ====
section
/-! DEFINITION. The parameters of 00_scope.md R6: the constants the source fixes, and the open parameters, which a
model takes as an argument. The open ones stand in `Config`, a field of State that no step writes. -/

namespace Sys2Proof

/-- The open parameters of R6 (92_eei_decisions.md D20, D21, D31). -/
structure Config where
  numEp       : Nat
  hidPresent  : Bool
  vid         : Half
  pid         : Half
  bcdDevice   : Half
  bcdHid      : Half
  maxPower    : Byte
  kbdInterval : Byte
  deriving DecidableEq, Repr

/-- `NUM_EP` is at least 4 and at most 8 (D31): the one bound the spec puts on an open parameter. -/
def Config.wf (c : Config) : Bool := decide (4 ≤ c.numEp) && decide (c.numEp ≤ 8)

/-- DESIGN CHOICE (log 8): R6 gives `VID` no default, so nothing is known of its value. -/
opaque Config.freeVid : Half

/-- DESIGN CHOICE (log 8): R6 gives `PID` no default. -/
opaque Config.freePid : Half

/-- DESIGN CHOICE (log 8): R6 gives `BCD_DEVICE` no default. -/
opaque Config.freeBcdDevice : Half

/-- R6's defaults; `NUM_EP` at its reference value 7 (log 8). -/
def Config.default : Config where
  numEp       := 7
  hidPresent  := true
  vid         := Config.freeVid
  pid         := Config.freePid
  bcdDevice   := Config.freeBcdDevice
  bcdHid      := 0x0111
  maxPower    := 50
  kbdInterval := 10

/-- The registers of the register interface (10_state.md R25 to R39, R45). -/
inductive Reg where
  | pllctl | devctl | devint | devinten | devaddr | eptogrst | epsel
  | epctl | epcfg0 | epcfg1 | epsta | epint | epinten | epdata | epbcnt
  | engstatus
  deriving DecidableEq, Repr

/-- `REG_ADDR` (20_memory.md R81): the bus address of each register. Open, and no rule depends on it: nothing in the
model reads it. -/
opaque Config.regAddr : Reg → Nat

/-- `EP0_SIZE` (R6). -/
abbrev ep0Size : Nat := 32
/-- `EP3_SIZE` (R6). -/
abbrev ep3Size : Nat := 8
/-- `KBD_EP` (R6). -/
abbrev kbdEp : Nat := 3
/-- `BCD_USB` (R6). -/
abbrev bcdUsb : Half := 0x0200
/-- `GET_DESC_CLAMP` (R6). -/
abbrev getDescClamp : Nat := 255
/-- `REPORT_DESC_LEN` (R6). -/
abbrev reportDescLen : Nat := 63

end Sys2Proof
end

