-- ==== Sys2Proof/Syntax.lean ====
section
/-! DEFINITION. The instructions: one constructor per row of opcode_table.json (30_encoding.md). -/

namespace Sys2Proof

/-- The 8 data bytes of a SETUP packet, in bus order (30_encoding.md R100). -/
structure Packet8 where
  d0 : Byte
  d1 : Byte
  d2 : Byte
  d3 : Byte
  d4 : Byte
  d5 : Byte
  d6 : Byte
  d7 : Byte
  deriving DecidableEq, Repr

/-- The three kinds of instruction of 30_encoding.md: requests (R104), bus events (R107), register operations (R109). -/
inductive Instr where
  -- requests: every field of the SETUP packet but the key bytes the row fixes (R103, R104)
  | getDescriptor (wValue wIndex wLength : Half)
  | setAddress (wValue wIndex wLength : Half)
  | setConfiguration (wValue wIndex wLength : Half)
  | getConfiguration (wValue wIndex wLength : Half)
  | getStatus (bmRequestType : Byte) (wValue wIndex wLength : Half)
  | stallOther (bmRequestType bRequest : Byte) (wValue wIndex wLength : Half)
  -- bus events (R107)
  | setup (a : DevAddr) (e : EpNum) (d : Packet8)
  | inToken (a : DevAddr) (e : EpNum)
  | outToken (a : DevAddr) (e : EpNum) (data : List Byte)
  | busReset
  | sof
  | pllLocked
  | pllFail
  | txready (n : EpNum)
  | statusRead
  -- register operations (R109)
  | rdPllctl
  | wrPllctl (v : Byte)
  | rdDevctl
  | wrDevctl (v : Byte)
  | rdDevint
  | wrDevint (v : Byte)
  | rdDevinten
  | wrDevinten (v : Byte)
  | rdDevaddr
  | wrDevaddr (v : Byte)
  | rdEptogrst
  | wrEptogrst (v : Byte)
  | rdEpsel
  | wrEpsel (v : Byte)
  | rdEpctl
  | wrEpctl (v : Byte)
  | rdEpcfg0
  | wrEpcfg0 (v : Byte)
  | rdEpcfg1
  | wrEpcfg1 (v : Byte)
  | rdEpsta
  | wrEpsta
  | rdEpint
  | wrEpint (v : Byte)
  | rdEpinten
  | wrEpinten (v : Byte)
  | rdEpdata
  | wrEpdata (v : Byte)
  | rdEpbcnt
  | wrEpbcnt
  | rdEngstatus
  | wrEngstatus
  -- any other operation word, or (`wide`) a 32-bit access to an 8-bit register (R82, R109, R211)
  | otherRegOp (word : Half) (wide : Bool)
  deriving DecidableEq, Repr

end Sys2Proof
end

