-- ==== Sys2Proof/WellFormed.lean ====
section
/-! DEFINITION. What makes a term of `Instr` an instruction: an OUT packet of at most 64 bytes (30_encoding.md R107),
a catch-all request whose key no earlier row matches (R104), a catch-all operation word that is not a listed one (R109).
Every other field may take every value its width admits. -/

namespace Sys2Proof

/-- No one of the first five rows of R104 matches this key. -/
def keyUnlisted (bmRequestType bRequest : Byte) : Bool :=
  !(bRequest == 0x00
    || (bRequest == 0x06 && bmRequestType == 0x80)
    || (bRequest == 0x05 && bmRequestType == 0x00)
    || (bRequest == 0x09 && bmRequestType == 0x00)
    || (bRequest == 0x08 && bmRequestType == 0x80))

/-- The operation words opcode_table.json lists one by one (10_state.md R25 to R45 give the register numbers). -/
def listedWords : List Half :=
  [0x0000, 0x0001, 0x0002, 0x0003, 0x0004, 0x0005, 0x0006]
    ++ [0x0010, 0x0011, 0x0012, 0x0013, 0x0014, 0x0015, 0x0016, 0x0017, 0x0020]
    ++ [0x8000, 0x8001, 0x8002, 0x8003, 0x8004, 0x8005, 0x8006]
    ++ [0x8010, 0x8011, 0x8012, 0x8013, 0x8014, 0x8015, 0x8016, 0x8017, 0x8020]

/-- The well-formed instructions. -/
def Instr.wf : Instr → Bool
  | .outToken _ _ data => decide (data.length ≤ 64)
  | .stallOther bmRequestType bRequest _ _ _ => keyUnlisted bmRequestType bRequest
  | .otherRegOp word false => !listedWords.contains word
  | .otherRegOp word true => word != 0x0020
  | .getDescriptor _ _ _ | .setAddress _ _ _ | .setConfiguration _ _ _ | .getConfiguration _ _ _
  | .getStatus _ _ _ _ | .setup _ _ _ | .inToken _ _ | .busReset | .sof | .pllLocked | .pllFail | .txready _
  | .statusRead | .rdPllctl | .wrPllctl _ | .rdDevctl | .wrDevctl _ | .rdDevint | .wrDevint _ | .rdDevinten
  | .wrDevinten _ | .rdDevaddr | .wrDevaddr _ | .rdEptogrst | .wrEptogrst _ | .rdEpsel | .wrEpsel _ | .rdEpctl
  | .wrEpctl _ | .rdEpcfg0 | .wrEpcfg0 _ | .rdEpcfg1 | .wrEpcfg1 _ | .rdEpsta | .wrEpsta | .rdEpint | .wrEpint _
  | .rdEpinten | .wrEpinten _ | .rdEpdata | .wrEpdata _ | .rdEpbcnt | .wrEpbcnt | .rdEngstatus | .wrEngstatus => true

end Sys2Proof
end

