-- ==== Sys2Proof/Decode.lean ====
section
/-! DEFINITION. The decoder, total on any bytes, and after it the encoder (30_encoding.md R100 to R109). The block has
three decoders, one for each place an instruction is presented: the dispatcher reads the 8 bytes of the SETUP latch
(R104), the bus side reads event records (R107), the register interface reads operation words (R109). The byte layout of
an event record and of an operation word is the model's own (log 4): the spec gives neither a wire form. -/

namespace Sys2Proof

/-- Where an instruction is presented: the dispatcher, the bus, the register interface at its own access width, the
register interface with a 32-bit access (20_memory.md R82). -/
inductive Port where
  | setup | bus | reg | reg32
  deriving DecidableEq, Repr

/-- Why bytes are no instruction. -/
inductive DecodeError where
  /-- the record ends before its operands do -/
  | truncated
  /-- event codes 0x0 and 0xA to 0xF are unassigned (R107), and the code byte's high half is 0 -/
  | unassignedEvent
  /-- a device address has 7 bits (R107) -/
  | addressRange
  /-- an endpoint number has 4 bits (R107) -/
  | endpointRange
  /-- an OUT packet has at most 64 bytes (R107, 40_bus_transactions.md R147) -/
  | oversizeOut
  deriving DecidableEq, Repr

/-- What the decoder answers: the instruction and the bytes after it, or a reason. -/
inductive Decoded where
  | ok (i : Instr) (rest : List Byte)
  | reject (e : DecodeError)
  deriving DecidableEq, Repr

/-- `{hi, lo}` (R8, R101). -/
def half (hi lo : Byte) : Half := hi ++ lo

/-- Bits 7:0. -/
def loByte (v : Half) : Byte := v.extractLsb' 0 8

/-- Bits 15:8. -/
def hiByte (v : Half) : Byte := v.extractLsb' 8 8

/-! ### Requests (R104) -/

/-- The six rows of R104. -/
inductive RequestKind where
  | getDescriptor | setAddress | setConfiguration | getConfiguration | getStatus | stallOther
  deriving DecidableEq, Repr

/-- One row of R104: a key matches when `(K & mask) == pattern`. -/
structure RequestRow where
  kind    : RequestKind
  pattern : Half
  mask    : Half
  deriving DecidableEq, Repr

/-- R104's table, in its order. -/
def requestRows : List RequestRow :=
  [⟨.getDescriptor, 0x0680, 0xFFFF⟩, ⟨.setAddress, 0x0500, 0xFFFF⟩, ⟨.setConfiguration, 0x0900, 0xFFFF⟩,
   ⟨.getConfiguration, 0x0880, 0xFFFF⟩, ⟨.getStatus, 0x0000, 0xFF00⟩, ⟨.stallOther, 0x0000, 0x0000⟩]

/-- The first row that matches; the last row matches every key (R104). -/
def requestKind (key : Half) : RequestKind :=
  match requestRows.find? (fun r => key &&& r.mask == r.pattern) with
  | some r => r.kind
  | none => .stallOther

/-- The request a SETUP packet carries (R100, R103, R104). -/
def requestOf (bmRequestType bRequest : Byte) (wValue wIndex wLength : Half) : Instr :=
  match requestKind (half bRequest bmRequestType) with
  | .getDescriptor => .getDescriptor wValue wIndex wLength
  | .setAddress => .setAddress wValue wIndex wLength
  | .setConfiguration => .setConfiguration wValue wIndex wLength
  | .getConfiguration => .getConfiguration wValue wIndex wLength
  | .getStatus => .getStatus bmRequestType wValue wIndex wLength
  | .stallOther => .stallOther bmRequestType bRequest wValue wIndex wLength

/-- A SETUP packet is 8 bytes, low byte first (R100, R101). -/
def decodeSetup : List Byte → Decoded
  | b0 :: b1 :: b2 :: b3 :: b4 :: b5 :: b6 :: b7 :: rest =>
    .ok (requestOf b0 b1 (half b3 b2) (half b5 b4) (half b7 b6)) rest
  | _ => .reject .truncated

/-! ### Bus events (R107) -/

/-- Operands `a`, `e`, one byte each, and what follows them. -/
def decodeToken (k : DevAddr → EpNum → List Byte → Decoded) : List Byte → Decoded
  | a :: e :: rest =>
    if 0x80 ≤ a then .reject .addressRange
    else if 0x10 ≤ e then .reject .endpointRange
    else k (a.setWidth 7) (e.setWidth 4) rest
  | _ => .reject .truncated

/-- The 8 data bytes of a `SETUP` event. -/
def decodePacket8 (a : DevAddr) (e : EpNum) : List Byte → Decoded
  | d0 :: d1 :: d2 :: d3 :: d4 :: d5 :: d6 :: d7 :: rest => .ok (.setup a e ⟨d0, d1, d2, d3, d4, d5, d6, d7⟩) rest
  | _ => .reject .truncated

/-- The length byte and the data bytes of an `OUT` event. -/
def decodeOutData (a : DevAddr) (e : EpNum) : List Byte → Decoded
  | n :: rest =>
    if 64 < n.toNat then .reject .oversizeOut
    else if rest.length < n.toNat then .reject .truncated
    else .ok (.outToken a e (rest.take n.toNat)) (rest.drop n.toNat)
  | [] => .reject .truncated

/-- The endpoint of a `TXREADY` step. -/
def decodeTxready : List Byte → Decoded
  | n :: rest => if 0x10 ≤ n then .reject .endpointRange else .ok (.txready (n.setWidth 4)) rest
  | [] => .reject .truncated

/-- The event table of R107. -/
def decodeBus : List Byte → Decoded
  | [] => .reject .truncated
  | c :: rest =>
    if c = 0x1 then decodeToken decodePacket8 rest
    else if c = 0x2 then decodeToken (fun a e r => .ok (.inToken a e) r) rest
    else if c = 0x3 then decodeToken decodeOutData rest
    else if c = 0x4 then .ok .busReset rest
    else if c = 0x5 then .ok .sof rest
    else if c = 0x6 then .ok .pllLocked rest
    else if c = 0x7 then .ok .pllFail rest
    else if c = 0x8 then decodeTxready rest
    else if c = 0x9 then .ok .statusRead rest
    else .reject .unassignedEvent

/-! ### Register operations (R109) -/

/-- The register numbers of 10_state.md R25 to R39 and R45; every other number is unimplemented (20_memory.md R80). -/
def regOf (n : Byte) : Option Reg :=
  if n = 0x00 then some .pllctl
  else if n = 0x01 then some .devctl
  else if n = 0x02 then some .devint
  else if n = 0x03 then some .devinten
  else if n = 0x04 then some .devaddr
  else if n = 0x05 then some .eptogrst
  else if n = 0x06 then some .epsel
  else if n = 0x10 then some .epctl
  else if n = 0x11 then some .epcfg0
  else if n = 0x12 then some .epcfg1
  else if n = 0x13 then some .epsta
  else if n = 0x14 then some .epint
  else if n = 0x15 then some .epinten
  else if n = 0x16 then some .epdata
  else if n = 0x17 then some .epbcnt
  else if n = 0x20 then some .engstatus
  else none

/-- The read of a register. -/
def readOf : Reg → Instr
  | .pllctl => .rdPllctl | .devctl => .rdDevctl | .devint => .rdDevint | .devinten => .rdDevinten
  | .devaddr => .rdDevaddr | .eptogrst => .rdEptogrst | .epsel => .rdEpsel | .epctl => .rdEpctl
  | .epcfg0 => .rdEpcfg0 | .epcfg1 => .rdEpcfg1 | .epsta => .rdEpsta | .epint => .rdEpint
  | .epinten => .rdEpinten | .epdata => .rdEpdata | .epbcnt => .rdEpbcnt | .engstatus => .rdEngstatus

/-- The write of a register: its instruction takes the operand byte that follows the word, or (a read-only register,
R211) is illegal at the word itself. -/
def writeOf : Reg → Instr ⊕ (Byte → Instr)
  | .pllctl => .inr .wrPllctl | .devctl => .inr .wrDevctl | .devint => .inr .wrDevint
  | .devinten => .inr .wrDevinten | .devaddr => .inr .wrDevaddr | .eptogrst => .inr .wrEptogrst
  | .epsel => .inr .wrEpsel | .epctl => .inr .wrEpctl | .epcfg0 => .inr .wrEpcfg0 | .epcfg1 => .inr .wrEpcfg1
  | .epint => .inr .wrEpint | .epinten => .inr .wrEpinten | .epdata => .inr .wrEpdata
  | .epsta => .inl .wrEpsta | .epbcnt => .inl .wrEpbcnt | .engstatus => .inl .wrEngstatus

/-- `{rw[15], 0000000, regnum[7:0]}`, low byte first, and the operand byte of a legal write (R109). -/
def decodeReg : List Byte → Decoded
  | lo :: hi :: rest =>
    if hi = 0x00 then
      match regOf lo with
      | some r => .ok (readOf r) rest
      | none => .ok (.otherRegOp (half hi lo) false) rest
    else if hi = 0x80 then
      match regOf lo with
      | some r =>
        match writeOf r with
        | .inl i => .ok i rest
        | .inr k =>
          match rest with
          | v :: rest' => .ok (k v) rest'
          | [] => .reject .truncated
      | none => .ok (.otherRegOp (half hi lo) false) rest
    else .ok (.otherRegOp (half hi lo) false) rest
  | _ => .reject .truncated

/-- A 32-bit access: the `ENGSTATUS` read, and nothing else (R82, R85). -/
def decodeReg32 : List Byte → Decoded
  | lo :: hi :: rest =>
    if half hi lo = 0x0020 then .ok .rdEngstatus rest else .ok (.otherRegOp (half hi lo) true) rest
  | _ => .reject .truncated

/-- The decoder. -/
def decode : Port → List Byte → Decoded
  | .setup => decodeSetup
  | .bus => decodeBus
  | .reg => decodeReg
  | .reg32 => decodeReg32

/-! ### The encoder -/

/-- A 16-bit value, low byte first (20_memory.md R83). -/
def le16 (v : Half) : List Byte := [loByte v, hiByte v]

/-- The 8 bytes of a request (R100, R114). -/
def encodeRequest (bmRequestType bRequest : Byte) (wValue wIndex wLength : Half) : Port × List Byte :=
  (.setup, [bmRequestType, bRequest] ++ le16 wValue ++ le16 wIndex ++ le16 wLength)

/-- A token event: code, address, endpoint, data. -/
def encodeToken (code : Byte) (a : DevAddr) (e : EpNum) (data : List Byte) : Port × List Byte :=
  (.bus, code :: a.setWidth 8 :: e.setWidth 8 :: data)

/-- An operation word and its operand. -/
def encodeRegOp (word : Half) (operand : List Byte) : Port × List Byte := (.reg, le16 word ++ operand)

/-- The port and the bytes of a well-formed instruction, from R100, R104, R107, R109 and the opcode table. -/
def encode : Instr → Port × List Byte
  | .getDescriptor wValue wIndex wLength => encodeRequest 0x80 0x06 wValue wIndex wLength
  | .setAddress wValue wIndex wLength => encodeRequest 0x00 0x05 wValue wIndex wLength
  | .setConfiguration wValue wIndex wLength => encodeRequest 0x00 0x09 wValue wIndex wLength
  | .getConfiguration wValue wIndex wLength => encodeRequest 0x80 0x08 wValue wIndex wLength
  | .getStatus bmRequestType wValue wIndex wLength => encodeRequest bmRequestType 0x00 wValue wIndex wLength
  | .stallOther bmRequestType bRequest wValue wIndex wLength =>
    encodeRequest bmRequestType bRequest wValue wIndex wLength
  | .setup a e d => encodeToken 0x1 a e [d.d0, d.d1, d.d2, d.d3, d.d4, d.d5, d.d6, d.d7]
  | .inToken a e => encodeToken 0x2 a e []
  | .outToken a e data => encodeToken 0x3 a e (BitVec.ofNat 8 data.length :: data)
  | .busReset => (.bus, [0x4])
  | .sof => (.bus, [0x5])
  | .pllLocked => (.bus, [0x6])
  | .pllFail => (.bus, [0x7])
  | .txready n => (.bus, [0x8, n.setWidth 8])
  | .statusRead => (.bus, [0x9])
  | .rdPllctl => encodeRegOp 0x0000 []
  | .wrPllctl v => encodeRegOp 0x8000 [v]
  | .rdDevctl => encodeRegOp 0x0001 []
  | .wrDevctl v => encodeRegOp 0x8001 [v]
  | .rdDevint => encodeRegOp 0x0002 []
  | .wrDevint v => encodeRegOp 0x8002 [v]
  | .rdDevinten => encodeRegOp 0x0003 []
  | .wrDevinten v => encodeRegOp 0x8003 [v]
  | .rdDevaddr => encodeRegOp 0x0004 []
  | .wrDevaddr v => encodeRegOp 0x8004 [v]
  | .rdEptogrst => encodeRegOp 0x0005 []
  | .wrEptogrst v => encodeRegOp 0x8005 [v]
  | .rdEpsel => encodeRegOp 0x0006 []
  | .wrEpsel v => encodeRegOp 0x8006 [v]
  | .rdEpctl => encodeRegOp 0x0010 []
  | .wrEpctl v => encodeRegOp 0x8010 [v]
  | .rdEpcfg0 => encodeRegOp 0x0011 []
  | .wrEpcfg0 v => encodeRegOp 0x8011 [v]
  | .rdEpcfg1 => encodeRegOp 0x0012 []
  | .wrEpcfg1 v => encodeRegOp 0x8012 [v]
  | .rdEpsta => encodeRegOp 0x0013 []
  | .wrEpsta => encodeRegOp 0x8013 []
  | .rdEpint => encodeRegOp 0x0014 []
  | .wrEpint v => encodeRegOp 0x8014 [v]
  | .rdEpinten => encodeRegOp 0x0015 []
  | .wrEpinten v => encodeRegOp 0x8015 [v]
  | .rdEpdata => encodeRegOp 0x0016 []
  | .wrEpdata v => encodeRegOp 0x8016 [v]
  | .rdEpbcnt => encodeRegOp 0x0017 []
  | .wrEpbcnt => encodeRegOp 0x8017 []
  | .rdEngstatus => encodeRegOp 0x0020 []
  | .wrEngstatus => encodeRegOp 0x8020 []
  | .otherRegOp word false => encodeRegOp word []
  | .otherRegOp word true => (.reg32, le16 word)

/-! ### Words of the opcode table -/

/-- The port at which a bare table word is read (log 5). A row of at most 8 bits is an event code. A 16-bit word does not
say whether it is a request key or an operation word: with a high byte of 0x01 to 0x7F it is read as a key (as an
operation word it would only be illegal), with a high byte of 0x00 as an operation word if it names a register and as a
GET_STATUS key otherwise, and with a high byte of 0x80 or more as an operation word. -/
def tablePort (nbits w : Nat) : Port :=
  if nbits ≤ 8 then .bus
  else if w / 256 % 256 = 0 then (if (regOf (BitVec.ofNat 8 w)).isSome then .reg else .setup)
  else if w / 256 % 256 < 0x80 then .setup
  else .reg

/-- The `n` low bytes of a number, lowest first. -/
def leBytes : Nat → Nat → List Byte
  | 0, _ => []
  | n + 1, w => BitVec.ofNat 8 w :: leBytes n (w / 256)

/-- The longest instruction: an OUT event of 64 data bytes. -/
abbrev longestInstr : Nat := 68

/-- The bytes of a table word, then zeros up to the longest instruction. -/
def tableBytes (nbits w : Nat) : List Byte :=
  leBytes ((nbits + 7) / 8) (w % 2 ^ nbits) ++ List.replicate longestInstr 0

/-- The instruction the decoder reads from a table word (operands above `nbits` zero). -/
def decodeTableWord (nbits w : Nat) : Option Instr :=
  match decode (tablePort nbits w) (tableBytes nbits w) with
  | .ok i _ => some i
  | .reject _ => none

end Sys2Proof
end

