-- ==== Sys2Proof/Machine/State.lean ====
section
/-! DEFINITION. The state of the block (10_state.md R20 to R46), the reasons a step of the model can stop, and the state
at power-on (70_reset_and_hazards.md R410, R411). -/

namespace Sys2Proof.Machine

/-! ### Names the spec gives to sets of values -/

/-- The handler context `ctx` (R23). -/
inductive Ctx where
  | init | idle | busReset | busSof | setup | halted
  deriving DecidableEq, Repr

/-- The sequencer state `seq`, the engine's program counter (R22): the microstates of 70_reset_and_hazards.md R412,
60_exceptions.md R382 and R385, and 44_control_sequencer.md R290, in program order. `sRd k` is `S_RD<k>`, `ret` is
`RETURN`. -/
inductive Seq where
  | idle | halted
  | initPll | initLock | initCfgSel | initCfgEn | initCfgType | initCfgAlloc | initCfgIen | initIen | initAttach
  | brClr | brCfgSel | brCfgEn | brCfgType | brCfgAlloc | brCfgIen | brState
  | sofClr
  | sSel | sRd (k : Fin 8) | sAck
  | sDispatch | gdLookup
  | saSet | saZw | saZc | saWait | saApply
  | scStore | scZw | scZc | scCfgSel | scCfgEn | scCfgType | scCfgAlloc | scCfgIen | scTog
  | gcLoad | gsLoad
  | strWait | strWrite | strCommit
  | stall | ret
  deriving DecidableEq, Repr

/-- The enumeration states (R24, 45_enumeration.md R350). -/
inductive DevState where
  | default | addressed | configured
  deriving DecidableEq, Repr

/-- The two regions a stream can read (R21). -/
inductive Region where
  | rom | reply
  deriving DecidableEq, Repr

/-- The fault kinds (60_exceptions.md R372). -/
inductive FaultKind where
  | badRegister | badEndpoint | noBank | fifoNotOwned | fifoUnderrun | fifoOverflow | fifoConflict
  | setupDuringTransfer | pllLockFail
  deriving DecidableEq, Repr

/-- The answers the host sees (30_encoding.md R108). `data pid bytes`: `pid` is true for DATA1. The answer `none` is the
absence of one. -/
inductive Answer where
  | ack | nak | stall
  | data (pid : Bool) (bytes : List Byte)
  deriving DecidableEq, Repr

/-! ### Records -/

/-- The SETUP latch (R20). -/
structure SetupLatch where
  bmRequestType : Byte
  bRequest      : Byte
  wValue        : Half
  wIndex        : Half
  wLength       : Half
  deriving DecidableEq, Repr

/-- The working registers (R21), and the byte index `i` of 44_control_sequencer.md R320 (log 10). -/
structure Work where
  region      : Region
  offset      : Half
  remaining   : Half
  packet      : Byte
  i           : Byte
  reply0      : Byte
  reply1      : Byte
  pendingAddr : DevAddr
  deriving DecidableEq, Repr

/-- The enumeration state (R24). -/
structure Enumeration where
  devState     : DevState
  assignedAddr : DevAddr
  configValue  : Byte
  deriving DecidableEq, Repr

/-- The device-level registers (R25 to R31). -/
structure DevRegs where
  pllEn   : Bool
  pllLock : Bool
  pllFail : Bool
  detach  : Bool
  sofi    : Bool
  eorsti  : Bool
  sofe    : Bool
  eorste  : Bool
  uadd    : DevAddr
  adden   : Bool
  epnum   : BitVec 3
  deriving DecidableEq, Repr

/-- One bank (R40). -/
structure Bank where
  data      : List Byte
  committed : Bool
  deriving DecidableEq, Repr

/-- The state of one endpoint (R32 to R40). `toggle` is true for DATA1. -/
structure Endpoint where
  epen    : Bool
  stallrq : Bool
  eptype  : BitVec 2
  epdir   : Bool
  epsize  : BitVec 3
  epbk    : BitVec 2
  alloc   : Bool
  cfgok   : Bool
  txini   : Bool
  rxouti  : Bool
  rxstpi  : Bool
  txine   : Bool
  rxoute  : Bool
  rxstpe  : Bool
  banks   : List Bank
  fill    : Nat
  send    : Nat
  toggle  : Bool
  deriving DecidableEq, Repr

/-- Which agent moves (00_scope.md R10): the engine, or the agent that presents these bytes: an event record on the bus
side, an operation word at the register interface, or a 32-bit access there (log 3, log 4, log 17). -/
inductive Turn where
  | engine
  | bus (bytes : List Byte)
  | reg (bytes : List Byte)
  | reg32 (bytes : List Byte)
  deriving DecidableEq, Repr

/-- The state of the block, and the model's own fields `rdData`, `mainData`, `history` and `turns` (log 1 to 3). -/
structure State where
  /-- the open parameters (00_scope.md R6); no step writes them -/
  cfg      : Config
  latch    : SetupLatch
  work     : Work
  seq      : Seq
  ctx      : Ctx
  enum     : Enumeration
  dev      : DevRegs
  /-- the endpoints 0 to `NUM_EP` - 1 -/
  eps      : List Endpoint
  /-- the set of fault kinds (R43), in rising code order -/
  faults   : List FaultKind
  /-- the cells of the descriptor ROM that differ from the image of 42_descriptor_rom.md (none: R95) -/
  rom      : List Host.Cell
  /-- the value the latest register read returned (log 1) -/
  rdData   : Word
  /-- the value the main loop's latest `STATUS_READ` returned (log 1) -/
  mainData : Word
  /-- what the host saw, newest first (00_scope.md R9, log 2) -/
  history  : List Answer
  /-- who moves next (log 3) -/
  turns    : List Turn
  deriving DecidableEq, Repr

/-! ### Why a step of the model stops -/

/-- The model's own faults, on states no run reaches. The fault kinds of the spec are no faults here: taking one is a
next state (60_exceptions.md R372). -/
inductive Fault where
  /-- raised by the streaming engine at `STR_WRITE` when it reads a byte beyond the ROM (20_memory.md R80); safe -/
  | romAddress
  /-- raised by the streaming engine at `STR_WRITE` when it reads a byte beyond the 2-byte reply (R21); safe -/
  | replyIndex
  deriving DecidableEq, Repr

/-- What the model refuses. -/
inductive Refusal where
  /-- raised by an arm of `exec` whose instruction has no meaning yet; safe -/
  | notModelled (mnemonic : String)
  /-- raised by `step` when the next record is no instruction: a code no agent emits, an operand out of its range
  (30_encoding.md R107, 40_bus_transactions.md R144); safe -/
  | malformed (e : DecodeError)
  deriving DecidableEq, Repr

/-! ### Power-on (R46, 70_reset_and_hazards.md R411) -/

/-- An endpoint at power-on. -/
def Endpoint.reset : Endpoint where
  epen := false
  stallrq := false
  eptype := 0
  epdir := false
  epsize := 0
  epbk := 0
  alloc := false
  cfgok := false
  txini := false
  rxouti := false
  rxstpi := false
  txine := false
  rxoute := false
  rxstpe := false
  banks := []
  fill := 0
  send := 0
  toggle := false

/-- The device-level registers at power-on: `DETACH` is 1, all else 0. -/
def DevRegs.reset : DevRegs where
  pllEn := false
  pllLock := false
  pllFail := false
  detach := true
  sofi := false
  eorsti := false
  sofe := false
  eorste := false
  uadd := 0
  adden := false
  epnum := 0

/-- The block at power-on, for any value of the open parameters. -/
def State.resetWith (c : Config) : State where
  cfg := c
  latch := ⟨0, 0, 0, 0, 0⟩
  work := ⟨.rom, 0, 0, 0, 0, 0, 0, 0⟩
  seq := .initPll
  ctx := .init
  enum := ⟨.default, 0, 0⟩
  dev := DevRegs.reset
  eps := List.replicate c.numEp Endpoint.reset
  faults := []
  rom := []
  rdData := 0
  mainData := 0
  history := []
  turns := []

/-- The block at power-on, with the parameters at their defaults (log 8). -/
def State.reset : State := State.resetWith Config.default

end Sys2Proof.Machine
end

