-- ==== Sys2Proof/Machine/Operands.lean ====
section
/-! DEFINITION. The operands: the fields of the SETUP latch the requests use (30_encoding.md R103), the fields of a
written register value (10_state.md R25 to R37), the sizes an endpoint's codes stand for (R34). -/

namespace Sys2Proof.Machine

/-! ### Requests (R103) -/

/-- `dtype = wValue[15:8]`. -/
def dtypeOf (wValue : Half) : Byte := hiByte wValue

/-- `dindex = wValue[7:0]`. -/
def dindexOf (wValue : Half) : Byte := loByte wValue

/-- `addr = wValue[6:0]`. -/
def addrOf (wValue : Half) : DevAddr := wValue.extractLsb' 0 7

/-- `cfg = wValue[7:0]`. -/
def cfgOf (wValue : Half) : Byte := loByte wValue

/-- The byte `S_RD<k>` stores (44_control_sequencer.md R293). -/
def SetupLatch.store (l : SetupLatch) (k : Fin 8) (b : Byte) : SetupLatch :=
  match k with
  | 0 => { l with bmRequestType := b }
  | 1 => { l with bRequest := b }
  | 2 => { l with wValue := half (hiByte l.wValue) b }
  | 3 => { l with wValue := half b (loByte l.wValue) }
  | 4 => { l with wIndex := half (hiByte l.wIndex) b }
  | 5 => { l with wIndex := half b (loByte l.wIndex) }
  | 6 => { l with wLength := half (hiByte l.wLength) b }
  | 7 => { l with wLength := half b (loByte l.wLength) }

/-- The request the latch holds (30_encoding.md R104). -/
def SetupLatch.request (l : SetupLatch) : Instr := requestOf l.bmRequestType l.bRequest l.wValue l.wIndex l.wLength

/-- `remaining` of GET_DESCRIPTOR: `min(wLength, 255, dlen)` (44_control_sequencer.md R300). -/
def descriptorLength (wLength : Half) (dlen : Nat) : Half :=
  BitVec.ofNat 16 (min (min wLength.toNat getDescClamp) dlen)

/-- `packet`: `min(remaining, EP0_SIZE)` (44_control_sequencer.md R320). -/
def packetSize (remaining : Half) : Byte := BitVec.ofNat 8 (min remaining.toNat ep0Size)

/-! ### Fields of a written byte -/

/-- `v[i]`. -/
def bitOf (v : Byte) (i : Nat) : Bool := v.getLsbD i

/-- `UADD = v[6:0]` (10_state.md R29). -/
def uaddOf (v : Byte) : DevAddr := v.extractLsb' 0 7

/-- `EPNUM = v[2:0]` (R31). -/
def epnumOf (v : Byte) : BitVec 3 := v.extractLsb' 0 3

/-- `EPTYPE = v[7:6]` (R33). -/
def eptypeOf (v : Byte) : BitVec 2 := v.extractLsb' 6 2

/-- `EPSIZE = v[6:4]` (R34). -/
def epsizeOf (v : Byte) : BitVec 3 := v.extractLsb' 4 3

/-- `EPBK = v[3:2]` (R34). -/
def epbkOf (v : Byte) : BitVec 2 := v.extractLsb' 2 2

/-! ### Endpoint quantities -/

/-- `size(e)`: 8, 16, 32 or 64 bytes for the codes 0 to 3 (R34, 41_register_interface.md R200). -/
def Endpoint.size (e : Endpoint) : Nat := 8 <<< e.epsize.toNat

/-- `nbanks(e)`: one bank for code 0, two for code 1 (R34, R200). -/
def Endpoint.nbanks (e : Endpoint) : Nat := e.epbk.toNat + 1

/-- `EPTYPE` = 0: a control endpoint (R33). -/
def Endpoint.isControl (e : Endpoint) : Bool := e.eptype == 0

/-- The data of the current bank, empty where there is no bank (R38, R39). -/
def Endpoint.current (e : Endpoint) : List Byte :=
  match e.banks[e.fill]? with
  | some b => b.data
  | none => []

/-- The current bank is committed. -/
def Endpoint.fillCommitted (e : Endpoint) : Bool :=
  match e.banks[e.fill]? with
  | some b => b.committed
  | none => false

/-- `activeAddr = (ADDEN = 1) ? UADD : 0` (40_bus_transactions.md R141). -/
def DevRegs.activeAddr (d : DevRegs) : DevAddr := if d.adden then d.uadd else 0

end Sys2Proof.Machine
end

