-- ==== Sys2Proof/Machine/Flags.lean ====
section
/-! DEFINITION. What the flags and registers read as: the byte each register read returns (41_register_interface.md R182
to R209), the `ENGSTATUS` word (10_state.md R45), the interrupt lines (R42) and the fault codes (60_exceptions.md R372). -/

namespace Sys2Proof.Machine

/-- A byte from its bits, bit 7 first. -/
def bits8 (b7 b6 b5 b4 b3 b2 b1 b0 : Bool) : Byte :=
  BitVec.ofBool b7 ++ BitVec.ofBool b6 ++ BitVec.ofBool b5 ++ BitVec.ofBool b4
    ++ BitVec.ofBool b3 ++ BitVec.ofBool b2 ++ BitVec.ofBool b1 ++ BitVec.ofBool b0

/-! ### Device-level registers -/

/-- R182. -/
def DevRegs.pllctl (d : DevRegs) : Byte := bits8 false false false false false d.pllFail d.pllLock d.pllEn

/-- R184. -/
def DevRegs.devctl (d : DevRegs) : Byte := bits8 false false false false false false false d.detach

/-- R186. -/
def DevRegs.devint (d : DevRegs) : Byte := bits8 false false false false false false d.eorsti d.sofi

/-- R188. -/
def DevRegs.devinten (d : DevRegs) : Byte := bits8 false false false false false false d.eorste d.sofe

/-- R190. -/
def DevRegs.devaddr (d : DevRegs) : Byte := BitVec.ofBool d.adden ++ d.uadd

/-- R194. -/
def DevRegs.epsel (d : DevRegs) : Byte := (0 : BitVec 5) ++ d.epnum

/-! ### Per-endpoint registers -/

/-- R197. -/
def Endpoint.epctl (e : Endpoint) : Byte := bits8 false false false false false false e.stallrq e.epen

/-- R199. -/
def Endpoint.epcfg0 (e : Endpoint) : Byte := e.eptype ++ (0 : BitVec 5) ++ BitVec.ofBool e.epdir

/-- R201. -/
def Endpoint.epcfg1 (e : Endpoint) : Byte := BitVec.ofBool false ++ e.epsize ++ e.epbk ++ BitVec.ofBool e.alloc
  ++ BitVec.ofBool false

/-- R202. -/
def Endpoint.epsta (e : Endpoint) : Byte := bits8 e.cfgok false false false false false false false

/-- R204. -/
def Endpoint.epint (e : Endpoint) : Byte := bits8 false false false false e.rxstpi e.rxouti false e.txini

/-- R206. -/
def Endpoint.epinten (e : Endpoint) : Byte := bits8 false false false false e.rxstpe e.rxoute false e.txine

/-- R209. -/
def Endpoint.epbcnt (e : Endpoint) : Byte := if e.cfgok then BitVec.ofNat 8 e.current.length else 0

/-! ### Engine status (R45) -/

/-- `DEVSTATE` (R24, 45_enumeration.md R350). -/
def DevState.code : DevState → BitVec 2
  | .default => 0
  | .addressed => 1
  | .configured => 2

/-- The `ENGSTATUS` word of this state. -/
def engstatus (s : State) : Word :=
  (0 : BitVec 6) ++ BitVec.ofBool (!s.faults.isEmpty) ++ BitVec.ofBool (s.ctx == .halted) ++ s.enum.configValue
    ++ BitVec.ofBool false ++ s.enum.assignedAddr ++ (0 : BitVec 6) ++ s.enum.devState.code

/-! ### Interrupt lines (R42) -/

/-- The bus-reset source is pending and enabled (60_exceptions.md R377). -/
def busResetPending (s : State) : Bool := s.dev.eorsti && s.dev.eorste

/-- The start-of-frame source is pending and enabled. -/
def sofPending (s : State) : Bool := s.dev.sofi && s.dev.sofe

/-- `busEventIrq`. -/
def busEventIrq (s : State) : Bool := sofPending s || busResetPending s

/-- One endpoint's part of `epEventIrq`. -/
def Endpoint.irq (e : Endpoint) : Bool := (e.txini && e.txine) || (e.rxouti && e.rxoute) || (e.rxstpi && e.rxstpe)

/-- `epEventIrq`. -/
def epEventIrq (s : State) : Bool := s.eps.any Endpoint.irq

/-- Endpoint 0's setup-received source is pending and enabled (60_exceptions.md R378). -/
def setupPending (s : State) : Bool :=
  match s.eps[0]? with
  | some e => e.rxstpi && e.rxstpe
  | none => false

/-- `ep[0].TXINI` = 1 (44_control_sequencer.md R324). -/
def bankReady (s : State) : Bool :=
  match s.eps[0]? with
  | some e => e.txini
  | none => false

/-! ### Fault codes -/

/-- The codes of R372. -/
def FaultKind.code : FaultKind → Nat
  | .badRegister => 1
  | .badEndpoint => 2
  | .noBank => 3
  | .fifoNotOwned => 4
  | .fifoUnderrun => 5
  | .fifoOverflow => 6
  | .fifoConflict => 7
  | .setupDuringTransfer => 8
  | .pllLockFail => 9

end Sys2Proof.Machine
end

