-- ==== Sys2Proof/Machine/Rom.lean ====
section
/-! DEFINITION. The descriptor ROM (42_descriptor_rom.md): its image, the memory that holds it, and the lookup. -/

namespace Sys2Proof.Machine

/-! ### The image (R230 to R236) -/

/-- `H` of R230. -/
def hidLen (c : Config) : Nat := if c.hidPresent then 9 else 0

/-- `wTotalLength` (R237). -/
def wTotalLength (c : Config) : Nat := 9 + 9 + hidLen c + 7

/-- R231. -/
def deviceDescriptor (c : Config) : List Byte :=
  [0x12, 0x01] ++ le16 bcdUsb ++ [0x00, 0x00, 0x00, BitVec.ofNat 8 ep0Size]
    ++ le16 c.vid ++ le16 c.pid ++ le16 c.bcdDevice ++ [0x00, 0x00, 0x00, 0x01]

/-- R232. -/
def configurationDescriptor (c : Config) : List Byte :=
  [0x09, 0x02] ++ le16 (BitVec.ofNat 16 (wTotalLength c)) ++ [0x01, 0x01, 0x00, 0x80, c.maxPower]

/-- R233. -/
def interfaceDescriptor : List Byte := [0x09, 0x04, 0x00, 0x00, 0x01, 0x03, 0x01, 0x01, 0x00]

/-- R234. -/
def hidDescriptor (c : Config) : List Byte :=
  [0x09, 0x21] ++ le16 c.bcdHid ++ [0x00, 0x01, 0x22] ++ le16 (BitVec.ofNat 16 reportDescLen)

/-- R235. -/
def endpointDescriptor (c : Config) : List Byte :=
  [0x07, 0x05, 0x80 ||| BitVec.ofNat 8 kbdEp, 0x03] ++ le16 (BitVec.ofNat 16 ep3Size) ++ [c.kbdInterval]

/-- R236. PRESUMED (log 19): the bytes are general knowledge, and no request returns them. -/
def reportDescriptor : List Byte :=
  [0x05, 0x01, 0x09, 0x06, 0xA1, 0x01, 0x05, 0x07, 0x19, 0xE0, 0x29, 0xE7, 0x15, 0x00, 0x25, 0x01]
    ++ [0x75, 0x01, 0x95, 0x08, 0x81, 0x02, 0x95, 0x01, 0x75, 0x08, 0x81, 0x01, 0x95, 0x05, 0x75, 0x01]
    ++ [0x05, 0x08, 0x19, 0x01, 0x29, 0x05, 0x91, 0x02, 0x95, 0x01, 0x75, 0x03, 0x91, 0x01, 0x95, 0x06]
    ++ [0x75, 0x08, 0x15, 0x00, 0x25, 0x65, 0x05, 0x07, 0x19, 0x00, 0x29, 0x65, 0x81, 0x00, 0xC0]

/-- The configuration stream, in the mandated order (R230). -/
def configurationStream (c : Config) : List Byte :=
  configurationDescriptor c ++ interfaceDescriptor ++ (if c.hidPresent then hidDescriptor c else [])
    ++ endpointDescriptor c

/-- The whole ROM (R230, R241). -/
def romImage (c : Config) : List Byte := deviceDescriptor c ++ configurationStream c ++ reportDescriptor

/-! ### The memory that holds it -/

/-- What an unlisted address reads as: the image; no byte beyond it exists (20_memory.md R80). -/
def Memory.unlisted (c : Config) (a : Nat) : Option Byte := (romImage c)[a]?

/-- The byte at an address, `none` where the ROM has none. -/
def Memory.read (c : Config) (m : List Host.Cell) (a : Nat) : Option Byte :=
  match Memory.unlisted c a with
  | none => none
  | some b => some ((m.lookup a).getD b)

/-- Addresses strictly rising. -/
def Memory.rising : List Host.Cell → Bool
  | [] => true
  | [_] => true
  | x :: y :: m => decide (x.1 < y.1) && Memory.rising (y :: m)

/-- The canonical form: addresses strictly rising, each in the ROM, no cell equal to what it would read as unlisted. -/
def Memory.wf (c : Config) (m : List Host.Cell) : Bool :=
  Memory.rising m && m.all (fun x => (Memory.unlisted c x.1).isSome && Memory.unlisted c x.1 != some x.2)

/-- `RomRead(addr, 1)` (00_scope.md R9). -/
def romRead (s : State) (a : Nat) : Option Byte := Memory.read s.cfg s.rom a

/-- `RomRead(addr, n)`: the bytes at `n` consecutive offsets (00_scope.md R9, 20_memory.md R86). -/
def romReads (s : State) (a : Nat) : Nat → Option (List Byte)
  | 0 => some []
  | n + 1 =>
    match romRead s a, romReads s (a + 1) n with
    | some b, some bs => some (b :: bs)
    | _, _ => none

/-! ### Lookup (R238, R239) -/

/-- Offset and length of a descriptor, `none` for `NotFound`; the index is ignored (R239). -/
def lookup (c : Config) (dtype _dindex : Byte) : Option (Nat × Nat) :=
  if dtype = 0x01 then some (0, 18)
  else if dtype = 0x02 then some (18, wTotalLength c)
  else none

end Sys2Proof.Machine
end

