-- ==== Sys2Proof/Machine/Ops.lean ====
section
/-! DEFINITION. The shared operations: raising a fault, the endpoint and bank operations, the register operations of
41_register_interface.md, the reception of tokens. The meanings and the microprogram call these. -/

namespace Sys2Proof.Machine

/-- What a meaning answers. -/
abbrev Result := Host.Outcome State Fault Refusal

/-- What a register operation answers: the state after it, or the fault kind it raises and no effect (60_exceptions.md
R372: "A register operation that raises a fault has no other effect"). -/
abbrev OpResult := Except FaultKind State

/-! ### Taking a fault, and returning from a handler -/

/-- Add a kind to the fault record, which is kept in rising code order (10_state.md R43). -/
def insertFault (k : FaultKind) : List FaultKind → List FaultKind
  | [] => [k]
  | x :: xs =>
    if k.code < x.code then k :: x :: xs
    else if k = x then x :: xs
    else x :: insertFault k xs

/-- `raise Fault(k)` (60_exceptions.md R372): the fault record, `ctx` and `seq`, in one step. -/
def raise (k : FaultKind) (s : State) : State :=
  { s with faults := insertFault k s.faults, ctx := .halted, seq := .halted }

/-- The return of every handler (60_exceptions.md R380): `ctx` and `seq` to `IDLE`; nothing is restored. -/
def returnIdle (s : State) : State := { s with ctx := .idle, seq := .idle }

/-- The engine goes to a microstate (10_state.md R22). -/
def goto (q : Seq) (s : State) : State := { s with seq := q }

/-- The step that ends a register operation begun in `s`: its effect, or the fault raised on `s`. -/
def finish (s : State) : OpResult → Result
  | .ok t => .next t
  | .error k => .next (raise k s)

/-- A register operation performed in the engine's place (20_memory.md R82). After a fault the engine takes no step and
no register is written by it (60_exceptions.md R373). -/
def engineOp (op : State → OpResult) (s : State) : Result :=
  if s.ctx = .halted then .next s else finish s (op s)

/-- A microstate's register operation begun in `s`, then the next microstate. -/
def thenGo (s : State) (r : OpResult) (q : Seq) : Result := finish s (r.map (goto q))

/-- `host sees X` (00_scope.md R9). -/
def sees (x : Answer) (s : State) : State := { s with history := x :: s.history }

/-- The value a register read returns (30_encoding.md R109, log 1). -/
def returns (v : Byte) (s : State) : State := { s with rdData := v.setWidth 32 }

/-! ### Banks (10_state.md R40) -/

/-- `E.banks[E.fill].data <- d`. Without that bank there is nothing to write (log 12). -/
def Endpoint.setCurrent (e : Endpoint) (d : List Byte) : Endpoint :=
  { e with banks := e.banks.modify e.fill (fun b => { b with data := d }) }

/-- `committed` of the current bank, and the next fill bank (41_register_interface.md R203). Without a current bank there
is nothing to commit (log 12). -/
def Endpoint.commit (e : Endpoint) : Endpoint :=
  match e.banks[e.fill]? with
  | none => e
  | some _ =>
    { e with
      banks := e.banks.modify e.fill (fun b => { b with committed := true })
      fill := (e.fill + 1) % e.nbanks }

/-- No banks, and the three flags as they are. -/
def Endpoint.dropBanks (e : Endpoint) : Endpoint :=
  { e with cfgok := false, banks := [] }

/-- `TXINI`, `RXOUTI` and `RXSTPI` to 0. DESIGN CHOICE (log 27): R196, R198 and R200 clear the flags so, although 10_state.md
R36 names only `WR EPINT` and a bus reset. -/
def Endpoint.dropFlags (e : Endpoint) : Endpoint :=
  { e with txini := false, rxouti := false, rxstpi := false }

/-- An empty bank. -/
def Bank.empty : Bank := ⟨[], false⟩

/-! ### Endpoint operations -/

/-- Deactivation (41_register_interface.md R196), the flags as R196 says and not as 10_state.md R36 (log 27). -/
def Endpoint.deactivate (e : Endpoint) : Endpoint :=
  { e.dropFlags.dropBanks with epen := false, stallrq := false, alloc := false, fill := 0, send := 0, toggle := false }

/-- The controller's bus reset of one endpoint (40_bus_transactions.md R150). -/
def Endpoint.busReset (e : Endpoint) : Endpoint :=
  { e.deactivate with txine := false, rxoute := false, rxstpe := false }

/-- `WR EPCTL` (R196). -/
def Endpoint.writeCtl (v : Byte) (e : Endpoint) : Endpoint :=
  if bitOf v 0 then { e with epen := true, stallrq := e.stallrq || bitOf v 1 } else e.deactivate

/-- `WR EPCFG0` (R198), the flags and banks as R198 says and not as R36 and R88 (log 27). -/
def Endpoint.writeCfg0 (v : Byte) (e : Endpoint) : Endpoint :=
  let e' := if e.alloc then { e.dropFlags.dropBanks with alloc := false, fill := 0, send := 0 } else e
  { e' with eptype := eptypeOf v, epdir := bitOf v 0 }

/-- `WR EPCFG1` (R200), the flags as R200 says and not as R36 (log 27). -/
def Endpoint.writeCfg1 (v : Byte) (e : Endpoint) : Endpoint :=
  let e' := { e with epsize := epsizeOf v, epbk := epbkOf v, alloc := bitOf v 1 }
  if bitOf v 1 && e'.epen && decide (e'.epsize ≤ 3) && decide (e'.epbk ≤ 1) then
    { e'.dropFlags with banks := List.replicate e'.nbanks Bank.empty, fill := 0, send := 0, cfgok := true }
  else e'.dropBanks

/-- `WR EPINTEN` (R205). -/
def Endpoint.writeInten (v : Byte) (e : Endpoint) : Endpoint :=
  { e with txine := bitOf v 0, rxoute := bitOf v 2, rxstpe := bitOf v 3 }

/-- First part of `WR EPINT`: the SETUP bytes released (R203). -/
def Endpoint.releaseSetup (v : Byte) (e : Endpoint) : Endpoint :=
  if !bitOf v 3 && e.rxstpi then { e with rxstpi := false }.setCurrent [] else e

/-- Second part of `WR EPINT`: the OUT bytes released (R203). -/
def Endpoint.releaseOut (v : Byte) (e : Endpoint) : Endpoint :=
  if !bitOf v 2 && e.rxouti then { e with rxouti := false }.setCurrent [] else e

/-- `WR EPINT` (R203): the two releases, then bank-ready: released if a SETUP was unread before the write, a conflict if
OUT data stay unread on a control endpoint, a commit otherwise. -/
def Endpoint.writeInt (v : Byte) (e : Endpoint) : Except FaultKind Endpoint :=
  let e' := (e.releaseSetup v).releaseOut v
  if !bitOf v 0 && e'.txini then
    if e.rxstpi then .ok ({ e' with txini := false }.setCurrent [])
    else if e.isControl && e.rxouti && bitOf v 2 then .error .fifoConflict
    else .ok { e' with txini := false }.commit
  else .ok e'

/-- `RD EPDATA` (R207): the byte and the endpoint after it. -/
def Endpoint.popData (e : Endpoint) : Except FaultKind (Byte × Endpoint) :=
  if !e.cfgok then .error .noBank
  else if !e.rxstpi && !e.rxouti then .error .fifoNotOwned
  else
    match e.current with
    | [] => .error .fifoUnderrun
    | b :: d => .ok (b, e.setCurrent d)

/-- `WR EPDATA` (R208). -/
def Endpoint.pushData (b : Byte) (e : Endpoint) : Except FaultKind Endpoint :=
  if !e.cfgok then .error .noBank
  else if e.rxstpi then .error .fifoConflict
  else if e.isControl && e.rxouti then .error .fifoConflict
  else if !e.txini then .error .fifoNotOwned
  else if e.current.length = e.size then .error .fifoOverflow
  else .ok (e.setCurrent (e.current ++ [b]))

/-! ### The selected endpoint (R180, R195) -/

/-- An operation on the endpoint `EPSEL` names: `BAD_ENDPOINT` when there is none, and no other effect. -/
def onSelected (f : Endpoint → Except FaultKind Endpoint) (s : State) : OpResult :=
  match s.eps[s.dev.epnum.toNat]? with
  | none => .error .badEndpoint
  | some e =>
    match f e with
    | .ok e' => .ok { s with eps := s.eps.set s.dev.epnum.toNat e' }
    | .error k => .error k

/-- A read, without side effect, of a register of the endpoint `EPSEL` names. -/
def readSelected (f : Endpoint → Byte) (s : State) : OpResult :=
  match s.eps[s.dev.epnum.toNat]? with
  | none => .error .badEndpoint
  | some e => .ok (returns (f e) s)

/-! ### Register operations (41_register_interface.md) -/

/-- R182. -/
def rdPllctl (s : State) : OpResult := .ok (returns s.dev.pllctl s)

/-- R181. -/
def wrPllctl (v : Byte) (s : State) : OpResult :=
  .ok { s with dev := { s.dev with pllEn := bitOf v 0, pllLock := s.dev.pllLock && bitOf v 0 } }

/-- R184. -/
def rdDevctl (s : State) : OpResult := .ok (returns s.dev.devctl s)

/-- R183. -/
def wrDevctl (v : Byte) (s : State) : OpResult := .ok { s with dev := { s.dev with detach := bitOf v 0 } }

/-- R186. -/
def rdDevint (s : State) : OpResult := .ok (returns s.dev.devint s)

/-- R185: a bit written 0 clears its flag. -/
def wrDevint (v : Byte) (s : State) : OpResult :=
  .ok { s with dev := { s.dev with sofi := s.dev.sofi && bitOf v 0, eorsti := s.dev.eorsti && bitOf v 1 } }

/-- R188. -/
def rdDevinten (s : State) : OpResult := .ok (returns s.dev.devinten s)

/-- R187. -/
def wrDevinten (v : Byte) (s : State) : OpResult :=
  .ok { s with dev := { s.dev with sofe := bitOf v 0, eorste := bitOf v 1 } }

/-- R190. -/
def rdDevaddr (s : State) : OpResult := .ok (returns s.dev.devaddr s)

/-- R189. -/
def wrDevaddr (v : Byte) (s : State) : OpResult :=
  .ok { s with dev := { s.dev with uadd := uaddOf v, adden := bitOf v 7 } }

/-- R192. -/
def rdEptogrst (s : State) : OpResult := .ok (returns 0 s)

/-- R191 for one endpoint. -/
def Endpoint.resetToggle (selected : Bool) (e : Endpoint) : Endpoint :=
  if selected && !e.isControl then { e with toggle := false } else e

/-- R191. -/
def wrEptogrst (v : Byte) (s : State) : OpResult :=
  .ok { s with eps := s.eps.mapIdx (fun n e => e.resetToggle (bitOf v n)) }

/-- R194. -/
def rdEpsel (s : State) : OpResult := .ok (returns s.dev.epsel s)

/-- R193. -/
def wrEpsel (v : Byte) (s : State) : OpResult := .ok { s with dev := { s.dev with epnum := epnumOf v } }

/-- R197. -/
def rdEpctl (s : State) : OpResult := readSelected Endpoint.epctl s

/-- R196. -/
def wrEpctl (v : Byte) (s : State) : OpResult := onSelected (fun e => .ok (e.writeCtl v)) s

/-- R199. -/
def rdEpcfg0 (s : State) : OpResult := readSelected Endpoint.epcfg0 s

/-- R198. -/
def wrEpcfg0 (v : Byte) (s : State) : OpResult := onSelected (fun e => .ok (e.writeCfg0 v)) s

/-- R201. -/
def rdEpcfg1 (s : State) : OpResult := readSelected Endpoint.epcfg1 s

/-- R200. -/
def wrEpcfg1 (v : Byte) (s : State) : OpResult := onSelected (fun e => .ok (e.writeCfg1 v)) s

/-- R202. -/
def rdEpsta (s : State) : OpResult := readSelected Endpoint.epsta s

/-- R204. -/
def rdEpint (s : State) : OpResult := readSelected Endpoint.epint s

/-- R203. -/
def wrEpint (v : Byte) (s : State) : OpResult := onSelected (Endpoint.writeInt v) s

/-- R206. -/
def rdEpinten (s : State) : OpResult := readSelected Endpoint.epinten s

/-- R205. -/
def wrEpinten (v : Byte) (s : State) : OpResult := onSelected (fun e => .ok (e.writeInten v)) s

/-- R207. -/
def rdEpdata (s : State) : OpResult :=
  match s.eps[s.dev.epnum.toNat]? with
  | none => .error .badEndpoint
  | some e =>
    match e.popData with
    | .ok (b, e') => .ok (returns b { s with eps := s.eps.set s.dev.epnum.toNat e' })
    | .error k => .error k

/-- R208. -/
def wrEpdata (b : Byte) (s : State) : OpResult := onSelected (Endpoint.pushData b) s

/-- R209. -/
def rdEpbcnt (s : State) : OpResult := readSelected Endpoint.epbcnt s

/-- R210: the whole word, in one step. -/
def rdEngstatus (s : State) : OpResult := .ok { s with rdData := engstatus s }

/-- A write to a read-only register, an unimplemented register number, an access of the wrong width (R211, 20_memory.md
R82): tested before the endpoint selection (log 14). -/
def badRegister (_ : State) : OpResult := .error .badRegister

/-! ### Reception of tokens (40_bus_transactions.md R141, R142) -/

/-- The endpoint that handles a token: the device is attached, the address is the active one, the endpoint exists, is
enabled and allocated. -/
def receives (s : State) (a : DevAddr) (n : EpNum) : Option Endpoint :=
  if s.dev.detach || a != s.dev.activeAddr then none
  else
    match s.eps[n.toNat]? with
    | none => none
    | some e => if e.epen && e.cfgok then some e else none

/-- Endpoint `n` becomes `e`. -/
def setEp (n : EpNum) (e : Endpoint) (s : State) : State := { s with eps := s.eps.set n.toNat e }

/-- The 8 data bytes of a SETUP as the bank holds them (20_memory.md R84). -/
def Packet8.bytes (d : Packet8) : List Byte := [d.d0, d.d1, d.d2, d.d3, d.d4, d.d5, d.d6, d.d7]

/-- A SETUP on a control endpoint (R143). -/
def Endpoint.receiveSetup (d : Packet8) (e : Endpoint) : Endpoint :=
  { e with
    banks := (e.banks.map (fun _ => Bank.empty)).modify 0 (fun b => { b with data := Packet8.bytes d })
    fill := 0
    send := 0
    rxstpi := true
    stallrq := false
    toggle := true }

/-- An IN token is for this endpoint (R145). -/
def Endpoint.takesIn (e : Endpoint) : Bool := e.isControl || e.epdir

/-- The oldest committed bank, taken by the host (R145). -/
def Endpoint.sendBank (e : Endpoint) : Endpoint :=
  { e with
    toggle := !e.toggle
    banks := e.banks.modify e.send (fun _ => Bank.empty)
    send := (e.send + 1) % e.nbanks }

/-- The answer to an IN token and the endpoint after it (R145). -/
def Endpoint.answerIn (e : Endpoint) : Answer × Endpoint :=
  if e.stallrq then (.stall, e)
  else
    match e.banks[e.send]? with
    | some b => if b.committed then (.data e.toggle b.data, e.sendBank) else (.nak, e)
    | none => (.nak, e)

/-- An OUT token is for this endpoint (R147). -/
def Endpoint.takesOut (e : Endpoint) : Bool := e.isControl || !e.epdir

/-- The OUT is answered NAK (R147). "Free of received data" is read as holding no byte (log 13). -/
def Endpoint.outBusy (e : Endpoint) : Bool :=
  if e.isControl then
    e.rxstpi || e.rxouti || (match e.banks[0]? with | some b => b.committed | none => false)
  else !e.banks.any (fun b => b.data.isEmpty)

/-- An accepted OUT packet (R147). -/
def Endpoint.receiveOut (d : List Byte) (e : Endpoint) : Endpoint :=
  { e.setCurrent d with rxouti := true, toggle := !e.toggle }

/-- The answer to an OUT token, `none` for none, and the endpoint after it (R147). -/
def Endpoint.answerOut (d : List Byte) (e : Endpoint) : Option Answer × Endpoint :=
  if e.stallrq then (some .stall, e)
  else if e.size < d.length then (none, e)
  else if e.outBusy then (some .nak, e)
  else (some .ack, e.receiveOut d)

/-! ### Bank-ready (R158) -/

/-- The condition of `TXREADY` on this endpoint. -/
def Endpoint.txEnabled (e : Endpoint) : Bool :=
  e.epen && e.cfgok && !e.txini && !e.rxstpi
    && (match e.banks[e.fill]? with | some b => !b.committed | none => false)
    && (if e.isControl then !e.rxouti else e.epdir)

/-- The effect of `TXREADY` on this endpoint. -/
def Endpoint.txReady (e : Endpoint) : Endpoint := { e with txini := true }.setCurrent []

/-- `TXREADY n` is enabled. -/
def txEnabled (s : State) (n : Nat) : Bool :=
  match s.eps[n]? with
  | some e => e.txEnabled
  | none => false

end Sys2Proof.Machine
end

