-- ==== Sys2Proof/Machine/Sequencer.lean ====
section
/-! DEFINITION. The engine's microprogram, one microstate per step: initialisation (70_reset_and_hazards.md R412, R413),
the bus-event handlers (60_exceptions.md R382, R385), handler entry (R378), the parsing part of the SETUP handler
(44_control_sequencer.md R292 to R295) and the microstates of the requests (R300 to R322). -/

namespace Sys2Proof.Machine

/-! ### Holds (44_control_sequencer.md R322, R324) -/

/-- `wait until ep[0].TXINI = 1`, the `RD EPINT` that sees it, then `k`. While `TXINI` is 0 the engine has no step. -/
def waitReady (s : State) (k : State → State) : Result :=
  if bankReady s then finish s ((rdEpint s).map k) else .next s

/-! ### Initialisation -/

/-- `INIT_LOCK` (R412, R413): a hold lifted by lock or failure; failure raises `PLL_LOCK_FAIL`. -/
def initLockStep (s : State) : Result :=
  if s.dev.pllFail then .next (raise .pllLockFail s)
  else if s.dev.pllLock then thenGo s (rdPllctl s) .initCfgSel
  else .next s

/-- `INIT_ATTACH` (R412): attach, then `IDLE`. -/
def initAttachStep (s : State) : Result := finish s ((wrDevctl 0x00 s).map returnIdle)

/-! ### Bus-event handlers -/

/-- `BR_CLR` (60_exceptions.md R382). -/
def brClrStep (s : State) : Result := thenGo s (wrDevint 0xFD s) .brCfgSel

/-- `BR_STATE` (R382): the enumeration state to (`Default`, 0, 0), and the return. DESIGN CHOICE (log 26): it writes no
device address, so the address of a late `SA_APPLY` stays (see `saApplyStep`). -/
def brStateStep (s : State) : Result := .next (returnIdle { s with enum := ⟨.default, 0, 0⟩ })

/-- `SOF_CLR` (R385). -/
def sofClrStep (s : State) : Result := finish s ((wrDevint 0xFE s).map returnIdle)

/-! ### Parsing -/

/-- `S_SEL` (R292). -/
def sSelStep (s : State) : Result := thenGo s (wrEpsel 0x00 s) (.sRd 0)

/-- The microstate after `S_RD<k>` (R293). -/
def afterRead (k : Fin 8) : Seq := if h : k.val + 1 < 8 then .sRd ⟨k.val + 1, h⟩ else .sAck

/-- Store the byte just read, and go on (R293). -/
def storeRead (k : Fin 8) (s : State) : State :=
  { s with latch := s.latch.store k (s.rdData.setWidth 8), seq := afterRead k }

/-- `S_RD<k>` (R293). -/
def sRdStep (k : Fin 8) (s : State) : Result := finish s ((rdEpdata s).map (storeRead k))

/-- `S_ACK` (R294). -/
def sAckStep (s : State) : Result := thenGo s (wrEpint 0xF2 s) .sDispatch

/-- The first microstate of each row (R295). -/
def dispatchTarget (i : RequestKind) : Seq :=
  match i with
  | .getDescriptor => .gdLookup
  | .setAddress => .saSet
  | .setConfiguration => .scStore
  | .getConfiguration => .gcLoad
  | .getStatus => .gsLoad
  | .stallOther => .stall

/-! ### The requests' microstates. `q` holds the request's fields -/

/-- `GD_LOOKUP` (R300, R301). -/
def gdLookupStep (q : SetupLatch) (s : State) : Result :=
  match lookup s.cfg (dtypeOf q.wValue) (dindexOf q.wValue) with
  | none => .next (goto .stall s)
  | some (off, dlen) =>
    let n := descriptorLength q.wLength dlen
    .next { s with
      work := { s.work with remaining := n, region := .rom, offset := BitVec.ofNat 16 off }
      seq := if n = 0 then .ret else .strWait }

/-- `SA_SET` (R303). -/
def saSetStep (q : SetupLatch) (s : State) : Result :=
  .next { s with work := { s.work with pendingAddr := addrOf q.wValue }, seq := .saZw }

/-- `SA_APPLY` (R304): the address register, the applied address and the state in one step. -/
def applyAddress (s : State) : State :=
  { s with enum := { s.enum with assignedAddr := s.work.pendingAddr, devState := .addressed }, seq := .ret }

/-- `SA_APPLY` (R304). DESIGN CHOICE (log 26): it acts so also when a bus reset came after `SA_WAIT`. The address is then
applied again after R150 has cleared it and outlives R382's handler, against the last invariant of 45_enumeration.md R358;
no rule decides, and the model follows the steps of R150, R304 and R382. -/
def saApplyStep (s : State) : Result :=
  finish s ((wrDevaddr (0x80 ||| s.work.pendingAddr.setWidth 8) s).map applyAddress)

/-- `SC_STORE` (R306): the value and the state in one step; the state of value 0 depends on the `ADDEN` bit read. -/
def storeConfig (cfg : Byte) (s : State) : State :=
  { s with
    enum := { s.enum with
      configValue := cfg
      devState := if cfg ≠ 0 then .configured else if s.rdData.getLsbD 7 then .addressed else .default }
    seq := .scZw }

/-- `SC_STORE` (R306). -/
def scStoreStep (q : SetupLatch) (s : State) : Result := finish s ((rdDevaddr s).map (storeConfig (cfgOf q.wValue)))

/-- `SC_ZC` (R306). -/
def scZcStep (q : SetupLatch) (s : State) : Result :=
  thenGo s (wrEpint 0xFE s) (if cfgOf q.wValue ≠ 0 then .scCfgSel else .ret)

/-- `GC_LOAD` (R309). -/
def gcLoadStep (s : State) : Result :=
  .next { s with
    work := { s.work with reply0 := s.enum.configValue, region := .reply, offset := 0, remaining := 1 }
    seq := .strWait }

/-- `GS_LOAD` (R311). -/
def gsLoadStep (s : State) : Result :=
  .next { s with
    work := { s.work with reply0 := 0, reply1 := 0, region := .reply, offset := 0, remaining := 2 }
    seq := .strWait }

/-- The chunk's size, and its first byte next (R320). -/
def startPacket (s : State) : State :=
  { s with work := { s.work with packet := packetSize s.work.remaining, i := 0 }, seq := .strWrite }

/-- `STR_WAIT` (R320). -/
def strWaitStep (s : State) : Result := waitReady s startPacket

/-- `byte(src + i)` (R320): a ROM byte or a reply byte. No byte beyond either exists (log 11). -/
def streamByte (s : State) : Except Fault Byte :=
  let k := (s.work.offset + s.work.i.setWidth 16).toNat
  match s.work.region with
  | .rom =>
    match romRead s k with
    | some b => .ok b
    | none => .error .romAddress
  | .reply => if k = 0 then .ok s.work.reply0 else if k = 1 then .ok s.work.reply1 else .error .replyIndex

/-- The byte is written: `i <- i + 1`, and the next byte or the commit (R320). -/
def advanceByte (s : State) : State :=
  { s with
    work := { s.work with i := s.work.i + 1 }
    seq := if s.work.i + 1 < s.work.packet then .strWrite else .strCommit }

/-- `STR_WRITE` (R320). -/
def strWriteStep (s : State) : Result :=
  match streamByte s with
  | .ok b => finish s ((wrEpdata b s).map advanceByte)
  | .error f => .fault f

/-- The packet is committed: `src` and `remaining` move on (R320). -/
def advancePacket (s : State) : State :=
  let n := s.work.remaining - s.work.packet.setWidth 16
  { s with
    work := { s.work with offset := s.work.offset + s.work.packet.setWidth 16, remaining := n }
    seq := if n = 0 then .ret else .strWait }

/-- `STR_COMMIT` (R320). -/
def strCommitStep (s : State) : Result := finish s ((wrEpint 0xFE s).map advancePacket)

/-! ### The microprogram -/

/-- A microstate of the dispatched request: from `S_DISPATCH` to `RETURN` (R290). -/
def Seq.inRequest : Seq → Bool
  | .sDispatch | .gdLookup | .saSet | .saZw | .saZc | .saWait | .saApply | .scStore | .scZw | .scZc | .scCfgSel
  | .scCfgEn | .scCfgType | .scCfgAlloc | .scCfgIen | .scTog | .gcLoad | .gsLoad | .strWait | .strWrite | .strCommit
  | .stall | .ret => true
  | .idle | .halted | .initPll | .initLock | .initCfgSel | .initCfgEn | .initCfgType | .initCfgAlloc | .initCfgIen
  | .initIen | .initAttach | .brClr | .brCfgSel | .brCfgEn | .brCfgType | .brCfgAlloc | .brCfgIen | .brState | .sofClr
  | .sSel | .sRd _ | .sAck => false

/-- The rule of the microstate `seq` names (10_state.md R22): "It advances only as the rule of the microstate it names
says". DESIGN CHOICE (log 28): so too after a bus reset inside the SETUP handler (R298). A late `STALL` (R316) then leaves
endpoint 0 stalled after the bus-reset handler, and late `SC_CFG_*` steps (R307) leave endpoint 3 enabled, against the
words of 43_endpoint_config.md R273 and 60_exceptions.md R383; no rule decides. -/
def microstep (q : SetupLatch) (s : State) : Result :=
  match s.seq with
  | .idle => .next s
  | .halted => .next s
  | .initPll => thenGo s (wrPllctl 0x01 s) .initLock
  | .initLock => initLockStep s
  | .initCfgSel => thenGo s (wrEpsel 0x00 s) .initCfgEn
  | .initCfgEn => thenGo s (wrEpctl 0x01 s) .initCfgType
  | .initCfgType => thenGo s (wrEpcfg0 0x00 s) .initCfgAlloc
  | .initCfgAlloc => thenGo s (wrEpcfg1 0x22 s) .initCfgIen
  | .initCfgIen => thenGo s (wrEpinten 0x08 s) .initIen
  | .initIen => thenGo s (wrDevinten 0x03 s) .initAttach
  | .initAttach => initAttachStep s
  | .brClr => brClrStep s
  | .brCfgSel => thenGo s (wrEpsel 0x00 s) .brCfgEn
  | .brCfgEn => thenGo s (wrEpctl 0x01 s) .brCfgType
  | .brCfgType => thenGo s (wrEpcfg0 0x00 s) .brCfgAlloc
  | .brCfgAlloc => thenGo s (wrEpcfg1 0x22 s) .brCfgIen
  | .brCfgIen => thenGo s (wrEpinten 0x08 s) .brState
  | .brState => brStateStep s
  | .sofClr => sofClrStep s
  | .sSel => sSelStep s
  | .sRd k => sRdStep k s
  | .sAck => sAckStep s
  | .sDispatch => .next (goto (dispatchTarget (requestKind (half q.bRequest q.bmRequestType))) s)
  | .gdLookup => gdLookupStep q s
  | .saSet => saSetStep q s
  | .saZw => waitReady s (goto .saZc)
  | .saZc => thenGo s (wrEpint 0xFE s) .saWait
  | .saWait => waitReady s (goto .saApply)
  | .saApply => saApplyStep s
  | .scStore => scStoreStep q s
  | .scZw => waitReady s (goto .scZc)
  | .scZc => scZcStep q s
  | .scCfgSel => thenGo s (wrEpsel 0x03 s) .scCfgEn
  | .scCfgEn => thenGo s (wrEpctl 0x01 s) .scCfgType
  | .scCfgType => thenGo s (wrEpcfg0 0xC1 s) .scCfgAlloc
  | .scCfgAlloc => thenGo s (wrEpcfg1 0x06 s) .scCfgIen
  | .scCfgIen => thenGo s (wrEpinten 0x00 s) .scTog
  | .scTog => thenGo s (wrEptogrst 0xFF s) .ret
  | .gcLoad => gcLoadStep s
  | .gsLoad => gsLoadStep s
  | .strWait => strWaitStep s
  | .strWrite => strWriteStep s
  | .strCommit => strCommitStep s
  | .stall => thenGo s (wrEpctl 0x03 s) .ret
  | .ret => .next (returnIdle s)

/-- Handler entry and priority (60_exceptions.md R378): the context, and the handler's first microstate, in one step. -/
def handlerEntry (s : State) : Result :=
  if busResetPending s then brClrStep { s with ctx := .busReset }
  else if sofPending s then sofClrStep { s with ctx := .busSof }
  else if setupPending s then sSelStep { s with ctx := .setup }
  else .next s

/-- The engine is running a dispatched request: a handler is active and its microstate belongs to the request. -/
def requestRuns (s : State) : Bool := s.ctx != .halted && s.ctx != .idle && s.seq.inRequest

/-- An engine step outside a dispatched request: none after a fault (R373), handler entry at `IDLE` (R378), else the
microstate's (log 18). -/
def engineStep (s : State) : Result :=
  match s.ctx with
  | .halted => .next s
  | .idle => handlerEntry s
  | .init | .busReset | .busSof | .setup => microstep s.latch s

/-- The engine's next step of a request whose fields are `q`: from `S_DISPATCH` to the first microstate of its row
(R295), from any other microstate as its rule says. A request acts in no other way (log 21). -/
def requestStep (first : Seq) (q : SetupLatch) (s : State) : Result :=
  if requestRuns s then
    if s.seq = .sDispatch then .next (goto first s) else microstep q s
  else .next s

end Sys2Proof.Machine
end

