-- ==== Sys2Proof/Machine/BusEvents.lean ====
section
/-! DEFINITION. The bus events (40_bus_transactions.md): each is one atomic step of its agent with the controller's
response (R140). An event that is not enabled does not occur: the state stays as it is (log 7). -/

namespace Sys2Proof.Machine

/-- `SETUP a.e d0..d7` (R143). Accepted while the SETUP handler runs, it also raises `SETUP_DURING_TRANSFER`
(44_control_sequencer.md R299); its controller effect stays. -/
def execSetup (a : DevAddr) (e : EpNum) (d : Packet8) (s : State) : Result :=
  match receives s a e with
  | none => .next s
  | some ep =>
    if ep.isControl then
      let t := sees .ack (setEp e (ep.receiveSetup d) s)
      .next (if s.ctx = .setup then raise .setupDuringTransfer t else t)
    else .next s

/-- `IN a.e` (R145). -/
def execIn (a : DevAddr) (e : EpNum) (s : State) : Result :=
  match receives s a e with
  | none => .next s
  | some ep =>
    if ep.takesIn then .next (sees ep.answerIn.1 (setEp e ep.answerIn.2 s)) else .next s

/-- `OUT a.e d[0..n-1]` (R147). -/
def execOut (a : DevAddr) (e : EpNum) (d : List Byte) (s : State) : Result :=
  match receives s a e with
  | none => .next s
  | some ep =>
    if ep.takesOut then
      match ep.answerOut d with
      | (none, _) => .next s
      | (some x, ep') => .next (sees x (setEp e ep' s))
    else .next s

/-- `BUS_RESET` (R150, R153): the controller's part; the engine's part is the bus-reset handler. -/
def execBusReset (s : State) : Result :=
  if s.dev.detach then .next s
  else
    .next { s with
      dev := { s.dev with uadd := 0, adden := false, eorsti := true }
      eps := s.eps.map Endpoint.busReset }

/-- `SOF` (R152, R153). -/
def execSof (s : State) : Result :=
  if s.dev.detach then .next s else .next { s with dev := { s.dev with sofi := true } }

/-- The PLL events are enabled (R156, R157). -/
def pllPending (s : State) : Bool := s.dev.pllEn && !s.dev.pllLock && !s.dev.pllFail

/-- `PLL_LOCKED` (R156). -/
def execPllLocked (s : State) : Result :=
  if pllPending s then .next { s with dev := { s.dev with pllLock := true } } else .next s

/-- `PLL_FAIL` (R157). -/
def execPllFail (s : State) : Result :=
  if pllPending s then .next { s with dev := { s.dev with pllFail := true } } else .next s

/-- `TXREADY n` (R158). -/
def execTxready (n : EpNum) (s : State) : Result :=
  match s.eps[n.toNat]? with
  | none => .next s
  | some e => if e.txEnabled then .next (setEp n e.txReady s) else .next s

/-- `STATUS_READ` by the main loop (41_register_interface.md R210). -/
def execStatusRead (s : State) : Result := .next { s with mainData := engstatus s }

end Sys2Proof.Machine
end

