-- ==== Sys2Proof/Machine/DeviceRegs.lean ====
section
/-! DEFINITION. The operations on the device-level registers, on `ENGSTATUS` and on no register
(41_register_interface.md R181 to R194, R210, R211). Each is one atomic engine step (R180). -/

namespace Sys2Proof.Machine

/-- `RD PLLCTL` (R182). -/
def execRdPllctl (s : State) : Result := engineOp rdPllctl s

/-- `WR PLLCTL, v` (R181). -/
def execWrPllctl (v : Byte) (s : State) : Result := engineOp (wrPllctl v) s

/-- `RD DEVCTL` (R184). -/
def execRdDevctl (s : State) : Result := engineOp rdDevctl s

/-- `WR DEVCTL, v` (R183). -/
def execWrDevctl (v : Byte) (s : State) : Result := engineOp (wrDevctl v) s

/-- `RD DEVINT` (R186). -/
def execRdDevint (s : State) : Result := engineOp rdDevint s

/-- `WR DEVINT, v` (R185). -/
def execWrDevint (v : Byte) (s : State) : Result := engineOp (wrDevint v) s

/-- `RD DEVINTEN` (R188). -/
def execRdDevinten (s : State) : Result := engineOp rdDevinten s

/-- `WR DEVINTEN, v` (R187). -/
def execWrDevinten (v : Byte) (s : State) : Result := engineOp (wrDevinten v) s

/-- `RD DEVADDR` (R190). -/
def execRdDevaddr (s : State) : Result := engineOp rdDevaddr s

/-- `WR DEVADDR, v` (R189). -/
def execWrDevaddr (v : Byte) (s : State) : Result := engineOp (wrDevaddr v) s

/-- `RD EPTOGRST` (R192). -/
def execRdEptogrst (s : State) : Result := engineOp rdEptogrst s

/-- `WR EPTOGRST, v` (R191). -/
def execWrEptogrst (v : Byte) (s : State) : Result := engineOp (wrEptogrst v) s

/-- `RD EPSEL` (R194). -/
def execRdEpsel (s : State) : Result := engineOp rdEpsel s

/-- `WR EPSEL, v` (R193). -/
def execWrEpsel (v : Byte) (s : State) : Result := engineOp (wrEpsel v) s

/-- `RD ENGSTATUS` (R210): any agent may perform it at any step, so also after a fault. -/
def execRdEngstatus (s : State) : Result := finish s (rdEngstatus s)

/-- `WR ENGSTATUS` is illegal and raises `BAD_REGISTER` (R211). -/
def execWrEngstatus (s : State) : Result := engineOp badRegister s

/-- Any other operation word, and a 32-bit access to an 8-bit register, raise `BAD_REGISTER` (R82, R109, R211). -/
def execOtherRegOp (_word : Half) (_wide : Bool) (s : State) : Result := engineOp badRegister s

end Sys2Proof.Machine
end

