-- ==== Sys2Proof/Machine/EndpointRegs.lean ====
section
/-! DEFINITION. The operations on the per-endpoint registers, which act on the endpoint `EPSEL` names
(41_register_interface.md R195 to R209, R211). Each is one atomic engine step (R180). -/

namespace Sys2Proof.Machine

/-- `RD EPCTL` (R197). -/
def execRdEpctl (s : State) : Result := engineOp rdEpctl s

/-- `WR EPCTL, v` (R196). -/
def execWrEpctl (v : Byte) (s : State) : Result := engineOp (wrEpctl v) s

/-- `RD EPCFG0` (R199). -/
def execRdEpcfg0 (s : State) : Result := engineOp rdEpcfg0 s

/-- `WR EPCFG0, v` (R198). -/
def execWrEpcfg0 (v : Byte) (s : State) : Result := engineOp (wrEpcfg0 v) s

/-- `RD EPCFG1` (R201). -/
def execRdEpcfg1 (s : State) : Result := engineOp rdEpcfg1 s

/-- `WR EPCFG1, v` (R200). -/
def execWrEpcfg1 (v : Byte) (s : State) : Result := engineOp (wrEpcfg1 v) s

/-- `RD EPSTA` (R202). -/
def execRdEpsta (s : State) : Result := engineOp rdEpsta s

/-- `WR EPSTA` is illegal and raises `BAD_REGISTER` (R211). -/
def execWrEpsta (s : State) : Result := engineOp badRegister s

/-- `RD EPINT` (R204). -/
def execRdEpint (s : State) : Result := engineOp rdEpint s

/-- `WR EPINT, v` (R203). -/
def execWrEpint (v : Byte) (s : State) : Result := engineOp (wrEpint v) s

/-- `RD EPINTEN` (R206). -/
def execRdEpinten (s : State) : Result := engineOp rdEpinten s

/-- `WR EPINTEN, v` (R205). -/
def execWrEpinten (v : Byte) (s : State) : Result := engineOp (wrEpinten v) s

/-- `RD EPDATA` (R207). -/
def execRdEpdata (s : State) : Result := engineOp rdEpdata s

/-- `WR EPDATA, v` (R208). -/
def execWrEpdata (v : Byte) (s : State) : Result := engineOp (wrEpdata v) s

/-- `RD EPBCNT` (R209). -/
def execRdEpbcnt (s : State) : Result := engineOp rdEpbcnt s

/-- `WR EPBCNT` is illegal and raises `BAD_REGISTER` (R211). -/
def execWrEpbcnt (s : State) : Result := engineOp badRegister s

end Sys2Proof.Machine
end

