-- ==== Sys2Proof/Machine/Requests.lean ====
section
/-! DEFINITION. The six requests (44_control_sequencer.md R300 to R316). A request is a microprogram of the SETUP handler:
its meaning is the engine's next step of it, so that a whole request is that many executions of its meaning, with other
agents' steps between them (R290, 92_eei_decisions.md D35). -/

namespace Sys2Proof.Machine

/-- GET_DESCRIPTOR (R300 to R302, R320): `GD_LOOKUP`, then the stream, or `STALL` for an unknown type. -/
def execGetDescriptor (wValue wIndex wLength : Half) (s : State) : Result :=
  requestStep .gdLookup ⟨0x80, 0x06, wValue, wIndex, wLength⟩ s

/-- SET_ADDRESS (R303 to R305): `SA_SET`, the zero-length status IN, the wait for it, `SA_APPLY`. -/
def execSetAddress (wValue wIndex wLength : Half) (s : State) : Result :=
  requestStep .saSet ⟨0x00, 0x05, wValue, wIndex, wLength⟩ s

/-- SET_CONFIGURATION (R306 to R308): `SC_STORE`, the zero-length status IN, endpoint 3 and the toggles if nonzero. -/
def execSetConfiguration (wValue wIndex wLength : Half) (s : State) : Result :=
  requestStep .scStore ⟨0x00, 0x09, wValue, wIndex, wLength⟩ s

/-- GET_CONFIGURATION (R309): one byte, the configuration value. -/
def execGetConfiguration (wValue wIndex wLength : Half) (s : State) : Result :=
  requestStep .gcLoad ⟨0x80, 0x08, wValue, wIndex, wLength⟩ s

/-- GET_STATUS (R311, R312): two zero bytes, for any `bmRequestType`. -/
def execGetStatus (bmRequestType : Byte) (wValue wIndex wLength : Half) (s : State) : Result :=
  requestStep .gsLoad ⟨bmRequestType, 0x00, wValue, wIndex, wLength⟩ s

/-- Any other request stalls endpoint 0 (R313, R316). -/
def execStallOther (bmRequestType bRequest : Byte) (wValue wIndex wLength : Half) (s : State) : Result :=
  requestStep .stall ⟨bmRequestType, bRequest, wValue, wIndex, wLength⟩ s

end Sys2Proof.Machine
end

