-- ==== Sys2Proof/Machine/Dispatch.lean ====
section
/-! DEFINITION. One arm per instruction: the meaning it calls. -/

namespace Sys2Proof.Machine

/-- The meaning of an instruction in a state. -/
def exec (i : Instr) (s : State) : Host.Outcome State Fault Refusal :=
  match i with
  | .getDescriptor wValue wIndex wLength => Sys2Proof.Machine.execGetDescriptor wValue wIndex wLength s
  | .setAddress wValue wIndex wLength => Sys2Proof.Machine.execSetAddress wValue wIndex wLength s
  | .setConfiguration wValue wIndex wLength => Sys2Proof.Machine.execSetConfiguration wValue wIndex wLength s
  | .getConfiguration wValue wIndex wLength => Sys2Proof.Machine.execGetConfiguration wValue wIndex wLength s
  | .getStatus bmRequestType wValue wIndex wLength => Sys2Proof.Machine.execGetStatus bmRequestType wValue wIndex wLength s
  | .stallOther bmRequestType bRequest wValue wIndex wLength => Sys2Proof.Machine.execStallOther bmRequestType bRequest wValue wIndex wLength s
  | .setup a e d => Sys2Proof.Machine.execSetup a e d s
  | .inToken a e => Sys2Proof.Machine.execIn a e s
  | .outToken a e data => Sys2Proof.Machine.execOut a e data s
  | .busReset => Sys2Proof.Machine.execBusReset s
  | .sof => Sys2Proof.Machine.execSof s
  | .pllLocked => Sys2Proof.Machine.execPllLocked s
  | .pllFail => Sys2Proof.Machine.execPllFail s
  | .txready n => Sys2Proof.Machine.execTxready n s
  | .statusRead => Sys2Proof.Machine.execStatusRead s
  | .rdPllctl => Sys2Proof.Machine.execRdPllctl s
  | .wrPllctl v => Sys2Proof.Machine.execWrPllctl v s
  | .rdDevctl => Sys2Proof.Machine.execRdDevctl s
  | .wrDevctl v => Sys2Proof.Machine.execWrDevctl v s
  | .rdDevint => Sys2Proof.Machine.execRdDevint s
  | .wrDevint v => Sys2Proof.Machine.execWrDevint v s
  | .rdDevinten => Sys2Proof.Machine.execRdDevinten s
  | .wrDevinten v => Sys2Proof.Machine.execWrDevinten v s
  | .rdDevaddr => Sys2Proof.Machine.execRdDevaddr s
  | .wrDevaddr v => Sys2Proof.Machine.execWrDevaddr v s
  | .rdEptogrst => Sys2Proof.Machine.execRdEptogrst s
  | .wrEptogrst v => Sys2Proof.Machine.execWrEptogrst v s
  | .rdEpsel => Sys2Proof.Machine.execRdEpsel s
  | .wrEpsel v => Sys2Proof.Machine.execWrEpsel v s
  | .rdEpctl => Sys2Proof.Machine.execRdEpctl s
  | .wrEpctl v => Sys2Proof.Machine.execWrEpctl v s
  | .rdEpcfg0 => Sys2Proof.Machine.execRdEpcfg0 s
  | .wrEpcfg0 v => Sys2Proof.Machine.execWrEpcfg0 v s
  | .rdEpcfg1 => Sys2Proof.Machine.execRdEpcfg1 s
  | .wrEpcfg1 v => Sys2Proof.Machine.execWrEpcfg1 v s
  | .rdEpsta => Sys2Proof.Machine.execRdEpsta s
  | .wrEpsta => Sys2Proof.Machine.execWrEpsta s
  | .rdEpint => Sys2Proof.Machine.execRdEpint s
  | .wrEpint v => Sys2Proof.Machine.execWrEpint v s
  | .rdEpinten => Sys2Proof.Machine.execRdEpinten s
  | .wrEpinten v => Sys2Proof.Machine.execWrEpinten v s
  | .rdEpdata => Sys2Proof.Machine.execRdEpdata s
  | .wrEpdata v => Sys2Proof.Machine.execWrEpdata v s
  | .rdEpbcnt => Sys2Proof.Machine.execRdEpbcnt s
  | .wrEpbcnt => Sys2Proof.Machine.execWrEpbcnt s
  | .rdEngstatus => Sys2Proof.Machine.execRdEngstatus s
  | .wrEngstatus => Sys2Proof.Machine.execWrEngstatus s
  | .otherRegOp word wide => Sys2Proof.Machine.execOtherRegOp word wide s

end Sys2Proof.Machine
end

