-- ==== Sys2Proof/Machine/Schedule.lean ====
section
/-! DEFINITION. Whose step is next (00_scope.md R10): the list `turns` says it; when it is empty the engine moves if it
has a step, else the controller takes `TXREADY` where it is enabled (log 3). -/

namespace Sys2Proof.Machine

/-- The engine has a step: none after a fault (60_exceptions.md R373), at `IDLE` only for a pending handler (R378), at a
hold only when it is lifted (44_control_sequencer.md R324, 70_reset_and_hazards.md R412). -/
def engineEnabled (s : State) : Bool :=
  match s.ctx with
  | .halted => false
  | .idle => busResetPending s || sofPending s || setupPending s
  | .init | .busReset | .busSof | .setup =>
    match s.seq with
    | .idle | .halted => false
    | .initLock => s.dev.pllLock || s.dev.pllFail
    | .saZw | .saWait | .scZw | .strWait => bankReady s
    | .initPll | .initCfgSel | .initCfgEn | .initCfgType | .initCfgAlloc | .initCfgIen | .initIen | .initAttach
    | .brClr | .brCfgSel | .brCfgEn | .brCfgType | .brCfgAlloc | .brCfgIen | .brState | .sofClr | .sSel | .sRd _ | .sAck
    | .sDispatch | .gdLookup | .saSet | .saZc | .saApply | .scStore | .scZc | .scCfgSel | .scCfgEn | .scCfgType
    | .scCfgAlloc | .scCfgIen | .scTog | .gcLoad | .gsLoad | .strWrite | .strCommit | .stall | .ret => true

/-- The lowest endpoint whose `TXREADY` is enabled. -/
def firstTxReady (s : State) : Option Nat := (List.range s.eps.length).find? (fun n => txEnabled s n)

/-- What the next step does. -/
inductive Action where
  /-- instruction `i` is executed in `s` -/
  | run (i : Instr) (s : State)
  /-- the engine takes a step outside a dispatched request -/
  | engine (s : State)
  /-- no agent has a step -/
  | quiet (s : State)
  /-- the next record is no instruction -/
  | reject (e : DecodeError)
  deriving DecidableEq, Repr

/-- The engine's turn: a dispatched request is the instruction it executes (30_encoding.md R104). -/
def engineAction (s : State) : Action := if requestRuns s then .run s.latch.request s else .engine s

/-- The turn of the agent that presents these bytes at a port. -/
def recordAction (p : Port) (bytes : List Byte) (s : State) : Action :=
  match decode p bytes with
  | .ok i _ => .run i s
  | .reject e => .reject e

/-- Who moves. A turn is used up by its step. -/
def nextAction (s : State) : Action :=
  match s.turns with
  | .engine :: ts => engineAction { s with turns := ts }
  | .bus bytes :: ts => recordAction .bus bytes { s with turns := ts }
  | .reg bytes :: ts => recordAction .reg bytes { s with turns := ts }
  | .reg32 bytes :: ts => recordAction .reg32 bytes { s with turns := ts }
  | [] =>
    if engineEnabled s then engineAction s
    else
      match firstTxReady s with
      | some n => .run (.txready (BitVec.ofNat 4 n)) s
      | none => .quiet s

/-- The SETUP latch a request's 8 bytes give (30_encoding.md R100, R101). -/
def latchOf : List Byte → SetupLatch
  | b0 :: b1 :: b2 :: b3 :: b4 :: b5 :: b6 :: b7 :: _ => ⟨b0, b1, half b3 b2, half b5 b4, half b7 b6⟩
  | _ => ⟨0, 0, 0, 0, 0⟩

/-- Bytes placed where the next step finds its instruction (log 6): a record at the head of `turns`, or, for a request,
the SETUP latch with the engine at `S_DISPATCH` and its turn next. -/
def placeBytes (p : Port) (bytes : List Byte) (s : State) : State :=
  match p with
  | .bus => { s with turns := .bus bytes :: s.turns }
  | .reg => { s with turns := .reg bytes :: s.turns }
  | .reg32 => { s with turns := .reg32 bytes :: s.turns }
  | .setup =>
    { s with latch := latchOf bytes, ctx := .setup, seq := .sDispatch, turns := .engine :: s.turns }

end Sys2Proof.Machine
end

