-- ==== Sys2Proof/Machine/Step.lean ====
section
/-! DEFINITION. One step of the block: one atomic transition of one agent (00_scope.md R10, 20_memory.md R91). -/

namespace Sys2Proof.Machine

/-- One step. -/
def step (s : State) : Host.Outcome State Fault Refusal :=
  match nextAction s with
  | .run i t => exec i t
  | .engine t => engineStep t
  | .quiet t => .next t
  | .reject e => .refused (.malformed e)

/-- `s` with a table word placed where the next step takes its instruction (log 6). -/
def State.withFetchWord (s : State) (nbits w : Nat) : State := placeBytes (tablePort nbits w) (tableBytes nbits w) s

end Sys2Proof.Machine
end

