-- ==== Sys2Proof/Safety.lean ====
section
/-! DEFINITION. What counts as a well-formed state and as a safe run, in the terms the claims use. -/

namespace Sys2Proof

/-- The request rows of the opcode table (30_encoding.md R104). -/
def Instr.isRequest : Instr → Bool
  | .getDescriptor _ _ _ | .setAddress _ _ _ | .setConfiguration _ _ _ | .getConfiguration _ _ _ | .getStatus _ _ _ _
  | .stallOther _ _ _ _ _ => true
  | .setup _ _ _ | .inToken _ _ | .outToken _ _ _ | .busReset | .sof | .pllLocked | .pllFail | .txready _
  | .statusRead | .rdPllctl | .wrPllctl _ | .rdDevctl | .wrDevctl _ | .rdDevint | .wrDevint _ | .rdDevinten
  | .wrDevinten _ | .rdDevaddr | .wrDevaddr _ | .rdEptogrst | .wrEptogrst _ | .rdEpsel | .wrEpsel _ | .rdEpctl
  | .wrEpctl _ | .rdEpcfg0 | .wrEpcfg0 _ | .rdEpcfg1 | .wrEpcfg1 _ | .rdEpsta | .wrEpsta | .rdEpint | .wrEpint _
  | .rdEpinten | .wrEpinten _ | .rdEpdata | .wrEpdata _ | .rdEpbcnt | .wrEpbcnt | .rdEngstatus | .wrEngstatus
  | .otherRegOp _ _ => false

end Sys2Proof

namespace Sys2Proof.Machine

/-! ### Well-formed states: what every step of every agent keeps -/

/-- An endpoint is allocated exactly as `CFGOK` says (10_state.md R40, 41_register_interface.md R200): with it, enabled,
legal codes, as many banks as the bank code says, both indexes on a bank; without it, no banks; no bank over its size. -/
structure Endpoint.Wf (e : Endpoint) : Prop where
  allocated : e.cfgok = true → e.epen = true ∧ e.alloc = true ∧ e.epsize ≤ 3 ∧ e.epbk ≤ 1
    ∧ e.banks.length = e.nbanks ∧ e.fill < e.nbanks ∧ e.send < e.nbanks
  released : e.cfgok = false → e.banks = []
  bounded : ∀ b ∈ e.banks, b.data.length ≤ e.size

/-- The handler context a microstate belongs to (10_state.md R22, R23). -/
def Seq.context : Seq → Ctx
  | .idle => .idle
  | .halted => .halted
  | .initPll | .initLock | .initCfgSel | .initCfgEn | .initCfgType | .initCfgAlloc | .initCfgIen | .initIen
  | .initAttach => .init
  | .brClr | .brCfgSel | .brCfgEn | .brCfgType | .brCfgAlloc | .brCfgIen | .brState => .busReset
  | .sofClr => .busSof
  | .sSel | .sRd _ | .sAck | .sDispatch | .gdLookup | .saSet | .saZw | .saZc | .saWait | .saApply | .scStore | .scZw
  | .scZc | .scCfgSel | .scCfgEn | .scCfgType | .scCfgAlloc | .scCfgIen | .scTog | .gcLoad | .gsLoad | .strWait
  | .strWrite | .strCommit | .stall | .ret => .setup

/-- The fault record in rising code order, so that equal sets are equal lists (10_state.md R43). -/
def faultsRising : List FaultKind → Bool
  | [] => true
  | [_] => true
  | x :: y :: l => decide (x.code < y.code) && faultsRising (y :: l)

/-- A well-formed state. -/
structure State.Wf (s : State) : Prop where
  params : s.cfg.wf = true
  count : s.eps.length = s.cfg.numEp
  endpoints : ∀ e ∈ s.eps, e.Wf
  memory : Memory.wf s.cfg s.rom = true
  record : faultsRising s.faults = true
  context : s.ctx = s.seq.context
  halted : s.ctx = .halted ↔ s.faults ≠ []

/-! ### Runs of the engine's own microprogram -/

/-- A turn that does not put another program's operation in the engine's place (20_memory.md R82). -/
def Turn.isMicroprogram : Turn → Bool
  | .engine | .bus _ => true
  | .reg _ | .reg32 _ => false

/-- The faults the microprogram can raise (60_exceptions.md R375): codes 3, 7, 8 and 9. -/
def FaultKind.reachable : FaultKind → Bool
  | .noBank | .fifoConflict | .setupDuringTransfer | .pllLockFail => true
  | .badRegister | .badEndpoint | .fifoNotOwned | .fifoUnderrun | .fifoOverflow => false

/-- Microstates that act on endpoint 0 through `EPSEL` (44_control_sequencer.md R292, 43_endpoint_config.md R272). -/
def Seq.onEp0 : Seq → Bool
  | .initCfgEn | .initCfgType | .initCfgAlloc | .initCfgIen | .brCfgEn | .brCfgType | .brCfgAlloc | .brCfgIen | .sRd _
  | .sAck | .sDispatch | .gdLookup | .saSet | .saZw | .saZc | .saWait | .saApply | .scStore | .scZw | .scZc | .scCfgSel
  | .gcLoad | .gsLoad | .strWait | .strWrite | .strCommit | .stall => true
  | .idle | .halted | .initPll | .initLock | .initCfgSel | .initIen | .initAttach | .brClr | .brCfgSel | .brState
  | .sofClr | .sSel | .scCfgEn | .scCfgType | .scCfgAlloc | .scCfgIen | .scTog | .ret => false

/-- Microstates that act on endpoint 3 through `EPSEL` (43_endpoint_config.md R274). -/
def Seq.onEp3 (q : Seq) : Bool := q == .scCfgEn || q == .scCfgType || q == .scCfgAlloc || q == .scCfgIen

/-- The streaming engine's microstates (44_control_sequencer.md R320). -/
def Seq.streams (q : Seq) : Bool := q == .strWait || q == .strWrite || q == .strCommit

/-- How many bytes a stream can read from its region (20_memory.md R80, 10_state.md R21). -/
def Region.limit : Region → Nat
  | .rom => 52
  | .reply => 2

/-- The stream stays inside its source: what is left of it, the chunk, the byte index (44_control_sequencer.md R320). -/
structure StreamOk (q : Seq) (w : Work) : Prop where
  inside : q.streams = true → w.offset.toNat + w.remaining.toNat ≤ w.region.limit
  some_left : q.streams = true → w.remaining ≠ 0
  chunk : q = .strWrite ∨ q = .strCommit → w.packet = packetSize w.remaining
  index : q = .strWrite → w.i < w.packet

/-- What endpoint 0's bank holds while it is allocated, by microstate: unread SETUP bytes, bytes written so far, or
nothing (40_bus_transactions.md R143, R158; 44_control_sequencer.md R293, R320). -/
structure BankOk (q : Seq) (w : Work) (e : Endpoint) : Prop where
  owned : e.txini = true ∨ e.rxstpi = true → e.fillCommitted = false
  reading : ∀ k, q = .sRd k → e.rxstpi = true ∧ e.current.length + k.val = 8
  acked : q.inRequest = true → e.rxstpi = false
  unread : q.context ≠ .setup → e.rxstpi = true → e.current.length = 8
  writing : q = .strWrite → e.rxouti = true ∨ (e.txini = true ∧ e.current.length = w.i.toNat)
  clean : q ≠ .strWrite → q ≠ .strCommit → e.txini = true → e.rxstpi = false → e.rxouti = false → e.current = []

/-- What the microprogram keeps while it runs. -/
structure EngineOk (s : State) : Prop where
  parsed : s.seq ≠ .sSel
  selected : s.dev.epnum = 0 ∨ s.dev.epnum = 3
  onEp0 : s.seq.onEp0 = true → s.dev.epnum = 0
  onEp3 : s.seq.onEp3 = true → s.dev.epnum = 3
  keyboard : s.seq = .scCfgAlloc → ∀ e, s.eps[3]? = some e → e.eptype = 3
  others : ∀ n e, s.eps[n]? = some e → n ≠ 0 → e.cfgok = true → n = 3 ∧ e.eptype = 3
  control : ∀ e, s.eps[0]? = some e → e.eptype = 0 ∧ (e.cfgok = true → e.epsize = 2 ∧ e.epbk = 0)
  bank : ∀ e, s.eps[0]? = some e → e.cfgok = true → BankOk s.seq s.work e
  stream : StreamOk s.seq s.work

/-- The invariant of the engine's own microprogram: only the faults R375 allows, and the facts above until one is
raised. -/
structure State.MicroInv (s : State) : Prop where
  wf : s.Wf
  turns : ∀ t ∈ s.turns, t.isMicroprogram = true
  faults : ∀ k ∈ s.faults, k.reachable = true
  running : s.ctx ≠ .halted → EngineOk s

/-! ### The enumeration state (45_enumeration.md R358) -/

/-- A bus reset has occurred since the last bus-reset handler ran: it is flagged, or that handler is running. -/
def State.resetDue (s : State) : Bool := s.dev.eorsti || s.ctx == .busReset

/-- From the stored configuration value to endpoint 3's allocation (R355). -/
def Seq.configuring (q : Seq) : Bool :=
  q == .scZw || q == .scZc || q == .scCfgSel || q == .scCfgEn || q == .scCfgType || q == .scCfgAlloc

/-- The first three invariants of R358, with what they rest on between the engine's steps. -/
structure State.EnumOk (s : State) : Prop where
  power : s.ctx = .init → s.enum = ⟨.default, 0, 0⟩
  unconfigured : s.enum.devState = .default → s.enum.configValue = 0
  configured : s.enum.devState = .configured → s.enum.configValue ≠ 0
  storing : s.seq = .scZw ∨ s.seq = .scZc → s.enum.devState = .configured → cfgOf s.latch.wValue ≠ 0
  enabled : s.seq = .scCfgType ∨ s.seq = .scCfgAlloc → s.resetDue = false → ∃ e, s.eps[3]? = some e ∧ e.epen = true
  keyboard : s.enum.devState = .configured → s.ctx ≠ .halted → s.resetDue = false → s.seq.configuring = false →
    ∃ e, s.eps[3]? = some e ∧ e.cfgok = true
  addressed : s.enum.devState = .addressed → s.ctx ≠ .halted → s.resetDue = false → s.dev.adden = true

/-- The last invariant of R358, with what it rests on between the engine's steps. -/
structure State.AddressOk (s : State) : Prop where
  agrees : s.dev.adden = true → s.dev.uadd = s.enum.assignedAddr
  cleared : s.resetDue = true → s.dev.adden = false

/-! ### Words the claims use -/

/-- The endpoint `EPSEL` names (10_state.md R31). -/
def State.selected (s : State) : Option Endpoint := s.eps[s.dev.epnum.toNat]?

/-- `s` with that endpoint replaced. -/
def State.withSelected (s : State) (e : Endpoint) : State := { s with eps := s.eps.set s.dev.epnum.toNat e }

/-- `s` with endpoint 0 replaced. -/
def State.withEp0 (s : State) (e : Endpoint) : State := { s with eps := s.eps.set 0 e }

/-- A token `a.e` reaches an endpoint (40_bus_transactions.md R141, R142). -/
structure Reaches (s : State) (a : DevAddr) (n : EpNum) (e : Endpoint) : Prop where
  attached : s.dev.detach = false
  address : a = if s.dev.adden then s.dev.uadd else 0
  exists_ : s.eps[n.toNat]? = some e
  enabled : e.epen = true
  allocated : e.cfgok = true

/-- `n` executions of one instruction, each a step of its microprogram, with no other agent between them. -/
def runInstr (i : Instr) : Nat → State → Result
  | 0, s => .next s
  | n + 1, s =>
    match exec i s with
    | .next t => runInstr i n t
    | .fault f => .fault f
    | .refused r => .refused r

/-- It is the engine's turn: the schedule says so, or it is empty. -/
def State.engineTurn (s : State) : Prop := s.turns = [] ∨ ∃ ts, s.turns = .engine :: ts

/-- Endpoint 0 as the initialisation leaves it, before `TXREADY 0` (70_reset_and_hazards.md R414). -/
def ep0Initialised : Endpoint :=
  { Endpoint.reset with
    epen := true, epsize := 2, alloc := true, cfgok := true, rxstpe := true, banks := [⟨[], false⟩] }

/-- Endpoint 0 is the engine's to fill: allocated, bank-ready, nothing unread, the current bank empty and not committed
(20_memory.md R96). -/
structure Endpoint.Ready (e : Endpoint) : Prop where
  allocated : e.cfgok = true
  control : e.eptype = 0
  size32 : e.epsize = 2
  ready : e.txini = true
  noSetup : e.rxstpi = false
  noOut : e.rxouti = false
  bank : e.banks[e.fill]? = some ⟨[], false⟩

/-- The next `n` bytes of the stream's source (44_control_sequencer.md R320). -/
def sourceBytes (s : State) (n : Nat) : Option (List Byte) :=
  match s.work.region with
  | .rom => romReads s s.work.offset.toNat n
  | .reply =>
    if s.work.offset.toNat + n ≤ 2 then some (([s.work.reply0, s.work.reply1].drop s.work.offset.toNat).take n) else none

end Sys2Proof.Machine
end

