-- ==== Sys2Proof/Certificates/Slice0/Obligations.lean ====
section
/-! DEFINITION. The statements for the provers. Each docstring names the rule of spec/ it formalises, or says that the
statement rests on the model's own choice. -/

open Sys2Proof Sys2Proof.Machine

/-! ### Encoding -/

/-- 30_encoding.md R100, R107, R109: words written out from the spec's formats decode to what they stand for. -/
def Obligations.WrittenWordsDecode : Prop :=
  decode .setup [0x80, 0x06, 0x00, 0x01, 0x00, 0x00, 0x40, 0x00] = .ok (.getDescriptor 0x0100 0x0000 0x0040) [] ∧
  decode .setup [0x00, 0x05, 0x05, 0x00, 0x00, 0x00, 0x00, 0x00] = .ok (.setAddress 0x0005 0x0000 0x0000) [] ∧
  decode .setup [0x21, 0x0B, 0x00, 0x00, 0x00, 0x00, 0x00, 0x00] = .ok (.stallOther 0x21 0x0B 0x0000 0x0000 0x0000) [] ∧
  decode .bus [0x02, 0x05, 0x03] = .ok (.inToken 5 3) [] ∧
  decode .bus [0x08, 0x00] = .ok (.txready 0) [] ∧
  decode .reg [0x06, 0x80, 0x03] = .ok (.wrEpsel 0x03) [] ∧
  decode .reg [0x16, 0x00] = .ok .rdEpdata [] ∧
  decode .reg [0x06, 0x81] = .ok (.otherRegOp 0x8106 false) []

/-- Decode and encode agree: every well-formed instruction, with every operand at every value its encoding admits, and
whatever bytes follow it. Rests on the record layout of log 4. -/
def Obligations.DecodeEncode : Prop :=
  ∀ (i : Instr) (rest : List Byte), i.wf = true → decode (encode i).1 ((encode i).2 ++ rest) = .ok i rest

/-- What the decoder answers is well formed, and encoding it gives back the bytes it was read from, except for the one
word two ports accept (`RD ENGSTATUS`, log 4). -/
def Obligations.EncodeDecode : Prop :=
  ∀ (p : Port) (bs rest : List Byte) (i : Instr), decode p bs = .ok i rest →
    i.wf = true ∧ (encode i).2 ++ rest = bs ∧ ((encode i).1 = p ∨ (i = .rdEngstatus ∧ p = .reg32))

/-- 30_encoding.md R104: the key, the masks and matches of its table, and the first row that matches. -/
def Obligations.RequestRowSelected : Prop :=
  ∀ (bmRequestType bRequest : Byte) (wValue wIndex wLength : Half),
    let K : Half := bRequest ++ bmRequestType
    requestOf bmRequestType bRequest wValue wIndex wLength =
      if K &&& 0xFFFF = 0x0680 then .getDescriptor wValue wIndex wLength
      else if K &&& 0xFFFF = 0x0500 then .setAddress wValue wIndex wLength
      else if K &&& 0xFFFF = 0x0900 then .setConfiguration wValue wIndex wLength
      else if K &&& 0xFFFF = 0x0880 then .getConfiguration wValue wIndex wLength
      else if K &&& 0xFF00 = 0x0000 then .getStatus bmRequestType wValue wIndex wLength
      else .stallOther bmRequestType bRequest wValue wIndex wLength

/-- 30_encoding.md R109: an operation word with bits 14:8 not zero, or naming an unimplemented register number, is
illegal and raises `BAD_REGISTER`. The model's choice (log 4): so is every access on the 32-bit port but the `ENGSTATUS`
read. -/
def Obligations.IllegalWordsRaiseBadRegister : Prop :=
  ∀ (lo hi : Byte) (rest : List Byte) (s : State), s.ctx ≠ .halted →
    (hi &&& 0x7F ≠ 0 ∨ (0x06 < lo ∧ lo < 0x10) ∨ (0x17 < lo ∧ lo ≠ 0x20) →
      decode .reg (lo :: hi :: rest) = .ok (.otherRegOp (hi ++ lo) false) rest ∧
      exec (.otherRegOp (hi ++ lo) false) s = .next (raise .badRegister s)) ∧
    (¬(hi = 0x00 ∧ lo = 0x20) →
      decode .reg32 (lo :: hi :: rest) = .ok (.otherRegOp (hi ++ lo) true) rest ∧
      exec (.otherRegOp (hi ++ lo) true) s = .next (raise .badRegister s))

/-! ### The step -/

/-- A step runs the decoded instruction: when the head of the schedule is a record whose bytes decode to `i`, the step is
`exec i` with that record used up. A record whose bytes are no instruction is refused by name, as one with an event code
no agent emits (30_encoding.md R107). Rests on log 3 and log 4. -/
def Obligations.StepRunsRecord : Prop :=
  ∀ (s : State) (bs rest : List Byte) (ts : List Turn) (i : Instr),
    (s.turns = .bus bs :: ts → decode .bus bs = .ok i rest → step s = exec i { s with turns := ts }) ∧
    (s.turns = .reg bs :: ts → decode .reg bs = .ok i rest → step s = exec i { s with turns := ts }) ∧
    (s.turns = .reg32 bs :: ts → decode .reg32 bs = .ok i rest → step s = exec i { s with turns := ts }) ∧
    (∀ x, s.turns = .bus bs :: ts → decode .bus bs = .reject x → step s = .refused (.malformed x)) ∧
    (∀ c, c = 0 ∨ (0x0A : Byte) ≤ c → decode .bus (c :: bs) = .reject .unassignedEvent)

/-- In the engine's turn a dispatched request is the instruction executed (the latch decodes to it), and otherwise the
engine takes its own step. Rests on log 3. -/
def Obligations.EngineTurn : Prop :=
  ∀ (s : State) (ts : List Turn), s.turns = .engine :: ts →
    (requestRuns s = true → step s = exec (requestOf s.latch.bmRequestType s.latch.bRequest s.latch.wValue s.latch.wIndex
      s.latch.wLength) { s with turns := ts }) ∧
    (requestRuns s = false → step s = engineStep { s with turns := ts })

/-- The model's choice (log 3): with an empty schedule the engine moves if it has a step; else the controller's lowest
enabled `TXREADY`; else nothing changes. It is the choice of one step. -/
def Obligations.EmptySchedule : Prop :=
  ∀ (s : State), s.turns = [] → s.eps.length ≤ 16 →
    (engineEnabled s = true → step s = step { s with turns := [.engine] }) ∧
    (engineEnabled s = false → ∀ (n : Nat) (e : Endpoint), s.eps[n]? = some e → e.txEnabled = true →
      (∀ m e', m < n → s.eps[m]? = some e' → e'.txEnabled = false) →
      step s = .next { s with eps := s.eps.set n e.txReady }) ∧
    (engineEnabled s = false → (∀ e ∈ s.eps, e.txEnabled = false) → step s = .next s)

/-- 10_state.md R22: in every microstate of a request the instruction's meaning is the rule of that microstate. The
model's choice (log 21): outside a running handler's request microstates a request does nothing. -/
def Obligations.RequestFollowsMicroprogram : Prop :=
  (∀ (s : State), requestRuns s = true →
    exec (requestOf s.latch.bmRequestType s.latch.bRequest s.latch.wValue s.latch.wIndex s.latch.wLength) s
      = microstep s.latch s) ∧
  ∀ (i : Instr) (s : State), i.isRequest = true →
    (s.ctx = .halted ∨ s.ctx = .idle ∨ s.seq.inRequest = false) → exec i s = .next s

/-! ### Invariants -/

/-- Every step keeps a well-formed state: bank counts and sizes, indexes, the canonical fault record and ROM cells, the
handler context of the microstate, halted exactly when a fault is recorded. -/
def Obligations.StepKeepsWellFormed : Prop :=
  ∀ (s t : State), s.Wf → step s = .next t → t.Wf

/-- The power-on state is well formed, for every legal value of the open parameters. -/
def Obligations.ResetWellFormed : Prop :=
  ∀ (c : Config), c.wf = true → (State.resetWith c).Wf

/-- 60_exceptions.md R375: while only the engine's own microprogram drives the register interface, every step keeps an
invariant under which only the fault kinds 3, 7, 8 and 9 are recorded, and no step ends in a fault of the model. -/
def Obligations.MicroprogramInvariant : Prop :=
  ∀ (s : State), s.MicroInv →
    (∀ t, step s = .next t → t.MicroInv) ∧ (∀ f, step s ≠ .fault f)

/-- The microprogram's invariant holds at power-on, whatever the host and the environment will do. -/
def Obligations.ResetMicroprogram : Prop :=
  ∀ (c : Config) (ts : List Turn), c.wf = true → (∀ t ∈ ts, t.isMicroprogram = true) →
    State.MicroInv { State.resetWith c with turns := ts }

/-- 10_state.md R43: the fault record starts empty and no step removes a member. -/
def Obligations.FaultsNeverRemoved : Prop :=
  (∀ c, (State.resetWith c).faults = []) ∧
  ∀ (s t : State) (k : FaultKind), step s = .next t → k ∈ s.faults → k ∈ t.faults

/-- 60_exceptions.md R373: after a fault the engine takes no step; nothing leaves that state, and `ENGSTATUS` shows `HALTED`
and `FAULT`. The model's reading of R373 with 41_register_interface.md R180 (log 16, DEDUCED), on another program's turns
(log 17, DESIGN CHOICE): a register record, of either width, changes nothing but the value read, which R210 allows. -/
def Obligations.HaltedEngine : Prop :=
  ∀ (s t : State), s.Wf → s.ctx = .halted → step s = .next t →
    t.ctx = .halted ∧ t.seq = .halted ∧ t.latch = s.latch ∧ t.work = s.work ∧ t.enum = s.enum ∧
    (engstatus t).getLsbD 24 = true ∧ (engstatus t).getLsbD 25 = true ∧
    (∀ ts, s.turns = .engine :: ts → t = { s with turns := ts }) ∧
    (∀ bs ts, s.turns = .reg bs :: ts ∨ s.turns = .reg32 bs :: ts → t = { s with turns := ts, rdData := t.rdData })

/-- 45_enumeration.md R351: every write of `devState`, `assignedAddr` or `configValue` is one of the rows of its table,
in the engine step the row names; row 1 is the power-on state. -/
def Obligations.EnumerationTable : Prop :=
  (∀ c, (State.resetWith c).enum = ⟨.default, 0, 0⟩) ∧
  ∀ (s t : State), step s = .next t →
    t.enum = s.enum ∨
    (s.engineTurn ∧ s.seq = .brState ∧ t.enum = ⟨.default, 0, 0⟩) ∨
    (s.engineTurn ∧ s.seq = .saApply ∧ t.enum = ⟨.addressed, s.work.pendingAddr, s.enum.configValue⟩) ∨
    (s.engineTurn ∧ s.seq = .scStore ∧ t.enum =
      ⟨if s.latch.wValue.extractLsb' 0 8 ≠ 0 then .configured else if s.dev.adden then .addressed else .default,
        s.enum.assignedAddr, s.latch.wValue.extractLsb' 0 8⟩)

/-- 44_control_sequencer.md R305, 40_bus_transactions.md R150: the device address changes only at `SA_APPLY`, by a bus
reset, or by another program's operation (log 17). The model's choice (log 26): at `SA_APPLY` also after a bus reset. -/
def Obligations.AddressWriters : Prop :=
  ∀ (s t : State), step s = .next t → (t.dev.uadd ≠ s.dev.uadd ∨ t.dev.adden ≠ s.dev.adden) →
    (s.engineTurn ∧ s.seq = .saApply ∧ t.dev.uadd = s.work.pendingAddr ∧ t.dev.adden = true) ∨
    (∃ bs ts rest, s.turns = .bus bs :: ts ∧ decode .bus bs = .ok .busReset rest ∧ t.dev.uadd = 0 ∧ t.dev.adden = false) ∨
    (∃ bs ts v rest, s.turns = .reg bs :: ts ∧ decode .reg bs = .ok (.wrDevaddr v) rest)

/-- 20_memory.md R95: no step writes the ROM (nor the parameters that fix its image): every byte of it reads as before. -/
def Obligations.RomImmutable : Prop :=
  ∀ (s t : State), step s = .next t → t.cfg = s.cfg ∧ t.rom = s.rom ∧ ∀ a, romRead t a = romRead s a

/-- 40_bus_transactions.md R158: "It is the only step that sets `TXINI`". -/
def Obligations.OnlyTxreadySetsTxini : Prop :=
  ∀ (s t : State) (n : Nat) (e e' : Endpoint), step s = .next t → s.eps[n]? = some e → t.eps[n]? = some e' →
    e.txini = false → e'.txini = true → ∃ m u, nextAction s = .run (.txready m) u ∧ m.toNat = n

/-! ### Power-on -/

/-- 10_state.md R46 (70_reset_and_hazards.md R411): the value at power-on of every field of R20 to R45. -/
def Obligations.PowerOnValues : Prop :=
  ∀ (c : Config),
    let s : State := State.resetWith c
    s.latch = ⟨0, 0, 0, 0, 0⟩ ∧ s.work.offset = 0 ∧ s.work.remaining = 0 ∧ s.work.packet = 0 ∧ s.work.reply0 = 0 ∧
    s.work.reply1 = 0 ∧ s.work.pendingAddr = 0 ∧ s.seq = .initPll ∧ s.ctx = .init ∧ s.enum = ⟨.default, 0, 0⟩ ∧
    s.dev = { pllEn := false, pllLock := false, pllFail := false, detach := true, sofi := false, eorsti := false,
              sofe := false, eorste := false, uadd := 0, adden := false, epnum := 0 } ∧
    s.eps.length = c.numEp ∧
    (∀ e ∈ s.eps, e =
      { epen := false, stallrq := false, eptype := 0, epdir := false, epsize := 0, epbk := 0, alloc := false,
        cfgok := false, txini := false, rxouti := false, rxstpi := false, txine := false, rxoute := false,
        rxstpe := false, banks := [], fill := 0, send := 0, toggle := false }) ∧
    s.faults = [] ∧ engstatus s = 0

/-! ### Device-level register operations (41_register_interface.md) -/

/-- R181, R182, R183, R184, R187, R188. -/
def Obligations.PllctlDevctlDevintenOperations : Prop :=
  ∀ (s : State) (v : Byte), s.ctx ≠ .halted →
    exec (.wrPllctl v) s = .next { s with dev := { s.dev with
      pllEn := v.getLsbD 0, pllLock := if v.getLsbD 0 then s.dev.pllLock else false } } ∧
    exec .rdPllctl s = .next { s with
      rdData := BitVec.ofNat 32 (4 * s.dev.pllFail.toNat + 2 * s.dev.pllLock.toNat + s.dev.pllEn.toNat) } ∧
    exec (.wrDevctl v) s = .next { s with dev := { s.dev with detach := v.getLsbD 0 } } ∧
    exec .rdDevctl s = .next { s with rdData := BitVec.ofNat 32 s.dev.detach.toNat } ∧
    exec (.wrDevinten v) s = .next { s with dev := { s.dev with sofe := v.getLsbD 0, eorste := v.getLsbD 1 } } ∧
    exec .rdDevinten s = .next { s with rdData := BitVec.ofNat 32 (2 * s.dev.eorste.toNat + s.dev.sofe.toNat) }

/-- R185, R186: a bit written 0 clears its flag, a bit written 1 leaves it. -/
def Obligations.DevintOperations : Prop :=
  ∀ (s : State) (v : Byte), s.ctx ≠ .halted →
    exec (.wrDevint v) s = .next { s with dev := { s.dev with
      sofi := if v.getLsbD 0 = false then false else s.dev.sofi,
      eorsti := if v.getLsbD 1 = false then false else s.dev.eorsti } } ∧
    exec .rdDevint s = .next { s with rdData := BitVec.ofNat 32 (2 * s.dev.eorsti.toNat + s.dev.sofi.toNat) }

/-- R189, R190, with the active address that applies from the next event on (40_bus_transactions.md R141). -/
def Obligations.DevaddrOperations : Prop :=
  ∀ (s : State) (v : Byte), s.ctx ≠ .halted →
    (∃ t, exec (.wrDevaddr v) s = .next t ∧
      t = { s with dev := { s.dev with uadd := v.extractLsb' 0 7, adden := v.getLsbD 7 } } ∧
      t.dev.activeAddr = if v.getLsbD 7 then v.extractLsb' 0 7 else 0) ∧
    exec .rdDevaddr s = .next { s with rdData := BitVec.ofNat 32 (128 * s.dev.adden.toNat + s.dev.uadd.toNat) }

/-- R191, R192: the toggles of the named non-control endpoints to DATA0, every control endpoint's left alone. -/
def Obligations.EptogrstOperations : Prop :=
  ∀ (s : State) (v : Byte), s.ctx ≠ .halted →
    (∃ t, exec (.wrEptogrst v) s = .next t ∧ t = { s with eps := t.eps } ∧ t.eps.length = s.eps.length ∧
      ∀ n e, s.eps[n]? = some e →
        t.eps[n]? = some (if v.getLsbD n = true ∧ e.eptype ≠ 0 then { e with toggle := false } else e)) ∧
    exec .rdEptogrst s = .next { s with rdData := 0 }

/-- R193, R194: the write never faults, whatever number it selects. -/
def Obligations.EpselOperations : Prop :=
  ∀ (s : State) (v : Byte), s.ctx ≠ .halted →
    exec (.wrEpsel v) s = .next { s with dev := { s.dev with epnum := v.extractLsb' 0 3 } } ∧
    exec .rdEpsel s = .next { s with rdData := BitVec.ofNat 32 s.dev.epnum.toNat }

/-- R210 and 10_state.md R45: the fields of `ENGSTATUS`, read whole by the engine side and by the main loop, also after a
fault. -/
def Obligations.EngstatusReads : Prop :=
  ∀ (s : State),
    let w : Word := BitVec.ofNat 32
      ((match s.enum.devState with | .default => 0 | .addressed => 1 | .configured => 2)
        + 256 * s.enum.assignedAddr.toNat + 65536 * s.enum.configValue.toNat
        + 2 ^ 24 * (decide (s.ctx = .halted)).toNat + 2 ^ 25 * (decide (s.faults ≠ [])).toNat)
    exec .rdEngstatus s = .next { s with rdData := w } ∧ exec .statusRead s = .next { s with mainData := w }

/-- R211: a write to a read-only register, or an access to a register number that is not listed, raises `BAD_REGISTER`
and has no other effect (R372 says what raising it does). For the two read-only per-endpoint registers an endpoint is
selected: without one R195 speaks too (`NoEndpointSelected`). -/
def Obligations.BadRegisterAccesses : Prop :=
  ∀ (s : State) (i : Instr) (lo : Byte) (rest : List Byte), s.ctx ≠ .halted →
    (((i = .wrEpsta ∨ i = .wrEpbcnt) ∧ s.dev.epnum.toNat < s.eps.length) ∨ i = .wrEngstatus ∨
      ((0x06 < lo ∧ lo < 0x10) ∨ (0x17 < lo ∧ lo ≠ 0x20)) ∧
        (decode .reg (lo :: 0x00 :: rest) = .ok i rest ∨ decode .reg (lo :: 0x80 :: rest) = .ok i rest)) →
    ∃ t, exec i s = .next t ∧ t = { s with faults := t.faults, ctx := .halted, seq := .halted } ∧
      ∀ k, k ∈ t.faults ↔ k = .badRegister ∨ k ∈ s.faults

/-! ### Per-endpoint register operations (41_register_interface.md) -/

/-- 41_register_interface.md R195: with no endpoint selected an operation on registers 0x10 to 0x17 raises `BAD_ENDPOINT`
and does nothing else. The model's choice (log 14): the two illegal writes among them raise `BAD_REGISTER`. -/
def Obligations.NoEndpointSelected : Prop :=
  ∀ (s : State) (v : Byte), s.ctx ≠ .halted → s.eps.length ≤ s.dev.epnum.toNat →
    (∀ i ∈ [.rdEpctl, .wrEpctl v, .rdEpcfg0, .wrEpcfg0 v, .rdEpcfg1, .wrEpcfg1 v, .rdEpsta, .rdEpint, .wrEpint v,
      .rdEpinten, .wrEpinten v, .rdEpdata, .wrEpdata v, .rdEpbcnt],
      exec i s = .next (raise .badEndpoint s)) ∧
    exec .wrEpsta s = .next (raise .badRegister s) ∧ exec .wrEpbcnt s = .next (raise .badRegister s)

/-- R196, R197. -/
def Obligations.EpctlOperations : Prop :=
  ∀ (s : State) (e : Endpoint) (v : Byte), s.ctx ≠ .halted → s.selected = some e →
    (v.getLsbD 0 = false → exec (.wrEpctl v) s = .next (s.withSelected { e with
      epen := false, stallrq := false, alloc := false, cfgok := false, banks := [], fill := 0, send := 0,
      toggle := false, txini := false, rxouti := false, rxstpi := false })) ∧
    (v.getLsbD 0 = true → exec (.wrEpctl v) s = .next (s.withSelected { e with
      epen := true, stallrq := if v.getLsbD 1 then true else e.stallrq })) ∧
    exec .rdEpctl s = .next { s with rdData := BitVec.ofNat 32 (2 * e.stallrq.toNat + e.epen.toNat) }

/-- R198, R199: under allocated banks the write releases them. -/
def Obligations.Epcfg0Operations : Prop :=
  ∀ (s : State) (e : Endpoint) (v : Byte), s.ctx ≠ .halted → s.selected = some e →
    (e.alloc = true → exec (.wrEpcfg0 v) s = .next (s.withSelected { e with
      alloc := false, cfgok := false, banks := [], fill := 0, send := 0, txini := false, rxouti := false,
      rxstpi := false, eptype := v.extractLsb' 6 2, epdir := v.getLsbD 0 })) ∧
    (e.alloc = false → exec (.wrEpcfg0 v) s = .next (s.withSelected { e with
      eptype := v.extractLsb' 6 2, epdir := v.getLsbD 0 })) ∧
    exec .rdEpcfg0 s = .next { s with rdData := BitVec.ofNat 32 (64 * e.eptype.toNat + e.epdir.toNat) }

/-- R200, R201: allocation, and its refusal for a disabled endpoint or a reserved code. -/
def Obligations.Epcfg1Operations : Prop :=
  ∀ (s : State) (e : Endpoint) (v : Byte), s.ctx ≠ .halted → s.selected = some e →
    (v.getLsbD 1 = true ∧ e.epen = true ∧ v.extractLsb' 4 3 ≤ (3 : BitVec 3) ∧ v.extractLsb' 2 2 ≤ (1 : BitVec 2) →
      ∃ e', exec (.wrEpcfg1 v) s = .next (s.withSelected e') ∧
        e' = { e with
          epsize := v.extractLsb' 4 3, epbk := v.extractLsb' 2 2, alloc := true,
          banks := List.replicate ((v.extractLsb' 2 2).toNat + 1) ⟨[], false⟩, fill := 0, send := 0,
          txini := false, rxouti := false, rxstpi := false, cfgok := true } ∧
        e'.size = 8 * 2 ^ (v.extractLsb' 4 3).toNat ∧ e'.nbanks = (v.extractLsb' 2 2).toNat + 1) ∧
    (¬(v.getLsbD 1 = true ∧ e.epen = true ∧ v.extractLsb' 4 3 ≤ (3 : BitVec 3) ∧ v.extractLsb' 2 2 ≤ (1 : BitVec 2)) →
      exec (.wrEpcfg1 v) s = .next (s.withSelected { e with
        epsize := v.extractLsb' 4 3, epbk := v.extractLsb' 2 2, alloc := v.getLsbD 1, banks := [], cfgok := false })) ∧
    exec .rdEpcfg1 s = .next { s with
      rdData := BitVec.ofNat 32 (16 * e.epsize.toNat + 4 * e.epbk.toNat + 2 * e.alloc.toNat) }

/-- R202, R204, R205, R206, R209: the remaining per-endpoint reads, and the interrupt enables. -/
def Obligations.EpstaEpintEpintenEpbcntOperations : Prop :=
  ∀ (s : State) (e : Endpoint) (v : Byte), s.ctx ≠ .halted → s.selected = some e →
    exec .rdEpsta s = .next { s with rdData := BitVec.ofNat 32 (128 * e.cfgok.toNat) } ∧
    exec .rdEpint s = .next { s with
      rdData := BitVec.ofNat 32 (8 * e.rxstpi.toNat + 4 * e.rxouti.toNat + e.txini.toNat) } ∧
    exec (.wrEpinten v) s = .next (s.withSelected { e with
      txine := v.getLsbD 0, rxoute := v.getLsbD 2, rxstpe := v.getLsbD 3 }) ∧
    exec .rdEpinten s = .next { s with
      rdData := BitVec.ofNat 32 (8 * e.rxstpe.toNat + 4 * e.rxoute.toNat + e.txine.toNat) } ∧
    (e.cfgok = false → exec .rdEpbcnt s = .next { s with rdData := 0 }) ∧
    (∀ b, e.cfgok = true → e.banks[e.fill]? = some b → b.data.length < 256 →
      exec .rdEpbcnt s = .next { s with rdData := BitVec.ofNat 32 b.data.length })

/-- R203: what one write to `EPINT` clears, releases, commits, or refuses. `tx` says that it clears a bank-ready flag. -/
def Obligations.EpintWrite : Prop :=
  ∀ (s : State) (e : Endpoint) (b : Bank) (v : Byte), s.ctx ≠ .halted → s.selected = some e →
    e.banks[e.fill]? = some b →
    let tx : Bool := !v.getLsbD 0 && e.txini
    let released : Bool := (!v.getLsbD 3 && e.rxstpi) || (!v.getLsbD 2 && e.rxouti) || (tx && e.rxstpi)
    let conflict : Bool := tx && !e.rxstpi && decide (e.eptype = 0) && e.rxouti && v.getLsbD 2
    let commit : Bool := tx && !e.rxstpi
    (conflict = true → exec (.wrEpint v) s = .next (raise .fifoConflict s)) ∧
    (conflict = false → exec (.wrEpint v) s = .next (s.withSelected { e with
      rxstpi := e.rxstpi && v.getLsbD 3, rxouti := e.rxouti && v.getLsbD 2, txini := e.txini && v.getLsbD 0,
      banks := e.banks.set e.fill ⟨if released then [] else b.data, b.committed || commit⟩,
      fill := if commit then (e.fill + 1) % e.nbanks else e.fill }))

/-- The model's reading of R203 for an endpoint without a current bank (log 12): the flags are cleared, there is nothing
to release or commit. -/
def Obligations.EpintWriteNoBank : Prop :=
  ∀ (s : State) (e : Endpoint) (v : Byte), s.ctx ≠ .halted → s.selected = some e → e.banks = [] →
    ¬(v.getLsbD 0 = false ∧ e.txini = true ∧ e.rxstpi = false ∧ e.eptype = 0 ∧ e.rxouti = true ∧ v.getLsbD 2 = true) →
    exec (.wrEpint v) s = .next (s.withSelected { e with
      rxstpi := e.rxstpi && v.getLsbD 3, rxouti := e.rxouti && v.getLsbD 2, txini := e.txini && v.getLsbD 0 })

/-- R207: the byte popped, and the faults in the order the rule tests them. -/
def Obligations.EpdataRead : Prop :=
  ∀ (s : State) (e : Endpoint), s.ctx ≠ .halted → s.selected = some e →
    (e.cfgok = false → exec .rdEpdata s = .next (raise .noBank s)) ∧
    (e.cfgok = true → e.rxstpi = false → e.rxouti = false → exec .rdEpdata s = .next (raise .fifoNotOwned s)) ∧
    (e.cfgok = true → (e.rxstpi = true ∨ e.rxouti = true) → ∀ b, e.banks[e.fill]? = some b →
      (b.data = [] → exec .rdEpdata s = .next (raise .fifoUnderrun s)) ∧
      (∀ x d, b.data = x :: d → exec .rdEpdata s = .next
        { s.withSelected { e with banks := e.banks.set e.fill ⟨d, b.committed⟩ } with rdData := x.setWidth 32 }))

/-- R208: the byte appended, and the faults in the order the rule tests them. -/
def Obligations.EpdataWrite : Prop :=
  ∀ (s : State) (e : Endpoint) (x : Byte), s.ctx ≠ .halted → s.selected = some e →
    (e.cfgok = false → exec (.wrEpdata x) s = .next (raise .noBank s)) ∧
    (e.cfgok = true → (e.rxstpi = true ∨ (e.eptype = 0 ∧ e.rxouti = true)) →
      exec (.wrEpdata x) s = .next (raise .fifoConflict s)) ∧
    (e.cfgok = true → e.rxstpi = false → ¬(e.eptype = 0 ∧ e.rxouti = true) →
      (e.txini = false → exec (.wrEpdata x) s = .next (raise .fifoNotOwned s)) ∧
      (e.txini = true → ∀ b, e.banks[e.fill]? = some b →
        (b.data.length = e.size → exec (.wrEpdata x) s = .next (raise .fifoOverflow s)) ∧
        (b.data.length ≠ e.size → exec (.wrEpdata x) s = .next (s.withSelected { e with
          banks := e.banks.set e.fill ⟨b.data ++ [x], b.committed⟩ }))))

/-! ### Bus events (40_bus_transactions.md) -/

/-- R143 and 44_control_sequencer.md R299: a SETUP that reaches a control endpoint; while the SETUP handler runs it also
raises `SETUP_DURING_TRANSFER`. A SETUP to a non-control endpoint is not answered. -/
def Obligations.SetupEvent : Prop :=
  ∀ (s : State) (a : DevAddr) (n : EpNum) (e : Endpoint) (d : Packet8), Reaches s a n e →
    (e.eptype ≠ 0 → exec (.setup a n d) s = .next s) ∧
    (e.eptype = 0 →
      let t : State := { s with
        history := .ack :: s.history,
        eps := s.eps.set n.toNat { e with
          banks := e.banks.mapIdx (fun k _ =>
            ⟨if k = 0 then [d.d0, d.d1, d.d2, d.d3, d.d4, d.d5, d.d6, d.d7] else [], false⟩),
          fill := 0, send := 0, rxstpi := true, stallrq := false, toggle := true } }
      (s.ctx ≠ .setup → exec (.setup a n d) s = .next t) ∧
      (s.ctx = .setup → exec (.setup a n d) s = .next (raise .setupDuringTransfer t)))

/-- R145: STALL, the oldest committed bank with its data PID, or NAK; nothing for an OUT endpoint. -/
def Obligations.InEvent : Prop :=
  ∀ (s : State) (a : DevAddr) (n : EpNum) (e : Endpoint), Reaches s a n e →
    (e.eptype ≠ 0 → e.epdir = false → exec (.inToken a n) s = .next s) ∧
    (e.eptype = 0 ∨ e.epdir = true →
      (e.stallrq = true → exec (.inToken a n) s = .next { s with history := .stall :: s.history }) ∧
      (e.stallrq = false →
        (∀ d, e.banks[e.send]? = some ⟨d, true⟩ → exec (.inToken a n) s = .next { s with
          history := .data e.toggle d :: s.history,
          eps := s.eps.set n.toNat { e with
            toggle := !e.toggle, banks := e.banks.set e.send ⟨[], false⟩, send := (e.send + 1) % e.nbanks } }) ∧
        ((¬∃ d, e.banks[e.send]? = some ⟨d, true⟩) →
          exec (.inToken a n) s = .next { s with history := .nak :: s.history })))

/-- R147, with "free of received data" read as holding no byte (log 13). -/
def Obligations.OutEvent : Prop :=
  ∀ (s : State) (a : DevAddr) (n : EpNum) (e : Endpoint) (b : Bank) (d : List Byte), Reaches s a n e →
    e.banks[e.fill]? = some b →
    let busy : Prop := if e.eptype = 0 then
        e.rxstpi = true ∨ e.rxouti = true ∨ (∃ b0, e.banks[0]? = some b0 ∧ b0.committed = true)
      else ∀ k ∈ e.banks, k.data ≠ []
    (e.eptype ≠ 0 → e.epdir = true → exec (.outToken a n d) s = .next s) ∧
    (e.eptype = 0 ∨ e.epdir = false →
      (e.stallrq = true → exec (.outToken a n d) s = .next { s with history := .stall :: s.history }) ∧
      (e.stallrq = false → e.size < d.length → exec (.outToken a n d) s = .next s) ∧
      (e.stallrq = false → d.length ≤ e.size → busy →
        exec (.outToken a n d) s = .next { s with history := .nak :: s.history }) ∧
      (e.stallrq = false → d.length ≤ e.size → ¬busy → exec (.outToken a n d) s = .next { s with
        history := .ack :: s.history,
        eps := s.eps.set n.toNat { e with
          banks := e.banks.set e.fill ⟨d, b.committed⟩, rxouti := true, toggle := !e.toggle } }))

/-- R142 (with the address match of R141): a token that reaches no endpoint is answered `none` and changes nothing. -/
def Obligations.UnreceivedToken : Prop :=
  ∀ (s : State) (a : DevAddr) (n : EpNum) (d : Packet8) (bs : List Byte), (¬∃ e, Reaches s a n e) →
    exec (.setup a n d) s = .next s ∧ exec (.inToken a n) s = .next s ∧ exec (.outToken a n bs) s = .next s

/-- R150, R152, R156, R157: the controller's part of a bus reset, a start of frame, the two PLL events, each where it is
enabled; after a failure the lock is not. -/
def Obligations.BusSignals : Prop :=
  ∀ (s : State),
    (s.dev.detach = false →
      exec .busReset s = .next { s with
        dev := { s.dev with uadd := 0, adden := false, eorsti := true },
        eps := s.eps.map (fun e => { e with
          epen := false, stallrq := false, alloc := false, cfgok := false, banks := [], fill := 0, send := 0,
          txini := false, rxouti := false, rxstpi := false, txine := false, rxoute := false, rxstpe := false,
          toggle := false }) } ∧
      exec .sof s = .next { s with dev := { s.dev with sofi := true } }) ∧
    (s.dev.pllEn = true → s.dev.pllLock = false → s.dev.pllFail = false →
      exec .pllLocked s = .next { s with dev := { s.dev with pllLock := true } } ∧
      exec .pllFail s = .next { s with dev := { s.dev with pllFail := true } }) ∧
    (s.dev.pllFail = true → exec .pllLocked s = .next s)

/-- R158: the condition and the effect of bank-ready. -/
def Obligations.TxreadyStep : Prop :=
  ∀ (s : State) (n : EpNum) (e : Endpoint) (d : List Byte), s.eps[n.toNat]? = some e →
    e.epen = true → e.cfgok = true → e.txini = false → e.rxstpi = false → e.banks[e.fill]? = some ⟨d, false⟩ →
    (e.eptype = 0 ∧ e.rxouti = false) ∨ (e.eptype ≠ 0 ∧ e.epdir = true) →
    exec (.txready n) s = .next { s with eps := s.eps.set n.toNat { e with
      txini := true, banks := e.banks.set e.fill ⟨[], false⟩ } }

/-- The model's reading of "not enabled" (log 7): an event whose condition is false changes nothing. The conditions are
those of 40_bus_transactions.md R153, R156, R157 and R158. -/
def Obligations.NotEnabledEvents : Prop :=
  ∀ (s : State) (a : DevAddr) (n : EpNum) (d : Packet8) (bs : List Byte),
    (s.dev.detach = true → exec (.setup a n d) s = .next s ∧ exec (.inToken a n) s = .next s ∧
      exec (.outToken a n bs) s = .next s ∧ exec .busReset s = .next s ∧ exec .sof s = .next s) ∧
    (¬(s.dev.pllEn = true ∧ s.dev.pllLock = false ∧ s.dev.pllFail = false) →
      exec .pllLocked s = .next s ∧ exec .pllFail s = .next s) ∧
    ((¬∃ e b, s.eps[n.toNat]? = some e ∧ e.banks[e.fill]? = some b ∧ e.epen = true ∧ e.cfgok = true ∧
      e.txini = false ∧ e.rxstpi = false ∧ b.committed = false ∧
      ((e.eptype = 0 ∧ e.rxouti = false) ∨ (e.eptype ≠ 0 ∧ e.epdir = true))) →
      exec (.txready n) s = .next s)

/-! ### The engine's own microprogram -/

/-- 70_reset_and_hazards.md R412, R414: from power-on, with the lock reported after `INIT_PLL`, the ten steps leave the block
attached and idle with endpoint 0 configured. -/
def Obligations.InitialisationRun : Prop :=
  ∀ (c : Config), c.wf = true →
    Host.Core.run core 10 { State.resetWith c with
        turns := .engine :: .bus [0x06] :: List.replicate 8 .engine } =
      .next { State.resetWith c with
        ctx := .idle, seq := .idle, rdData := 3,
        dev := { DevRegs.reset with pllEn := true, pllLock := true, detach := false, sofe := true, eorste := true },
        eps := (List.replicate c.numEp Endpoint.reset).set 0 ep0Initialised }

/-- 70_reset_and_hazards.md R413: at `INIT_LOCK` a reported failure raises `PLL_LOCK_FAIL`; without lock or failure the
engine holds; with lock it goes on. -/
def Obligations.PllLockGate : Prop :=
  ∀ (s : State), s.ctx = .init → s.seq = .initLock →
    (s.dev.pllFail = true → engineStep s = .next (raise .pllLockFail s)) ∧
    (s.dev.pllFail = false → s.dev.pllLock = false → engineStep s = .next s) ∧
    (s.dev.pllFail = false → s.dev.pllLock = true →
      ∃ t, engineStep s = .next t ∧ t = { s with seq := .initCfgSel, rdData := t.rdData })

/-- 60_exceptions.md R378, R385: handler entry at `IDLE`, in the priority order bus reset, start of frame, SETUP. -/
def Obligations.HandlerEntry : Prop :=
  ∀ (s : State), s.ctx = .idle →
    let bus : Prop := s.dev.eorsti = true ∧ s.dev.eorste = true
    let frame : Prop := s.dev.sofi = true ∧ s.dev.sofe = true
    let request : Prop := ∃ e, s.eps[0]? = some e ∧ e.rxstpi = true ∧ e.rxstpe = true
    (bus → engineStep s = .next { s with ctx := .busReset, seq := .brCfgSel, dev := { s.dev with eorsti := false } }) ∧
    (¬bus → frame → engineStep s = .next { s with ctx := .idle, seq := .idle, dev := { s.dev with sofi := false } }) ∧
    (¬bus → ¬frame → request →
      engineStep s = .next { s with ctx := .setup, seq := .sRd 0, dev := { s.dev with epnum := 0 } }) ∧
    (¬bus → ¬frame → ¬request → engineStep s = .next s)

/-- 60_exceptions.md R382, R383 (the source's idempotent re-init): a bus reset that arrives at `IDLE`, then the handler,
leave endpoint 0 exactly as the initialisation does, every other endpoint disabled, the state `Default` at address 0. -/
def Obligations.BusResetReinitialises : Prop :=
  ∀ (s : State), s.Wf → s.ctx = .idle → s.dev.detach = false → s.dev.eorste = true →
    s.turns = .bus [0x04] :: List.replicate 7 .engine →
    Host.Core.run core 8 s = .next { s with
      turns := [],
      seq := .idle,
      enum := ⟨.default, 0, 0⟩,
      dev := { s.dev with uadd := 0, adden := false, eorsti := false, epnum := 0 },
      eps := (s.eps.map (fun e => { e with
        epen := false, stallrq := false, alloc := false, cfgok := false, banks := [], fill := 0, send := 0,
        txini := false, rxouti := false, rxstpi := false, txine := false, rxoute := false, rxstpe := false,
        toggle := false })).set 0 ep0Initialised }

/-- 44_control_sequencer.md R291 to R294: from `IDLE` with an unread SETUP in endpoint 0's bank, ten engine steps read its
8 bytes into the latch in the fixed order, and clear the three flags in one write that sends nothing. -/
def Obligations.SetupParsed : Prop :=
  ∀ (s : State) (e : Endpoint) (d : Packet8) (bs : List Bank), s.ctx = .idle →
    ¬(s.dev.eorsti = true ∧ s.dev.eorste = true) → ¬(s.dev.sofi = true ∧ s.dev.sofe = true) →
    s.eps[0]? = some e → e.rxstpi = true → e.rxstpe = true → e.cfgok = true → e.fill = 0 →
    e.banks = ⟨[d.d0, d.d1, d.d2, d.d3, d.d4, d.d5, d.d6, d.d7], false⟩ :: bs →
    s.turns = List.replicate 10 .engine →
    Host.Core.run core 10 s = .next { s with
      turns := [], ctx := .setup, seq := .sDispatch, dev := { s.dev with epnum := 0 }, rdData := d.d7.setWidth 32,
      latch := ⟨d.d0, d.d1, d.d3 ++ d.d2, d.d5 ++ d.d4, d.d7 ++ d.d6⟩,
      eps := s.eps.set 0 { e with
        rxstpi := false, rxouti := false, txini := false, banks := ⟨[], false⟩ :: bs } }

/-- 44_control_sequencer.md R295: `S_DISPATCH` goes to the first microstate of the request's row, and does nothing else;
the row is the one the latch's key selects. -/
def Obligations.DispatchTargets : Prop :=
  ∀ (s : State) (t r : Byte) (wV wI wL : Half), s.ctx = .setup → s.seq = .sDispatch →
    (exec (.getDescriptor wV wI wL) s = .next { s with seq := .gdLookup } ∧
      exec (.setAddress wV wI wL) s = .next { s with seq := .saSet } ∧
      exec (.setConfiguration wV wI wL) s = .next { s with seq := .scStore } ∧
      exec (.getConfiguration wV wI wL) s = .next { s with seq := .gcLoad } ∧
      exec (.getStatus t wV wI wL) s = .next { s with seq := .gsLoad } ∧
      exec (.stallOther t r wV wI wL) s = .next { s with seq := .stall }) ∧
    engineStep s = .next { s with seq :=
      let K : Half := s.latch.bRequest ++ s.latch.bmRequestType
      if K = 0x0680 then .gdLookup else if K = 0x0500 then .saSet else if K = 0x0900 then .scStore
      else if K = 0x0880 then .gcLoad else if K &&& 0xFF00 = 0 then .gsLoad else .stall }

/-! ### The requests (44_control_sequencer.md) -/

/-- R300, R301 and 42_descriptor_rom.md R238, R239: the descriptor found by type, whatever the index, the length
`min(wLength, 255, dlen)`; no stream for length 0; a stall for every other type. -/
def Obligations.GetDescriptorLookup : Prop :=
  ∀ (s : State) (wV wI wL : Half), s.ctx = .setup → s.seq = .gdLookup →
    let dlen : Nat := if wV.extractLsb' 8 8 = (0x01 : Byte) then 18 else if s.cfg.hidPresent then 34 else 25
    let off : Half := if wV.extractLsb' 8 8 = (0x01 : Byte) then 0 else 18
    let n : Nat := min (min wL.toNat 255) dlen
    (wV.extractLsb' 8 8 = (0x01 : Byte) ∨ wV.extractLsb' 8 8 = (0x02 : Byte) →
      exec (.getDescriptor wV wI wL) s = .next { s with
        work := { s.work with remaining := BitVec.ofNat 16 n, region := .rom, offset := off },
        seq := if 0 < n then .strWait else .ret }) ∧
    (¬(wV.extractLsb' 8 8 = (0x01 : Byte) ∨ wV.extractLsb' 8 8 = (0x02 : Byte)) →
      exec (.getDescriptor wV wI wL) s = .next { s with seq := .stall })

/-- R303, R304: SET_ADDRESS takes `wValue[6:0]`, commits a zero-length packet (R322, 41_register_interface.md R203), waits
until the host has taken it (R324), and only then writes `DEVADDR`, the assigned address and the state, in one step. By
R203, and as the model's choice against the words of 60_exceptions.md R375 (log 27), the commit with OUT data unread in the
bank raises `FIFO_CONFLICT`; with `TXINI` = 0, as on an endpoint a bus reset has released, it commits nothing (R322). The
model's choice (log 26): `SA_APPLY` acts so also after a bus reset. -/
def Obligations.SetAddressSteps : Prop :=
  ∀ (s : State) (e : Endpoint) (wV wI wL : Half), s.ctx = .setup → s.dev.epnum = 0 → s.eps[0]? = some e →
    (s.seq = .saSet → exec (.setAddress wV wI wL) s = .next { s with
      work := { s.work with pendingAddr := wV.extractLsb' 0 7 }, seq := .saZw }) ∧
    (∀ q q', (q, q') ∈ [(Seq.saZw, Seq.saZc), (.saWait, .saApply)] → s.seq = q →
      (e.txini = false → exec (.setAddress wV wI wL) s = .next s) ∧
      (e.txini = true → exec (.setAddress wV wI wL) s = .next { s with
        seq := q', rdData := BitVec.ofNat 32 (8 * e.rxstpi.toNat + 4 * e.rxouti.toNat + 1) })) ∧
    (s.seq = .saZc →
      (e.Ready → exec (.setAddress wV wI wL) s = .next { s.withEp0 { e with
        txini := false, banks := e.banks.set e.fill ⟨[], true⟩, fill := (e.fill + 1) % e.nbanks } with
        seq := .saWait }) ∧
      (e.eptype = 0 → e.txini = true → e.rxstpi = false → e.rxouti = true →
        exec (.setAddress wV wI wL) s = .next (raise .fifoConflict s)) ∧
      (e.txini = false → exec (.setAddress wV wI wL) s = .next { s with seq := .saWait })) ∧
    (s.seq = .saApply → exec (.setAddress wV wI wL) s = .next { s with
      dev := { s.dev with uadd := s.work.pendingAddr, adden := true },
      enum := ⟨.addressed, s.work.pendingAddr, s.enum.configValue⟩, seq := .ret })

/-- R306: SET_CONFIGURATION stores `wValue[7:0]`, sets the state in the same step, and commits a zero-length packet (R322,
R324, 41_register_interface.md R203). By R203, and as the model's choice against the words of 60_exceptions.md R375 (log
27), the commit with OUT data unread in the bank raises `FIFO_CONFLICT`; with `TXINI` = 0, as on an endpoint a bus reset
has released, it commits nothing (R322). -/
def Obligations.SetConfigurationStore : Prop :=
  ∀ (s : State) (e : Endpoint) (wV wI wL : Half), s.ctx = .setup → s.dev.epnum = 0 → s.eps[0]? = some e →
    let c : Byte := wV.extractLsb' 0 8
    (s.seq = .scStore → exec (.setConfiguration wV wI wL) s = .next { s with
      enum := ⟨if c ≠ 0 then .configured else if s.dev.adden then .addressed else .default, s.enum.assignedAddr, c⟩,
      rdData := BitVec.ofNat 32 (128 * s.dev.adden.toNat + s.dev.uadd.toNat), seq := .scZw }) ∧
    (s.seq = .scZw →
      (e.txini = false → exec (.setConfiguration wV wI wL) s = .next s) ∧
      (e.txini = true → exec (.setConfiguration wV wI wL) s = .next { s with
        seq := .scZc, rdData := BitVec.ofNat 32 (8 * e.rxstpi.toNat + 4 * e.rxouti.toNat + 1) })) ∧
    (s.seq = .scZc →
      (e.Ready → exec (.setConfiguration wV wI wL) s = .next { s.withEp0 { e with
        txini := false, banks := e.banks.set e.fill ⟨[], true⟩, fill := (e.fill + 1) % e.nbanks } with
        seq := if c ≠ 0 then .scCfgSel else .ret }) ∧
      (e.eptype = 0 → e.txini = true → e.rxstpi = false → e.rxouti = true →
        exec (.setConfiguration wV wI wL) s = .next (raise .fifoConflict s)) ∧
      (e.txini = false → exec (.setConfiguration wV wI wL) s = .next { s with
        seq := if c ≠ 0 then .scCfgSel else .ret }))

/-- R307, R308 and 43_endpoint_config.md R274: for a nonzero value the six steps after the status packet configure
endpoint 3 as interrupt IN with two 8-byte banks, without interrupt source, and reset the non-control toggles; `EPSEL`
stays at 3. -/
def Obligations.SetConfigurationEndpoint3 : Prop :=
  ∀ (s : State) (e : Endpoint) (wV wI wL : Half), s.ctx = .setup → s.seq = .scCfgSel → s.eps[3]? = some e →
    ∃ t, runInstr (.setConfiguration wV wI wL) 6 s = .next t ∧
      t = { s with seq := .ret, dev := { s.dev with epnum := 3 }, eps := t.eps } ∧
      t.eps[3]? = some { e with
        epen := true, eptype := 3, epdir := true, epsize := 0, epbk := 1, alloc := true, cfgok := true,
        banks := [⟨[], false⟩, ⟨[], false⟩], fill := 0, send := 0, txini := false, rxouti := false, rxstpi := false,
        txine := false, rxoute := false, rxstpe := false, toggle := false } ∧
      ∀ n e', n ≠ 3 → s.eps[n]? = some e' →
        t.eps[n]? = some (if n < 8 ∧ e'.eptype ≠ 0 then { e' with toggle := false } else e')

/-- R309, R310, R311: the fixed replies, whatever `wLength` is. -/
def Obligations.FixedReplies : Prop :=
  ∀ (s : State) (bm : Byte) (wV wI wL : Half), s.ctx = .setup →
    (s.seq = .gcLoad → exec (.getConfiguration wV wI wL) s = .next { s with
      work := { s.work with reply0 := s.enum.configValue, region := .reply, offset := 0, remaining := 1 },
      seq := .strWait }) ∧
    (s.seq = .gsLoad → exec (.getStatus bm wV wI wL) s = .next { s with
      work := { s.work with reply0 := 0, reply1 := 0, region := .reply, offset := 0, remaining := 2 },
      seq := .strWait })

/-- R316, R319: the stall sets `STALLRQ` on the selected endpoint with `EPEN` = 1; `RETURN` goes to `IDLE`. -/
def Obligations.StallAndReturn : Prop :=
  ∀ (s : State) (e : Endpoint) (bm r : Byte) (wV wI wL : Half), s.ctx = .setup → s.selected = some e →
    (s.seq = .stall →
      exec (.stallOther bm r wV wI wL) s = .next { s.withSelected { e with epen := true, stallrq := true } with seq := .ret } ∧
      exec (.getDescriptor wV wI wL) s =
        .next { s.withSelected { e with epen := true, stallrq := true } with seq := .ret }) ∧
    (s.seq = .ret → ∀ i, i.isRequest = true → exec i s = .next { s with ctx := .idle, seq := .idle })

/-- R324: in a wait the engine has no step while `TXINI` of endpoint 0 is 0; with `TXINI` = 1 its step is the `RD EPINT`,
and it moves on. It is so whichever request it serves. -/
def Obligations.WaitHolds : Prop :=
  ∀ (i : Instr) (s : State) (e : Endpoint), i.isRequest = true → s.ctx = .setup → s.eps[0]? = some e →
    s.seq = .strWait ∨ s.seq = .saZw ∨ s.seq = .saWait ∨ s.seq = .scZw →
    (e.txini = false → exec i s = .next s ∧ engineEnabled s = false) ∧
    (e.txini = true → s.dev.epnum = 0 → engineEnabled s = true ∧ exec i s = .next { s with
      rdData := BitVec.ofNat 32 (8 * e.rxstpi.toNat + 4 * e.rxouti.toNat + 1),
      work := if s.seq = .strWait then
          { s.work with packet := BitVec.ofNat 8 (min s.work.remaining.toNat 32), i := 0 }
        else s.work,
      seq := if s.seq = .strWait then .strWrite else if s.seq = .saZw then .saZc
        else if s.seq = .saWait then .saApply else .scZc })

/-- R320: one chunk of the data stage. With the bank ready, as many steps as bytes and two more write `min(remaining, 32)`
bytes of the source and commit them as one packet; the source and the count move on. -/
def Obligations.StreamPacket : Prop :=
  ∀ (i : Instr) (s : State) (e : Endpoint) (d : List Byte), i.isRequest = true → s.ctx = .setup → s.seq = .strWait →
    s.dev.epnum = 0 → s.eps[0]? = some e → e.Ready → s.work.remaining ≠ 0 →
    sourceBytes s (min s.work.remaining.toNat 32) = some d →
    runInstr i (d.length + 2) s = .next { s.withEp0 { e with
        txini := false, banks := e.banks.set e.fill ⟨d, true⟩, fill := (e.fill + 1) % e.nbanks } with
      rdData := 1,
      work := { s.work with
        packet := BitVec.ofNat 8 d.length, i := BitVec.ofNat 8 d.length,
        offset := s.work.offset + BitVec.ofNat 16 d.length,
        remaining := s.work.remaining - BitVec.ofNat 16 d.length },
      seq := if 32 < s.work.remaining.toNat then .strWait else .ret }

/-- R300, R302, R320 and 42_descriptor_rom.md R231 (the source's property 1): GET_DESCRIPTOR(device) with `wLength` not 0
and the bank ready commits the first `min(wLength, 18)` bytes of the device descriptor as one packet. -/
def Obligations.DeviceDescriptorSent : Prop :=
  ∀ (s : State) (e : Endpoint) (wV wI wL : Half), s.ctx = .setup → s.seq = .sDispatch → s.dev.epnum = 0 →
    s.eps[0]? = some e → e.Ready → s.rom = [] → wV.extractLsb' 8 8 = (0x01 : Byte) → wL ≠ 0 →
    ∃ t, runInstr (.getDescriptor wV wI wL) (min wL.toNat 18 + 4) s = .next t ∧ t.seq = .ret ∧
      t.eps = s.eps.set 0 { e with
        txini := false, fill := (e.fill + 1) % e.nbanks,
        banks := e.banks.set e.fill ⟨List.take wL.toNat
          [0x12, 0x01, 0x00, 0x02, 0x00, 0x00, 0x00, 0x20, s.cfg.vid.extractLsb' 0 8, s.cfg.vid.extractLsb' 8 8,
           s.cfg.pid.extractLsb' 0 8, s.cfg.pid.extractLsb' 8 8, s.cfg.bcdDevice.extractLsb' 0 8,
           s.cfg.bcdDevice.extractLsb' 8 8, 0x00, 0x00, 0x00, 0x01], true⟩ }

/-! ### The descriptor ROM (42_descriptor_rom.md) -/

/-- R231 to R235, R237, R240: the five descriptors at the offsets of R230's table, byte for byte, and the ROM's size; the
configuration stream's length is its `wTotalLength`. (The report descriptor's bytes are left to R236: log 19.) -/
def Obligations.RomLayout : Prop :=
  ∀ (s : State), s.rom = [] →
    let H : Nat := if s.cfg.hidPresent then 9 else 0
    (∀ a, (romRead s a).isSome = true ↔ a < 106 + H) ∧
    romReads s 0 18 = some [0x12, 0x01, 0x00, 0x02, 0x00, 0x00, 0x00, 0x20, s.cfg.vid.extractLsb' 0 8,
      s.cfg.vid.extractLsb' 8 8, s.cfg.pid.extractLsb' 0 8, s.cfg.pid.extractLsb' 8 8, s.cfg.bcdDevice.extractLsb' 0 8,
      s.cfg.bcdDevice.extractLsb' 8 8, 0x00, 0x00, 0x00, 0x01] ∧
    romReads s 18 9 = some [0x09, 0x02, BitVec.ofNat 8 (25 + H), 0x00, 0x01, 0x01, 0x00, 0x80, s.cfg.maxPower] ∧
    romReads s 27 9 = some [0x09, 0x04, 0x00, 0x00, 0x01, 0x03, 0x01, 0x01, 0x00] ∧
    (s.cfg.hidPresent = true → romReads s 36 9 = some [0x09, 0x21, s.cfg.bcdHid.extractLsb' 0 8,
      s.cfg.bcdHid.extractLsb' 8 8, 0x00, 0x01, 0x22, 0x3F, 0x00]) ∧
    romReads s (36 + H) 7 = some [0x07, 0x05, 0x83, 0x03, 0x08, 0x00, s.cfg.kbdInterval] ∧
    wTotalLength s.cfg = 25 + H

/-! ### Outputs -/

/-- 10_state.md R42: the two interrupt request lines, functions of the flags and enables alone. -/
def Obligations.InterruptLines : Prop :=
  ∀ (s : State),
    (busEventIrq s = true ↔ (s.dev.sofi = true ∧ s.dev.sofe = true) ∨ (s.dev.eorsti = true ∧ s.dev.eorste = true)) ∧
    (epEventIrq s = true ↔ ∃ (n : Nat) (e : Endpoint), s.eps[n]? = some e ∧
      ((e.txini = true ∧ e.txine = true) ∨ (e.rxouti = true ∧ e.rxoute = true) ∨ (e.rxstpi = true ∧ e.rxstpe = true)))
end

