-- ==== Sys2Proof/Laws/Bits.lean ====
section
/-! SUPPORT. The bit-field helpers and the register images as numbers. -/

namespace Sys2Proof

/-- The value of a concatenation. -/
theorem append_toNat {m n : Nat} (x : BitVec m) (y : BitVec n) : (x ++ y).toNat = x.toNat * 2 ^ n + y.toNat := by
  rw [BitVec.toNat_append, Nat.shiftLeft_eq, Nat.mul_comm, ← Nat.two_pow_add_eq_or_of_lt y.isLt, Nat.mul_comm]

theorem half_toNat (hi lo : Byte) : (half hi lo).toNat = hi.toNat * 256 + lo.toNat := append_toNat hi lo

theorem loByte_toNat (v : Half) : (loByte v).toNat = v.toNat % 256 := by
  simp [loByte, BitVec.extractLsb'_toNat]

theorem hiByte_toNat (v : Half) : (hiByte v).toNat = v.toNat / 256 := by
  have := v.isLt
  simp [hiByte, BitVec.extractLsb'_toNat, Nat.shiftRight_eq_div_pow]; omega

@[simp] theorem loByte_half (hi lo : Byte) : loByte (half hi lo) = lo := by
  apply BitVec.eq_of_toNat_eq
  have := lo.isLt
  rw [loByte_toNat, half_toNat]; omega

@[simp] theorem hiByte_half (hi lo : Byte) : hiByte (half hi lo) = hi := by
  apply BitVec.eq_of_toNat_eq
  have := lo.isLt
  rw [hiByte_toNat, half_toNat]; omega

@[simp] theorem half_hi_lo (v : Half) : half (hiByte v) (loByte v) = v := by
  apply BitVec.eq_of_toNat_eq
  rw [half_toNat, hiByte_toNat, loByte_toNat]; omega

theorem half_inj {a b c d : Byte} : half a b = half c d ↔ a = c ∧ b = d := by
  constructor
  · intro h
    exact ⟨by simpa using congrArg hiByte h, by simpa using congrArg loByte h⟩
  · rintro ⟨rfl, rfl⟩; rfl

theorem le16_half (hi lo : Byte) : le16 (half hi lo) = [lo, hi] := by simp [le16]

namespace Machine

/-- A byte made of its bits, as a 32-bit number. -/
theorem bits8_word (b7 b6 b5 b4 b3 b2 b1 b0 : Bool) : (bits8 b7 b6 b5 b4 b3 b2 b1 b0).setWidth 32 =
    BitVec.ofNat 32 (128 * b7.toNat + 64 * b6.toNat + 32 * b5.toNat + 16 * b4.toNat + 8 * b3.toNat + 4 * b2.toNat
      + 2 * b1.toNat + b0.toNat) := by
  revert b7 b6 b5 b4 b3 b2 b1 b0; decide

/-- A byte read as a 32-bit number, by its value. -/
theorem word_of_toNat {v : Byte} {n : Nat} (h : v.toNat = n) : v.setWidth 32 = BitVec.ofNat 32 n := by
  subst h
  apply BitVec.eq_of_toNat_eq
  have := v.isLt
  simp

theorem devaddr_toNat (d : DevRegs) : d.devaddr.toNat = 128 * d.adden.toNat + d.uadd.toNat := by
  refine (append_toNat (BitVec.ofBool d.adden) d.uadd).trans ?_
  cases d.adden <;> simp

theorem devaddr_bit7 (d : DevRegs) : d.devaddr.getLsbD 7 = d.adden := by
  have h := devaddr_toNat d
  have := d.uadd.isLt
  rw [BitVec.getLsbD, Nat.testBit_eq_decide_div_mod_eq, h]
  cases d.adden <;> simp <;> omega

theorem epsel_toNat (d : DevRegs) : d.epsel.toNat = d.epnum.toNat := by
  refine (append_toNat (0 : BitVec 5) d.epnum).trans ?_
  simp

theorem epcfg0_toNat (e : Endpoint) : e.epcfg0.toNat = 64 * e.eptype.toNat + e.epdir.toNat := by
  refine (append_toNat (_ : BitVec 7) (BitVec.ofBool e.epdir)).trans ?_
  rw [append_toNat e.eptype (0 : BitVec 5)]
  cases e.epdir <;> simp <;> omega

theorem epcfg1_toNat (e : Endpoint) : e.epcfg1.toNat = 16 * e.epsize.toNat + 4 * e.epbk.toNat + 2 * e.alloc.toNat := by
  refine (append_toNat (_ : BitVec 7) (BitVec.ofBool false)).trans ?_
  rw [append_toNat (_ : BitVec 6) (BitVec.ofBool e.alloc), append_toNat (_ : BitVec 4) e.epbk,
    append_toNat (BitVec.ofBool false) e.epsize]
  cases e.alloc <;> simp <;> omega

theorem engstatus_toNat (s : State) : (engstatus s).toNat = s.enum.devState.code.toNat
    + 256 * s.enum.assignedAddr.toNat + 65536 * s.enum.configValue.toNat + 2 ^ 24 * (s.ctx == .halted).toNat
    + 2 ^ 25 * (!s.faults.isEmpty).toNat := by
  unfold engstatus
  refine (append_toNat (_ : BitVec 30) s.enum.devState.code).trans ?_
  rw [append_toNat (_ : BitVec 24) (0 : BitVec 6), append_toNat (_ : BitVec 17) s.enum.assignedAddr,
    append_toNat (_ : BitVec 16) (BitVec.ofBool false), append_toNat (_ : BitVec 8) s.enum.configValue,
    append_toNat (_ : BitVec 7), append_toNat (_ : BitVec 6)]
  cases (s.ctx == .halted) <;> cases (!s.faults.isEmpty) <;> simp <;> omega

/-- What `SA_APPLY` writes to `DEVADDR` (44_control_sequencer.md R304). -/
theorem uaddOf_apply (a : DevAddr) : uaddOf (0x80 ||| a.setWidth 8) = a := by revert a; decide

theorem adden_apply (a : DevAddr) : bitOf (0x80 ||| a.setWidth 8) 7 = true := by revert a; decide

end Machine

end Sys2Proof
end

