-- ==== Sys2Proof/Laws/Decode.lean ====
section
/-! SUPPORT. What each decoder answers on what the encoder writes, and the request key as two bytes. -/

namespace Sys2Proof

theorem requestKind_eq (K : Half) : requestKind K =
    if K &&& 0xFFFF = 0x0680 then .getDescriptor
    else if K &&& 0xFFFF = 0x0500 then .setAddress
    else if K &&& 0xFFFF = 0x0900 then .setConfiguration
    else if K &&& 0xFFFF = 0x0880 then .getConfiguration
    else if K &&& 0xFF00 = 0x0000 then .getStatus
    else .stallOther := by
  simp only [requestKind, requestRows, List.find?]
  by_cases h1 : K &&& 65535#16 = 1664#16
  · simp [h1]
  · by_cases h2 : K &&& 65535#16 = 1280#16
    · simp [h2]
    · by_cases h3 : K &&& 65535#16 = 2304#16
      · simp [h3]
      · by_cases h4 : K &&& 65535#16 = 2176#16
        · simp [h4]
        · by_cases h5 : K &&& 65280#16 = 0#16
          · simp [beq_eq_false_iff_ne.mpr h1, beq_eq_false_iff_ne.mpr h2, beq_eq_false_iff_ne.mpr h3, beq_eq_false_iff_ne.mpr h4, h1, h2, h3, h4, h5]
          · simp [beq_eq_false_iff_ne.mpr h1, beq_eq_false_iff_ne.mpr h2, beq_eq_false_iff_ne.mpr h3, beq_eq_false_iff_ne.mpr h4, beq_eq_false_iff_ne.mpr h5, h1, h2, h3, h4, h5]

theorem half_mask_hi (hi lo : Byte) : half hi lo &&& 0xFF00 = 0x0000 ↔ hi = 0 := by
  have h1 : half hi lo &&& (half 0xFF 0x00) = half (hi &&& 0xFF) (lo &&& 0x00) := BitVec.and_append
  rw [show (0xFF00 : Half) = half 0xFF 0x00 by decide, h1, show (0x0000 : Half) = half 0x00 0x00 by decide, half_inj]
  rw [show (0xFF : Byte) = BitVec.allOnes 8 by decide, BitVec.and_allOnes]
  simp

theorem requestKind_bytes (t r : Byte) : requestKind (half r t) =
    if r = 0x06 ∧ t = 0x80 then .getDescriptor
    else if r = 0x05 ∧ t = 0x00 then .setAddress
    else if r = 0x09 ∧ t = 0x00 then .setConfiguration
    else if r = 0x08 ∧ t = 0x80 then .getConfiguration
    else if r = 0x00 then .getStatus
    else .stallOther := by
  have hm : ∀ K : Half, K &&& 0xFFFF = K := fun K => by
    rw [show (0xFFFF : Half) = BitVec.allOnes 16 by decide, BitVec.and_allOnes]
  simp only [requestKind_eq, hm, half_mask_hi]
  simp only [show (0x0680 : Half) = half 0x06 0x80 by decide, show (0x0500 : Half) = half 0x05 0x00 by decide,
    show (0x0900 : Half) = half 0x09 0x00 by decide, show (0x0880 : Half) = half 0x08 0x80 by decide, half_inj]

theorem keyUnlisted_iff (t r : Byte) : keyUnlisted t r = true ↔ requestKind (half r t) = .stallOther := by
  rw [requestKind_bytes]
  simp only [keyUnlisted]
  repeat' split
  all_goals simp_all
  next h1 h2 h3 h4 h5 => exact ⟨⟨⟨not_and_or.mp (not_and.mpr h1), not_and_or.mp (not_and.mpr h2)⟩, not_and_or.mp (not_and.mpr h3)⟩, not_and_or.mp (not_and.mpr h4)⟩

theorem low7 (a : DevAddr) : ¬ (0x80 : Byte) ≤ a.setWidth 8 := by revert a; decide
theorem low4 (a : EpNum) : ¬ (0x10 : Byte) ≤ a.setWidth 8 := by revert a; decide

theorem decodeToken_enc (k : DevAddr → EpNum → List Byte → Decoded) (a : DevAddr) (e : EpNum) (rest : List Byte) :
    decodeToken k (a.setWidth 8 :: e.setWidth 8 :: rest) = k a e rest := by
  simp only [decodeToken, if_neg (low7 a), if_neg (low4 e)]
  simp

theorem decodeSetup_enc (t r : Byte) (v i l : Half) (rest : List Byte) :
    decodeSetup ([t, r] ++ le16 v ++ le16 i ++ le16 l ++ rest) = .ok (requestOf t r v i l) rest := by
  simp [le16, decodeSetup]

theorem decodeOutData_enc (a e) (d rest : List Byte) (h : d.length ≤ 64) :
    decodeOutData a e (BitVec.ofNat 8 d.length :: d ++ rest) = .ok (.outToken a e d) rest := by
  have : (BitVec.ofNat 8 d.length).toNat = d.length := by simp; omega
  simp only [List.cons_append, decodeOutData, this, if_neg (show ¬ 64 < d.length by omega)]
  simp


theorem other_word (w : Half) (h : listedWords.contains w = false) (rest : List Byte) :
    decodeReg (le16 w ++ rest) = .ok (.otherRegOp w false) rest := by
  have hw : w = half (hiByte w) (loByte w) := (half_hi_lo w).symm
  have hl : ∀ hi lo : Byte, (hi = 0 ∨ hi = 0x80) → regOf lo ≠ none → listedWords.contains (half hi lo) = true := by
    intro hi lo hh
    rcases hh with rfl | rfl <;> (revert lo; decide)
  show decodeReg (loByte w :: hiByte w :: rest) = _
  have hr : ∀ (hh : hiByte w = 0 ∨ hiByte w = 0x80), regOf (loByte w) = none := by
    intro hh
    by_contra hne
    have := hl _ _ hh hne
    rw [← hw] at this
    rw [this] at h; cases h
  simp only [decodeReg]
  split
  · next h0 => rw [hr (.inl h0)]; simp
  · split
    · next h0 => rw [hr (.inr h0)]; simp
    · simp

/-- The number of a register (10_state.md R25 to R45). -/
def regNum : Reg → Byte
  | .pllctl => 0 | .devctl => 1 | .devint => 2 | .devinten => 3 | .devaddr => 4 | .eptogrst => 5 | .epsel => 6
  | .epctl => 0x10 | .epcfg0 => 0x11 | .epcfg1 => 0x12 | .epsta => 0x13 | .epint => 0x14 | .epinten => 0x15
  | .epdata => 0x16 | .epbcnt => 0x17 | .engstatus => 0x20
theorem regOf_num {lo : Byte} {r : Reg} (h : regOf lo = some r) : lo = regNum r := by
  have : ∀ lo : Byte, ∀ r ∈ regOf lo, lo = regNum r := by decide
  exact this lo r h

end Sys2Proof
end

