-- ==== Sys2Proof/Laws/State.lean ====
section
/-! SUPPORT. One lemma per field for each named update of State, so that no proof unfolds a record update. -/

namespace Sys2Proof.Machine

/-! ### `raise` -/

@[simp] theorem raise_cfg (k : FaultKind) (s : State) : (raise k s).cfg = s.cfg := rfl
@[simp] theorem raise_latch (k : FaultKind) (s : State) : (raise k s).latch = s.latch := rfl
@[simp] theorem raise_work (k : FaultKind) (s : State) : (raise k s).work = s.work := rfl
@[simp] theorem raise_seq (k : FaultKind) (s : State) : (raise k s).seq = .halted := rfl
@[simp] theorem raise_ctx (k : FaultKind) (s : State) : (raise k s).ctx = .halted := rfl
@[simp] theorem raise_enum (k : FaultKind) (s : State) : (raise k s).enum = s.enum := rfl
@[simp] theorem raise_dev (k : FaultKind) (s : State) : (raise k s).dev = s.dev := rfl
@[simp] theorem raise_eps (k : FaultKind) (s : State) : (raise k s).eps = s.eps := rfl
@[simp] theorem raise_faults (k : FaultKind) (s : State) : (raise k s).faults = insertFault k s.faults := rfl
@[simp] theorem raise_rom (k : FaultKind) (s : State) : (raise k s).rom = s.rom := rfl
@[simp] theorem raise_rdData (k : FaultKind) (s : State) : (raise k s).rdData = s.rdData := rfl
@[simp] theorem raise_mainData (k : FaultKind) (s : State) : (raise k s).mainData = s.mainData := rfl
@[simp] theorem raise_history (k : FaultKind) (s : State) : (raise k s).history = s.history := rfl
@[simp] theorem raise_turns (k : FaultKind) (s : State) : (raise k s).turns = s.turns := rfl

/-! ### `returnIdle` -/

@[simp] theorem returnIdle_cfg (s : State) : (returnIdle s).cfg = s.cfg := rfl
@[simp] theorem returnIdle_latch (s : State) : (returnIdle s).latch = s.latch := rfl
@[simp] theorem returnIdle_work (s : State) : (returnIdle s).work = s.work := rfl
@[simp] theorem returnIdle_seq (s : State) : (returnIdle s).seq = .idle := rfl
@[simp] theorem returnIdle_ctx (s : State) : (returnIdle s).ctx = .idle := rfl
@[simp] theorem returnIdle_enum (s : State) : (returnIdle s).enum = s.enum := rfl
@[simp] theorem returnIdle_dev (s : State) : (returnIdle s).dev = s.dev := rfl
@[simp] theorem returnIdle_eps (s : State) : (returnIdle s).eps = s.eps := rfl
@[simp] theorem returnIdle_faults (s : State) : (returnIdle s).faults = s.faults := rfl
@[simp] theorem returnIdle_rom (s : State) : (returnIdle s).rom = s.rom := rfl
@[simp] theorem returnIdle_rdData (s : State) : (returnIdle s).rdData = s.rdData := rfl
@[simp] theorem returnIdle_mainData (s : State) : (returnIdle s).mainData = s.mainData := rfl
@[simp] theorem returnIdle_history (s : State) : (returnIdle s).history = s.history := rfl
@[simp] theorem returnIdle_turns (s : State) : (returnIdle s).turns = s.turns := rfl

/-! ### `goto` -/

@[simp] theorem goto_cfg (q : Seq) (s : State) : (goto q s).cfg = s.cfg := rfl
@[simp] theorem goto_latch (q : Seq) (s : State) : (goto q s).latch = s.latch := rfl
@[simp] theorem goto_work (q : Seq) (s : State) : (goto q s).work = s.work := rfl
@[simp] theorem goto_seq (q : Seq) (s : State) : (goto q s).seq = q := rfl
@[simp] theorem goto_ctx (q : Seq) (s : State) : (goto q s).ctx = s.ctx := rfl
@[simp] theorem goto_enum (q : Seq) (s : State) : (goto q s).enum = s.enum := rfl
@[simp] theorem goto_dev (q : Seq) (s : State) : (goto q s).dev = s.dev := rfl
@[simp] theorem goto_eps (q : Seq) (s : State) : (goto q s).eps = s.eps := rfl
@[simp] theorem goto_faults (q : Seq) (s : State) : (goto q s).faults = s.faults := rfl
@[simp] theorem goto_rom (q : Seq) (s : State) : (goto q s).rom = s.rom := rfl
@[simp] theorem goto_rdData (q : Seq) (s : State) : (goto q s).rdData = s.rdData := rfl
@[simp] theorem goto_mainData (q : Seq) (s : State) : (goto q s).mainData = s.mainData := rfl
@[simp] theorem goto_history (q : Seq) (s : State) : (goto q s).history = s.history := rfl
@[simp] theorem goto_turns (q : Seq) (s : State) : (goto q s).turns = s.turns := rfl

/-! ### `sees` -/

@[simp] theorem sees_cfg (x : Answer) (s : State) : (sees x s).cfg = s.cfg := rfl
@[simp] theorem sees_latch (x : Answer) (s : State) : (sees x s).latch = s.latch := rfl
@[simp] theorem sees_work (x : Answer) (s : State) : (sees x s).work = s.work := rfl
@[simp] theorem sees_seq (x : Answer) (s : State) : (sees x s).seq = s.seq := rfl
@[simp] theorem sees_ctx (x : Answer) (s : State) : (sees x s).ctx = s.ctx := rfl
@[simp] theorem sees_enum (x : Answer) (s : State) : (sees x s).enum = s.enum := rfl
@[simp] theorem sees_dev (x : Answer) (s : State) : (sees x s).dev = s.dev := rfl
@[simp] theorem sees_eps (x : Answer) (s : State) : (sees x s).eps = s.eps := rfl
@[simp] theorem sees_faults (x : Answer) (s : State) : (sees x s).faults = s.faults := rfl
@[simp] theorem sees_rom (x : Answer) (s : State) : (sees x s).rom = s.rom := rfl
@[simp] theorem sees_rdData (x : Answer) (s : State) : (sees x s).rdData = s.rdData := rfl
@[simp] theorem sees_mainData (x : Answer) (s : State) : (sees x s).mainData = s.mainData := rfl
@[simp] theorem sees_history (x : Answer) (s : State) : (sees x s).history = x :: s.history := rfl
@[simp] theorem sees_turns (x : Answer) (s : State) : (sees x s).turns = s.turns := rfl

/-! ### `returns` -/

@[simp] theorem returns_cfg (v : Byte) (s : State) : (returns v s).cfg = s.cfg := rfl
@[simp] theorem returns_latch (v : Byte) (s : State) : (returns v s).latch = s.latch := rfl
@[simp] theorem returns_work (v : Byte) (s : State) : (returns v s).work = s.work := rfl
@[simp] theorem returns_seq (v : Byte) (s : State) : (returns v s).seq = s.seq := rfl
@[simp] theorem returns_ctx (v : Byte) (s : State) : (returns v s).ctx = s.ctx := rfl
@[simp] theorem returns_enum (v : Byte) (s : State) : (returns v s).enum = s.enum := rfl
@[simp] theorem returns_dev (v : Byte) (s : State) : (returns v s).dev = s.dev := rfl
@[simp] theorem returns_eps (v : Byte) (s : State) : (returns v s).eps = s.eps := rfl
@[simp] theorem returns_faults (v : Byte) (s : State) : (returns v s).faults = s.faults := rfl
@[simp] theorem returns_rom (v : Byte) (s : State) : (returns v s).rom = s.rom := rfl
@[simp] theorem returns_rdData (v : Byte) (s : State) : (returns v s).rdData = v.setWidth 32 := rfl
@[simp] theorem returns_mainData (v : Byte) (s : State) : (returns v s).mainData = s.mainData := rfl
@[simp] theorem returns_history (v : Byte) (s : State) : (returns v s).history = s.history := rfl
@[simp] theorem returns_turns (v : Byte) (s : State) : (returns v s).turns = s.turns := rfl

/-! ### `setEp` -/

@[simp] theorem setEp_cfg (n : EpNum) (e : Endpoint) (s : State) : (setEp n e s).cfg = s.cfg := rfl
@[simp] theorem setEp_latch (n : EpNum) (e : Endpoint) (s : State) : (setEp n e s).latch = s.latch := rfl
@[simp] theorem setEp_work (n : EpNum) (e : Endpoint) (s : State) : (setEp n e s).work = s.work := rfl
@[simp] theorem setEp_seq (n : EpNum) (e : Endpoint) (s : State) : (setEp n e s).seq = s.seq := rfl
@[simp] theorem setEp_ctx (n : EpNum) (e : Endpoint) (s : State) : (setEp n e s).ctx = s.ctx := rfl
@[simp] theorem setEp_enum (n : EpNum) (e : Endpoint) (s : State) : (setEp n e s).enum = s.enum := rfl
@[simp] theorem setEp_dev (n : EpNum) (e : Endpoint) (s : State) : (setEp n e s).dev = s.dev := rfl
@[simp] theorem setEp_eps (n : EpNum) (e : Endpoint) (s : State) : (setEp n e s).eps = s.eps.set n.toNat e := rfl
@[simp] theorem setEp_faults (n : EpNum) (e : Endpoint) (s : State) : (setEp n e s).faults = s.faults := rfl
@[simp] theorem setEp_rom (n : EpNum) (e : Endpoint) (s : State) : (setEp n e s).rom = s.rom := rfl
@[simp] theorem setEp_rdData (n : EpNum) (e : Endpoint) (s : State) : (setEp n e s).rdData = s.rdData := rfl
@[simp] theorem setEp_mainData (n : EpNum) (e : Endpoint) (s : State) : (setEp n e s).mainData = s.mainData := rfl
@[simp] theorem setEp_history (n : EpNum) (e : Endpoint) (s : State) : (setEp n e s).history = s.history := rfl
@[simp] theorem setEp_turns (n : EpNum) (e : Endpoint) (s : State) : (setEp n e s).turns = s.turns := rfl

/-! ### `storeRead` -/

@[simp] theorem storeRead_cfg (k : Fin 8) (s : State) : (storeRead k s).cfg = s.cfg := rfl
@[simp] theorem storeRead_latch (k : Fin 8) (s : State) : (storeRead k s).latch = s.latch.store k (s.rdData.setWidth 8) := rfl
@[simp] theorem storeRead_work (k : Fin 8) (s : State) : (storeRead k s).work = s.work := rfl
@[simp] theorem storeRead_seq (k : Fin 8) (s : State) : (storeRead k s).seq = afterRead k := rfl
@[simp] theorem storeRead_ctx (k : Fin 8) (s : State) : (storeRead k s).ctx = s.ctx := rfl
@[simp] theorem storeRead_enum (k : Fin 8) (s : State) : (storeRead k s).enum = s.enum := rfl
@[simp] theorem storeRead_dev (k : Fin 8) (s : State) : (storeRead k s).dev = s.dev := rfl
@[simp] theorem storeRead_eps (k : Fin 8) (s : State) : (storeRead k s).eps = s.eps := rfl
@[simp] theorem storeRead_faults (k : Fin 8) (s : State) : (storeRead k s).faults = s.faults := rfl
@[simp] theorem storeRead_rom (k : Fin 8) (s : State) : (storeRead k s).rom = s.rom := rfl
@[simp] theorem storeRead_rdData (k : Fin 8) (s : State) : (storeRead k s).rdData = s.rdData := rfl
@[simp] theorem storeRead_mainData (k : Fin 8) (s : State) : (storeRead k s).mainData = s.mainData := rfl
@[simp] theorem storeRead_history (k : Fin 8) (s : State) : (storeRead k s).history = s.history := rfl
@[simp] theorem storeRead_turns (k : Fin 8) (s : State) : (storeRead k s).turns = s.turns := rfl

/-! ### `applyAddress` -/

@[simp] theorem applyAddress_cfg (s : State) : (applyAddress s).cfg = s.cfg := rfl
@[simp] theorem applyAddress_latch (s : State) : (applyAddress s).latch = s.latch := rfl
@[simp] theorem applyAddress_work (s : State) : (applyAddress s).work = s.work := rfl
@[simp] theorem applyAddress_seq (s : State) : (applyAddress s).seq = .ret := rfl
@[simp] theorem applyAddress_ctx (s : State) : (applyAddress s).ctx = s.ctx := rfl
@[simp] theorem applyAddress_enum (s : State) : (applyAddress s).enum = { s.enum with assignedAddr := s.work.pendingAddr, devState := .addressed } := rfl
@[simp] theorem applyAddress_dev (s : State) : (applyAddress s).dev = s.dev := rfl
@[simp] theorem applyAddress_eps (s : State) : (applyAddress s).eps = s.eps := rfl
@[simp] theorem applyAddress_faults (s : State) : (applyAddress s).faults = s.faults := rfl
@[simp] theorem applyAddress_rom (s : State) : (applyAddress s).rom = s.rom := rfl
@[simp] theorem applyAddress_rdData (s : State) : (applyAddress s).rdData = s.rdData := rfl
@[simp] theorem applyAddress_mainData (s : State) : (applyAddress s).mainData = s.mainData := rfl
@[simp] theorem applyAddress_history (s : State) : (applyAddress s).history = s.history := rfl
@[simp] theorem applyAddress_turns (s : State) : (applyAddress s).turns = s.turns := rfl

/-! ### `startPacket` -/

@[simp] theorem startPacket_cfg (s : State) : (startPacket s).cfg = s.cfg := rfl
@[simp] theorem startPacket_latch (s : State) : (startPacket s).latch = s.latch := rfl
@[simp] theorem startPacket_work (s : State) : (startPacket s).work = { s.work with packet := packetSize s.work.remaining, i := 0 } := rfl
@[simp] theorem startPacket_seq (s : State) : (startPacket s).seq = .strWrite := rfl
@[simp] theorem startPacket_ctx (s : State) : (startPacket s).ctx = s.ctx := rfl
@[simp] theorem startPacket_enum (s : State) : (startPacket s).enum = s.enum := rfl
@[simp] theorem startPacket_dev (s : State) : (startPacket s).dev = s.dev := rfl
@[simp] theorem startPacket_eps (s : State) : (startPacket s).eps = s.eps := rfl
@[simp] theorem startPacket_faults (s : State) : (startPacket s).faults = s.faults := rfl
@[simp] theorem startPacket_rom (s : State) : (startPacket s).rom = s.rom := rfl
@[simp] theorem startPacket_rdData (s : State) : (startPacket s).rdData = s.rdData := rfl
@[simp] theorem startPacket_mainData (s : State) : (startPacket s).mainData = s.mainData := rfl
@[simp] theorem startPacket_history (s : State) : (startPacket s).history = s.history := rfl
@[simp] theorem startPacket_turns (s : State) : (startPacket s).turns = s.turns := rfl

/-! ### `State.withSelected` -/

@[simp] theorem withSelected_cfg (s : State) (e : Endpoint) : (s.withSelected e).cfg = s.cfg := rfl
@[simp] theorem withSelected_latch (s : State) (e : Endpoint) : (s.withSelected e).latch = s.latch := rfl
@[simp] theorem withSelected_work (s : State) (e : Endpoint) : (s.withSelected e).work = s.work := rfl
@[simp] theorem withSelected_seq (s : State) (e : Endpoint) : (s.withSelected e).seq = s.seq := rfl
@[simp] theorem withSelected_ctx (s : State) (e : Endpoint) : (s.withSelected e).ctx = s.ctx := rfl
@[simp] theorem withSelected_enum (s : State) (e : Endpoint) : (s.withSelected e).enum = s.enum := rfl
@[simp] theorem withSelected_dev (s : State) (e : Endpoint) : (s.withSelected e).dev = s.dev := rfl
@[simp] theorem withSelected_eps (s : State) (e : Endpoint) : (s.withSelected e).eps = s.eps.set s.dev.epnum.toNat e := rfl
@[simp] theorem withSelected_faults (s : State) (e : Endpoint) : (s.withSelected e).faults = s.faults := rfl
@[simp] theorem withSelected_rom (s : State) (e : Endpoint) : (s.withSelected e).rom = s.rom := rfl
@[simp] theorem withSelected_rdData (s : State) (e : Endpoint) : (s.withSelected e).rdData = s.rdData := rfl
@[simp] theorem withSelected_mainData (s : State) (e : Endpoint) : (s.withSelected e).mainData = s.mainData := rfl
@[simp] theorem withSelected_history (s : State) (e : Endpoint) : (s.withSelected e).history = s.history := rfl
@[simp] theorem withSelected_turns (s : State) (e : Endpoint) : (s.withSelected e).turns = s.turns := rfl

/-! ### `State.withEp0` -/

@[simp] theorem withEp0_cfg (s : State) (e : Endpoint) : (s.withEp0 e).cfg = s.cfg := rfl
@[simp] theorem withEp0_latch (s : State) (e : Endpoint) : (s.withEp0 e).latch = s.latch := rfl
@[simp] theorem withEp0_work (s : State) (e : Endpoint) : (s.withEp0 e).work = s.work := rfl
@[simp] theorem withEp0_seq (s : State) (e : Endpoint) : (s.withEp0 e).seq = s.seq := rfl
@[simp] theorem withEp0_ctx (s : State) (e : Endpoint) : (s.withEp0 e).ctx = s.ctx := rfl
@[simp] theorem withEp0_enum (s : State) (e : Endpoint) : (s.withEp0 e).enum = s.enum := rfl
@[simp] theorem withEp0_dev (s : State) (e : Endpoint) : (s.withEp0 e).dev = s.dev := rfl
@[simp] theorem withEp0_eps (s : State) (e : Endpoint) : (s.withEp0 e).eps = s.eps.set 0 e := rfl
@[simp] theorem withEp0_faults (s : State) (e : Endpoint) : (s.withEp0 e).faults = s.faults := rfl
@[simp] theorem withEp0_rom (s : State) (e : Endpoint) : (s.withEp0 e).rom = s.rom := rfl
@[simp] theorem withEp0_rdData (s : State) (e : Endpoint) : (s.withEp0 e).rdData = s.rdData := rfl
@[simp] theorem withEp0_mainData (s : State) (e : Endpoint) : (s.withEp0 e).mainData = s.mainData := rfl
@[simp] theorem withEp0_history (s : State) (e : Endpoint) : (s.withEp0 e).history = s.history := rfl
@[simp] theorem withEp0_turns (s : State) (e : Endpoint) : (s.withEp0 e).turns = s.turns := rfl

end Sys2Proof.Machine
end

