-- ==== Sys2Proof/Laws/Ops.lean ====
section
/-! SUPPORT. What each shared operation can do, said once. -/

namespace Sys2Proof.Machine

/-! ### Ending a register operation -/

@[simp] theorem finish_ok (s t : State) : finish s (.ok t) = .next t := rfl

@[simp] theorem finish_error (s : State) (k : FaultKind) : finish s (.error k) = .next (raise k s) := rfl

/-- A register operation always gives a next state: its effect, or a fault raised on the state before it. -/
theorem finish_next {s t : State} {r : OpResult} (h : finish s r = .next t) :
    r = .ok t ∨ ∃ k, r = .error k ∧ t = raise k s := by
  cases r with
  | ok u => exact .inl (by simpa using h)
  | error k => exact .inr ⟨k, rfl, by simpa using h.symm⟩

theorem finish_not_fault {s : State} {r : OpResult} {f : Fault} : finish s r ≠ .fault f := by
  cases r <;> simp [finish]

theorem finish_not_refused {s : State} {r : OpResult} {f : Refusal} : finish s r ≠ .refused f := by
  cases r <;> simp [finish]

theorem engineOp_ok {op : State → OpResult} {s t : State} (h : s.ctx ≠ .halted) (ho : op s = .ok t) :
    engineOp op s = .next t := by
  simp [engineOp, h, ho]

theorem engineOp_error {op : State → OpResult} {s : State} {k : FaultKind} (h : s.ctx ≠ .halted)
    (ho : op s = .error k) : engineOp op s = .next (raise k s) := by
  simp [engineOp, h, ho]

@[simp] theorem engineOp_halted {op : State → OpResult} {s : State} (h : s.ctx = .halted) :
    engineOp op s = .next s := by
  simp [engineOp, h]

theorem engineOp_next {op : State → OpResult} {s t : State} (h : engineOp op s = .next t) :
    (s.ctx = .halted ∧ t = s) ∨ (s.ctx ≠ .halted ∧ op s = .ok t) ∨
      (s.ctx ≠ .halted ∧ ∃ k, op s = .error k ∧ t = raise k s) := by
  by_cases hc : s.ctx = .halted
  · exact .inl ⟨hc, by simpa [hc] using h.symm⟩
  · simp only [engineOp, hc, if_false] at h
    rcases finish_next h with h | h
    · exact .inr (.inl ⟨hc, h⟩)
    · exact .inr (.inr ⟨hc, h⟩)

theorem thenGo_ok {s t : State} {r : OpResult} {q : Seq} (h : r = .ok t) :
    thenGo s r q = .next { t with seq := q } := by
  subst h; rfl

theorem thenGo_error {s : State} {r : OpResult} {q : Seq} {k : FaultKind} (h : r = .error k) :
    thenGo s r q = .next (raise k s) := by
  subst h; rfl

/-- Mapping over the effect of an operation. -/
theorem map_ok_iff {r : OpResult} {f : State → State} {t : State} :
    Except.map f r = .ok t ↔ ∃ u, r = .ok u ∧ t = f u := by
  cases r with
  | error k => simp [Except.map]
  | ok u => simp [Except.map, eq_comm]

theorem map_error_iff {r : OpResult} {f : State → State} {k : FaultKind} :
    Except.map f r = .error k ↔ r = .error k := by
  cases r <;> simp [Except.map]

/-! ### Banks -/

theorem modify_eq_set {l : List Bank} {i : Nat} {b : Bank} {f : Bank → Bank} (h : l[i]? = some b) :
    l.modify i f = l.set i (f b) := by
  apply List.ext_getElem?
  intro j
  rw [List.getElem?_modify, List.getElem?_set]
  by_cases hij : i = j
  · subst hij
    obtain ⟨hl, rfl⟩ := List.getElem?_eq_some_iff.mp h
    simp [hl]
  · simp [hij]

theorem setCurrent_of {e : Endpoint} {b : Bank} {d : List Byte} (h : e.banks[e.fill]? = some b) :
    e.setCurrent d = { e with banks := e.banks.set e.fill ⟨d, b.committed⟩ } := by
  simp [Endpoint.setCurrent, modify_eq_set h]

theorem setCurrent_none {e : Endpoint} {d : List Byte} (h : e.banks[e.fill]? = none) : e.setCurrent d = e := by
  have : e.banks.modify e.fill (fun b => { b with data := d }) = e.banks := by
    apply List.ext_getElem?
    intro j
    rw [List.getElem?_modify]
    by_cases hij : e.fill = j
    · subst hij; simp [h]
    · simp [hij]
  simp [Endpoint.setCurrent, this]

theorem current_of {e : Endpoint} {b : Bank} (h : e.banks[e.fill]? = some b) : e.current = b.data := by
  simp [Endpoint.current, h]

theorem commit_of {e : Endpoint} {b : Bank} (h : e.banks[e.fill]? = some b) :
    e.commit = { e with banks := e.banks.set e.fill ⟨b.data, true⟩, fill := (e.fill + 1) % e.nbanks } := by
  simp [Endpoint.commit, h, modify_eq_set h]

theorem commit_none {e : Endpoint} (h : e.banks[e.fill]? = none) : e.commit = e := by
  simp [Endpoint.commit, h]

/-! ### The selected endpoint -/

theorem onSelected_ok {f : Endpoint → Except FaultKind Endpoint} {s : State} {e e' : Endpoint}
    (h : s.selected = some e) (hf : f e = .ok e') : onSelected f s = .ok (s.withSelected e') := by
  unfold State.selected at h
  simp [onSelected, h, hf, State.withSelected]

theorem onSelected_error {f : Endpoint → Except FaultKind Endpoint} {s : State} {e : Endpoint} {k : FaultKind}
    (h : s.selected = some e) (hf : f e = .error k) : onSelected f s = .error k := by
  unfold State.selected at h
  simp [onSelected, h, hf]

theorem onSelected_none {f : Endpoint → Except FaultKind Endpoint} {s : State} (h : s.selected = none) :
    onSelected f s = .error .badEndpoint := by
  unfold State.selected at h
  simp [onSelected, h]

theorem readSelected_ok {f : Endpoint → Byte} {s : State} {e : Endpoint} (h : s.selected = some e) :
    readSelected f s = .ok (returns (f e) s) := by
  unfold State.selected at h
  simp [readSelected, h]

theorem readSelected_none {f : Endpoint → Byte} {s : State} (h : s.selected = none) :
    readSelected f s = .error .badEndpoint := by
  unfold State.selected at h
  simp [readSelected, h]

theorem onSelected_cases {f : Endpoint → Except FaultKind Endpoint} {s : State} :
    (s.selected = none ∧ onSelected f s = .error .badEndpoint) ∨
    (∃ e k, s.selected = some e ∧ f e = .error k ∧ onSelected f s = .error k) ∨
    (∃ e e', s.selected = some e ∧ f e = .ok e' ∧ onSelected f s = .ok (s.withSelected e')) := by
  cases h : s.selected with
  | none => exact .inl ⟨rfl, onSelected_none h⟩
  | some e =>
    cases hf : f e with
    | error k => exact .inr (.inl ⟨e, k, rfl, hf, onSelected_error h hf⟩)
    | ok e' => exact .inr (.inr ⟨e, e', rfl, hf, onSelected_ok h hf⟩)

/-! ### The frame of a register operation -/

/-- A register operation changes nothing but the device-level registers, the endpoints and the value read. -/
structure OpFrame (s t : State) : Prop where
  same : t = { s with dev := t.dev, eps := t.eps, rdData := t.rdData }
  count : t.eps.length = s.eps.length

theorem OpFrame.returns (v : Byte) (s : State) : OpFrame s (returns v s) := ⟨rfl, rfl⟩

theorem OpFrame.dev (d : DevRegs) (s : State) : OpFrame s { s with dev := d } := ⟨rfl, rfl⟩

theorem OpFrame.withSelected (e : Endpoint) (s : State) : OpFrame s (s.withSelected e) :=
  ⟨rfl, by simp⟩

theorem onSelected_frame {f : Endpoint → Except FaultKind Endpoint} {s t : State} (h : onSelected f s = .ok t) :
    OpFrame s t := by
  rcases onSelected_cases (f := f) (s := s) with ⟨_, h'⟩ | ⟨e, k, _, _, h'⟩ | ⟨e, e', _, _, h'⟩
  · simp [h'] at h
  · simp [h'] at h
  · rw [h'] at h; cases h; exact OpFrame.withSelected _ _

theorem readSelected_frame {f : Endpoint → Byte} {s t : State} (h : readSelected f s = .ok t) : OpFrame s t := by
  cases hs : s.selected with
  | none => simp [readSelected_none hs] at h
  | some e => rw [readSelected_ok hs] at h; cases h; exact OpFrame.returns _ _

theorem rdEpdata_ok {s : State} {e e' : Endpoint} {b : Byte} (h : s.selected = some e) (hp : e.popData = .ok (b, e')) :
    rdEpdata s = .ok (returns b (s.withSelected e')) := by
  unfold State.selected at h
  simp [rdEpdata, h, hp, State.withSelected]

theorem rdEpdata_error {s : State} {e : Endpoint} {k : FaultKind} (h : s.selected = some e)
    (hp : e.popData = .error k) : rdEpdata s = .error k := by
  unfold State.selected at h
  simp [rdEpdata, h, hp]

theorem rdEpdata_none {s : State} (h : s.selected = none) : rdEpdata s = .error .badEndpoint := by
  unfold State.selected at h
  simp [rdEpdata, h]

theorem rdEpdata_frame {s t : State} (h : rdEpdata s = .ok t) : OpFrame s t := by
  cases hs : s.selected with
  | none => simp [rdEpdata_none hs] at h
  | some e =>
    cases hp : e.popData with
    | error k => simp [rdEpdata_error hs hp] at h
    | ok r =>
      obtain ⟨b, e'⟩ := r
      rw [rdEpdata_ok hs hp] at h; cases h
      exact ⟨rfl, by simp⟩

theorem wrEptogrst_frame {v : Byte} {s t : State} (h : wrEptogrst v s = .ok t) : OpFrame s t := by
  simp only [wrEptogrst, Except.ok.injEq] at h
  subst h
  exact ⟨rfl, by simp⟩

theorem raise_ctx_seq (k : FaultKind) (s : State) : (raise k s).ctx = .halted ∧ (raise k s).seq = .halted := ⟨rfl, rfl⟩

/-- Raising a fault adds its kind and keeps the others (60_exceptions.md R372, 10_state.md R43). -/
theorem mem_insertFault {k x : FaultKind} {l : List FaultKind} : x ∈ insertFault k l ↔ x = k ∨ x ∈ l := by
  induction l with
  | nil => simp [insertFault]
  | cons y l ih =>
    unfold insertFault
    split
    · simp
    · split
      · next h => subst h; simp
      · simp [ih]; tauto

end Sys2Proof.Machine
end

