-- ==== Sys2Proof/Laws/Endpoint.lean ====
section
/-! SUPPORT. What each endpoint operation can do, and that each keeps a well-formed endpoint. -/

namespace Sys2Proof.Machine

/-! ### Allocation (41_register_interface.md R200) -/

theorem writeCfg1_of_legal {e : Endpoint} {v : Byte} (ha : bitOf v 1 = true) (he : e.epen = true)
    (hs : epsizeOf v ≤ 3) (hb : epbkOf v ≤ 1) :
    e.writeCfg1 v = { e with
      epsize := epsizeOf v, epbk := epbkOf v, alloc := true,
      banks := List.replicate ((epbkOf v).toNat + 1) ⟨[], false⟩, fill := 0, send := 0,
      txini := false, rxouti := false, rxstpi := false, cfgok := true } := by
  have hc : (bitOf v 1 && e.epen && decide (epsizeOf v ≤ 3) && decide (epbkOf v ≤ 1)) = true := by
    rw [ha, he, decide_eq_true hs, decide_eq_true hb]; rfl
  unfold Endpoint.writeCfg1
  refine (if_pos hc).trans ?_
  rw [ha]; rfl

theorem writeCfg1_of_illegal {e : Endpoint} {v : Byte}
    (h : ¬(bitOf v 1 = true ∧ e.epen = true ∧ epsizeOf v ≤ 3 ∧ epbkOf v ≤ 1)) :
    e.writeCfg1 v = { e with
      epsize := epsizeOf v, epbk := epbkOf v, alloc := bitOf v 1, banks := [], cfgok := false } := by
  have hc : ¬(bitOf v 1 && e.epen && decide (epsizeOf v ≤ 3) && decide (epbkOf v ≤ 1)) = true := by
    intro hc
    simp only [Bool.and_eq_true, decide_eq_true_eq] at hc
    exact h ⟨hc.1.1.1, hc.1.1.2, hc.1.2, hc.2⟩
  unfold Endpoint.writeCfg1
  exact (if_neg hc).trans rfl

/-! ### Well-formed endpoints -/

theorem wf_of_no_banks {e : Endpoint} (hc : e.cfgok = false) (hb : e.banks = []) : e.Wf :=
  ⟨fun h => by simp [hc] at h, fun _ => hb, by simp [hb]⟩

theorem Endpoint.reset_wf : Endpoint.reset.Wf := wf_of_no_banks rfl rfl

theorem Endpoint.deactivate_wf (e : Endpoint) : e.deactivate.Wf := wf_of_no_banks rfl rfl

theorem Endpoint.busReset_wf (e : Endpoint) : e.busReset.Wf := wf_of_no_banks rfl rfl

/-- Well-formedness reads only these fields. -/
theorem Endpoint.Wf.of_same {e f : Endpoint} (h : e.Wf) (h1 : f.epen = e.epen) (h2 : f.alloc = e.alloc)
    (h3 : f.epsize = e.epsize) (h4 : f.epbk = e.epbk) (h5 : f.cfgok = e.cfgok) (h6 : f.banks = e.banks)
    (h7 : f.fill = e.fill) (h8 : f.send = e.send) : f.Wf := by
  have hn : f.nbanks = e.nbanks := by simp [Endpoint.nbanks, h4]
  have hz : f.size = e.size := by simp [Endpoint.size, h3]
  constructor
  · rw [h1, h2, h3, h4, h5, h6, h7, h8, hn]; exact h.allocated
  · rw [h5, h6]; exact h.released
  · rw [h6, hz]; exact h.bounded

/-- Other banks of the same number, each within the size, keep a well-formed endpoint. -/
theorem Endpoint.Wf.of_banks {e f : Endpoint} (h : e.Wf) (h1 : f.epen = e.epen) (h2 : f.alloc = e.alloc)
    (h3 : f.epsize = e.epsize) (h4 : f.epbk = e.epbk) (h5 : f.cfgok = e.cfgok)
    (h6 : f.banks.length = e.banks.length) (h7 : e.cfgok = true → f.fill < e.nbanks)
    (h8 : e.cfgok = true → f.send < e.nbanks) (h9 : ∀ b ∈ f.banks, b.data.length ≤ e.size) : f.Wf := by
  have hn : f.nbanks = e.nbanks := by simp [Endpoint.nbanks, h4]
  have hz : f.size = e.size := by simp [Endpoint.size, h3]
  constructor
  · intro hc
    rw [h5] at hc
    have ha := h.allocated hc
    rw [h1, h2, h3, h4, h6, hn]
    exact ⟨ha.1, ha.2.1, ha.2.2.1, ha.2.2.2.1, ha.2.2.2.2.1, h7 hc, h8 hc⟩
  · intro hc
    rw [h5] at hc
    have hb := h.released hc
    rw [hb] at h6
    exact List.length_eq_zero_iff.mp h6
  · rw [hz]; exact h9

theorem Endpoint.nbanks_pos (e : Endpoint) : 0 < e.nbanks := Nat.succ_pos _

theorem Endpoint.eight_le_size (e : Endpoint) : 8 ≤ e.size := by
  simp only [Endpoint.size, Nat.shiftLeft_eq]
  have := Nat.one_le_two_pow (n := e.epsize.toNat)
  omega

theorem mem_modify {l : List Bank} {i : Nat} {f : Bank → Bank} {b : Bank} (h : b ∈ l.modify i f) :
    b ∈ l ∨ ∃ c ∈ l, b = f c := by
  obtain ⟨j, hj⟩ := List.mem_iff_getElem?.mp h
  rw [List.getElem?_modify] at hj
  cases hl : l[j]? with
  | none => simp [hl] at hj
  | some c =>
    rw [hl] at hj
    have hc := List.mem_of_getElem? hl
    by_cases hij : i = j
    · simp [hij] at hj; exact .inr ⟨c, hc, hj.symm⟩
    · simp [hij] at hj; exact .inl (hj ▸ hc)

theorem setCurrent_wf {e : Endpoint} {d : List Byte} (h : e.Wf) (hd : d.length ≤ e.size) : (e.setCurrent d).Wf := by
  refine h.of_banks (f := e.setCurrent d) rfl rfl rfl rfl rfl (by simp [Endpoint.setCurrent])
    (fun hc => (h.allocated hc).2.2.2.2.2.1) (fun hc => (h.allocated hc).2.2.2.2.2.2) ?_
  intro b hb
  rcases mem_modify hb with hb | ⟨c, _, rfl⟩
  · exact h.bounded b hb
  · exact hd

theorem commit_wf {e : Endpoint} (h : e.Wf) : e.commit.Wf := by
  unfold Endpoint.commit
  split
  · exact h
  · refine h.of_banks rfl rfl rfl rfl rfl (by simp) (fun _ => Nat.mod_lt _ e.nbanks_pos)
      (fun hc => (h.allocated hc).2.2.2.2.2.2) ?_
    intro b hb
    rcases mem_modify hb with hb | ⟨c, hc, rfl⟩
    · exact h.bounded b hb
    · exact h.bounded c hc

theorem writeCtl_wf {e : Endpoint} {v : Byte} (h : e.Wf) : (e.writeCtl v).Wf := by
  unfold Endpoint.writeCtl
  split
  · constructor
    · intro hc; exact ⟨rfl, (h.allocated hc).2⟩
    · exact h.released
    · exact h.bounded
  · exact e.deactivate_wf

theorem writeCfg0_wf {e : Endpoint} {v : Byte} (h : e.Wf) : (e.writeCfg0 v).Wf := by
  unfold Endpoint.writeCfg0
  cases ha : e.alloc with
  | true => exact wf_of_no_banks rfl rfl
  | false => exact h.of_same rfl rfl rfl rfl rfl rfl rfl rfl

theorem writeCfg1_wf {e : Endpoint} {v : Byte} : (e.writeCfg1 v).Wf := by
  by_cases hc : bitOf v 1 = true ∧ e.epen = true ∧ epsizeOf v ≤ 3 ∧ epbkOf v ≤ 1
  · rw [writeCfg1_of_legal hc.1 hc.2.1 hc.2.2.1 hc.2.2.2]
    refine ⟨fun _ => ⟨hc.2.1, rfl, hc.2.2.1, hc.2.2.2, ?_, Nat.succ_pos _, Nat.succ_pos _⟩, fun h => by simp at h, ?_⟩
    · simp [Endpoint.nbanks]
    · intro b hb
      rw [(List.mem_replicate.mp hb).2]
      exact Nat.zero_le _
  · rw [writeCfg1_of_illegal hc]
    exact wf_of_no_banks rfl rfl

theorem writeInten_wf {e : Endpoint} {v : Byte} (h : e.Wf) : (e.writeInten v).Wf :=
  h.of_same rfl rfl rfl rfl rfl rfl rfl rfl

theorem resetToggle_wf {e : Endpoint} {b : Bool} (h : e.Wf) : (e.resetToggle b).Wf := by
  unfold Endpoint.resetToggle
  split
  · exact h.of_same rfl rfl rfl rfl rfl rfl rfl rfl
  · exact h

theorem releaseSetup_wf {e : Endpoint} {v : Byte} (h : e.Wf) : (e.releaseSetup v).Wf := by
  unfold Endpoint.releaseSetup
  split
  · exact setCurrent_wf (h.of_same rfl rfl rfl rfl rfl rfl rfl rfl) (Nat.zero_le _)
  · exact h

theorem releaseOut_wf {e : Endpoint} {v : Byte} (h : e.Wf) : (e.releaseOut v).Wf := by
  unfold Endpoint.releaseOut
  split
  · exact setCurrent_wf (h.of_same rfl rfl rfl rfl rfl rfl rfl rfl) (Nat.zero_le _)
  · exact h

theorem writeInt_wf {e e' : Endpoint} {v : Byte} (h : e.Wf) (hw : e.writeInt v = .ok e') : e'.Wf := by
  have h1 : ((e.releaseSetup v).releaseOut v).Wf := releaseOut_wf (releaseSetup_wf h)
  have h2 : ({ (e.releaseSetup v).releaseOut v with txini := false } : Endpoint).Wf :=
    h1.of_same rfl rfl rfl rfl rfl rfl rfl rfl
  unfold Endpoint.writeInt at hw
  dsimp only at hw
  split at hw
  · split at hw
    · cases hw; exact setCurrent_wf h2 (Nat.zero_le _)
    · split at hw
      · cases hw
      · cases hw; exact commit_wf h2
  · cases hw; exact h1

theorem current_length_le {e : Endpoint} (h : e.Wf) : e.current.length ≤ e.size := by
  unfold Endpoint.current
  split
  · next b hb => exact h.bounded b (List.mem_of_getElem? hb)
  · exact Nat.zero_le _

/-- What `RD EPDATA` needs and does (R207). -/
theorem popData_ok {e e' : Endpoint} {b : Byte} (h : e.popData = .ok (b, e')) :
    e.cfgok = true ∧ (e.rxstpi = true ∨ e.rxouti = true) ∧ ∃ d, e.current = b :: d ∧ e' = e.setCurrent d := by
  unfold Endpoint.popData at h
  split at h
  · cases h
  · next hc =>
    split at h
    · cases h
    · next hr =>
      split at h
      · cases h
      · next x d hd =>
        cases h
        refine ⟨by simpa using hc, ?_, d, hd, rfl⟩
        cases hs : e.rxstpi <;> cases ho : e.rxouti <;> simp_all

theorem popData_wf {e e' : Endpoint} {b : Byte} (h : e.Wf) (hp : e.popData = .ok (b, e')) : e'.Wf := by
  obtain ⟨_, _, d, hd, rfl⟩ := popData_ok hp
  have := current_length_le h
  rw [hd] at this
  exact setCurrent_wf h (Nat.le_trans (Nat.le_succ _) this)

/-- What `WR EPDATA` needs and does (R208). -/
theorem pushData_ok {e e' : Endpoint} {b : Byte} (h : e.pushData b = .ok e') :
    e.cfgok = true ∧ e.rxstpi = false ∧ (e.isControl && e.rxouti) = false ∧ e.txini = true ∧
      e.current.length ≠ e.size ∧ e' = e.setCurrent (e.current ++ [b]) := by
  unfold Endpoint.pushData at h
  split at h
  · cases h
  · next h0 =>
    split at h
    · cases h
    · next h1 =>
      split at h
      · cases h
      · next h2 =>
        split at h
        · cases h
        · next h3 =>
          split at h
          · cases h
          · next h4 => cases h; exact ⟨by simpa using h0, by simpa using h1, by simpa using h2, by simpa using h3, h4, rfl⟩

theorem pushData_wf {e e' : Endpoint} {b : Byte} (h : e.Wf) (hp : e.pushData b = .ok e') : e'.Wf := by
  obtain ⟨_, _, _, _, hl, rfl⟩ := pushData_ok hp
  have := current_length_le h
  refine setCurrent_wf h ?_
  rw [List.length_append, List.length_singleton]
  omega

theorem receiveSetup_wf {e : Endpoint} {d : Packet8} (h : e.Wf) : (e.receiveSetup d).Wf := by
  refine h.of_banks rfl rfl rfl rfl rfl (by simp [Endpoint.receiveSetup]) (fun _ => e.nbanks_pos)
    (fun _ => e.nbanks_pos) ?_
  intro b hb
  rcases mem_modify hb with hb | ⟨c, _, rfl⟩
  · obtain ⟨c, _, rfl⟩ := List.mem_map.mp hb
    exact Nat.zero_le _
  · exact e.eight_le_size

theorem sendBank_wf {e : Endpoint} (h : e.Wf) : e.sendBank.Wf := by
  refine h.of_banks rfl rfl rfl rfl rfl (by simp [Endpoint.sendBank])
    (fun hc => (h.allocated hc).2.2.2.2.2.1) (fun _ => Nat.mod_lt _ e.nbanks_pos) ?_
  intro b hb
  rcases mem_modify hb with hb | ⟨c, _, rfl⟩
  · exact h.bounded b hb
  · exact Nat.zero_le _

theorem answerIn_wf {e : Endpoint} (h : e.Wf) : e.answerIn.2.Wf := by
  unfold Endpoint.answerIn
  split
  · exact h
  · split
    · split
      · exact sendBank_wf h
      · exact h
    · exact h

theorem receiveOut_wf {e : Endpoint} {d : List Byte} (h : e.Wf) (hd : d.length ≤ e.size) : (e.receiveOut d).Wf :=
  (setCurrent_wf h hd).of_same rfl rfl rfl rfl rfl rfl rfl rfl

theorem answerOut_wf {e : Endpoint} {d : List Byte} (h : e.Wf) : (e.answerOut d).2.Wf := by
  unfold Endpoint.answerOut
  split
  · exact h
  · split
    · exact h
    · next hs =>
      split
      · exact h
      · exact receiveOut_wf h (by omega)

theorem txReady_wf {e : Endpoint} (h : e.Wf) : e.txReady.Wf :=
  setCurrent_wf (h.of_same rfl rfl rfl rfl rfl rfl rfl rfl) (Nat.zero_le _)

/-! ### Register operations and microstates -/

/-- Every endpoint of the state is well formed. -/
def EndpointsWf (s : State) : Prop := ∀ e ∈ s.eps, e.Wf

theorem EndpointsWf.set {s : State} {n : Nat} {e : Endpoint} (h : EndpointsWf s) (he : e.Wf) :
    EndpointsWf { s with eps := s.eps.set n e } := by
  intro f hf
  rcases List.mem_or_eq_of_mem_set hf with hf | rfl
  · exact h f hf
  · exact he

theorem EndpointsWf.get {s : State} {n : Nat} {e : Endpoint} (h : EndpointsWf s) (he : s.eps[n]? = some e) : e.Wf :=
  h e (List.mem_of_getElem? he)

/-- A register operation keeps the frame and well-formed endpoints. -/
structure OpKeeps (s t : State) : Prop where
  frame : OpFrame s t
  wf : EndpointsWf s → EndpointsWf t

theorem OpKeeps.of_eps {s t : State} (h : OpFrame s t) (he : t.eps = s.eps) : OpKeeps s t :=
  ⟨h, fun hs => by unfold EndpointsWf; rw [he]; exact hs⟩

theorem onSelected_keeps {f : Endpoint → Except FaultKind Endpoint} {s t : State}
    (hf : ∀ e e', e.Wf → f e = .ok e' → e'.Wf) (h : onSelected f s = .ok t) : OpKeeps s t := by
  refine ⟨onSelected_frame h, fun hs => ?_⟩
  rcases onSelected_cases (f := f) (s := s) with ⟨_, h'⟩ | ⟨e, k, _, _, h'⟩ | ⟨e, e', he, hfe, h'⟩
  · simp [h'] at h
  · simp [h'] at h
  · rw [h'] at h; cases h
    exact hs.set (hf e e' (hs.get he) hfe)

theorem readSelected_keeps {f : Endpoint → Byte} {s t : State} (h : readSelected f s = .ok t) : OpKeeps s t := by
  refine .of_eps (readSelected_frame h) ?_
  cases hs : s.selected with
  | none => simp [readSelected_none hs] at h
  | some e => rw [readSelected_ok hs] at h; cases h; rfl

theorem rdEpdata_keeps {s t : State} (h : rdEpdata s = .ok t) : OpKeeps s t := by
  refine ⟨rdEpdata_frame h, fun hw => ?_⟩
  cases hs : s.selected with
  | none => simp [rdEpdata_none hs] at h
  | some e =>
    cases hp : e.popData with
    | error k => simp [rdEpdata_error hs hp] at h
    | ok r =>
      obtain ⟨b, e'⟩ := r
      rw [rdEpdata_ok hs hp] at h; cases h
      exact hw.set (popData_wf (hw.get hs) hp)

theorem wrEptogrst_keeps {v : Byte} {s t : State} (h : wrEptogrst v s = .ok t) : OpKeeps s t := by
  refine ⟨wrEptogrst_frame h, fun hw => ?_⟩
  cases h
  intro e he
  obtain ⟨i, hi, rfl⟩ := List.mem_mapIdx.mp he
  exact resetToggle_wf (hw _ (List.getElem_mem hi))

theorem returns_keeps (v : Byte) (s : State) : OpKeeps s (returns v s) := .of_eps (.returns v s) rfl

theorem dev_keeps (d : DevRegs) (s : State) : OpKeeps s { s with dev := d } := .of_eps (.dev d s) rfl

theorem wrEpctl_keeps {v : Byte} {s t : State} (h : wrEpctl v s = .ok t) : OpKeeps s t :=
  onSelected_keeps (fun _ _ hw he => by cases he; exact writeCtl_wf hw) h

theorem wrEpcfg0_keeps {v : Byte} {s t : State} (h : wrEpcfg0 v s = .ok t) : OpKeeps s t :=
  onSelected_keeps (fun _ _ hw he => by cases he; exact writeCfg0_wf hw) h

theorem wrEpcfg1_keeps {v : Byte} {s t : State} (h : wrEpcfg1 v s = .ok t) : OpKeeps s t :=
  onSelected_keeps (fun _ _ _ he => by cases he; exact writeCfg1_wf) h

theorem wrEpint_keeps {v : Byte} {s t : State} (h : wrEpint v s = .ok t) : OpKeeps s t :=
  onSelected_keeps (fun _ _ hw he => writeInt_wf hw he) h

theorem wrEpinten_keeps {v : Byte} {s t : State} (h : wrEpinten v s = .ok t) : OpKeeps s t :=
  onSelected_keeps (fun _ _ hw he => by cases he; exact writeInten_wf hw) h

theorem wrEpdata_keeps {v : Byte} {s t : State} (h : wrEpdata v s = .ok t) : OpKeeps s t :=
  onSelected_keeps (fun _ _ hw he => pushData_wf hw he) h

/-! ### `WR EPINT` as one update (41_register_interface.md R203) -/

/-- The write commits a bank that still holds unread OUT data (R203). -/
def Endpoint.writeConflicts (v : Byte) (e : Endpoint) : Bool :=
  !bitOf v 0 && e.txini && !e.rxstpi && e.isControl && e.rxouti && bitOf v 2

theorem writeInt_conflict {e : Endpoint} {v : Byte} (h : e.writeConflicts v = true) :
    e.writeInt v = .error .fifoConflict := by
  simp only [Endpoint.writeConflicts, Bool.and_eq_true, Bool.not_eq_true'] at h
  obtain ⟨⟨⟨⟨⟨h0, h1⟩, h2⟩, h3⟩, h4⟩, h5⟩ := h
  simp [Endpoint.writeInt, Endpoint.releaseSetup, Endpoint.releaseOut, h0, h1, h2, h3, h4, h5]

theorem set_self {l : List Bank} {i : Nat} {b : Bank} (h : l[i]? = some b) : l.set i b = l := by
  obtain ⟨hl, rfl⟩ := List.getElem?_eq_some_iff.mp h
  exact List.set_getElem_self hl

theorem releaseSetup_of {e : Endpoint} {v : Byte} {b : Bank} (hb : e.banks[e.fill]? = some b) :
    e.releaseSetup v = { e with
      rxstpi := e.rxstpi && bitOf v 3,
      banks := e.banks.set e.fill ⟨if !bitOf v 3 && e.rxstpi then [] else b.data, b.committed⟩ } := by
  unfold Endpoint.releaseSetup
  split
  · next h =>
    rw [setCurrent_of (e := { e with rxstpi := false }) hb]
    simp only [Bool.and_eq_true, Bool.not_eq_true'] at h
    simp [h.1]
  · next h =>
    have hr : (e.rxstpi && bitOf v 3) = e.rxstpi := by
      cases h3 : bitOf v 3 <;> cases hs : e.rxstpi <;> simp_all
    rw [set_self (b := b) hb, hr]

theorem releaseOut_of {e : Endpoint} {v : Byte} {b : Bank} (hb : e.banks[e.fill]? = some b) :
    e.releaseOut v = { e with
      rxouti := e.rxouti && bitOf v 2,
      banks := e.banks.set e.fill ⟨if !bitOf v 2 && e.rxouti then [] else b.data, b.committed⟩ } := by
  unfold Endpoint.releaseOut
  split
  · next h =>
    rw [setCurrent_of (e := { e with rxouti := false }) hb]
    simp only [Bool.and_eq_true, Bool.not_eq_true'] at h
    simp [h.1]
  · next h =>
    have hr : (e.rxouti && bitOf v 2) = e.rxouti := by
      cases h3 : bitOf v 2 <;> cases hs : e.rxouti <;> simp_all
    rw [set_self (b := b) hb, hr]

/-- The two releases of `WR EPINT` on an endpoint with a current bank (R203). -/
theorem release_of {e : Endpoint} {v : Byte} {b : Bank} (hb : e.banks[e.fill]? = some b) :
    (e.releaseSetup v).releaseOut v = { e with
      rxstpi := e.rxstpi && bitOf v 3, rxouti := e.rxouti && bitOf v 2,
      banks := e.banks.set e.fill
        ⟨if (!bitOf v 3 && e.rxstpi) || (!bitOf v 2 && e.rxouti) then [] else b.data, b.committed⟩ } := by
  have hl : e.fill < e.banks.length := (List.getElem?_eq_some_iff.mp hb).1
  rw [releaseSetup_of hb, releaseOut_of (b := ⟨if !bitOf v 3 && e.rxstpi then [] else b.data, b.committed⟩)]
  · cases (!bitOf v 3 && e.rxstpi) <;> cases (!bitOf v 2 && e.rxouti) <;> simp
  · simp [hl]

/-- What `WR EPINT` does to an endpoint with a current bank, where it is no conflict (R203). -/
theorem writeInt_of_bank {e : Endpoint} {v : Byte} {b : Bank} (hb : e.banks[e.fill]? = some b)
    (h : e.writeConflicts v = false) :
    e.writeInt v = .ok { e with
      rxstpi := e.rxstpi && bitOf v 3, rxouti := e.rxouti && bitOf v 2, txini := e.txini && bitOf v 0,
      banks := e.banks.set e.fill
        ⟨if (!bitOf v 3 && e.rxstpi) || (!bitOf v 2 && e.rxouti) || (!bitOf v 0 && e.txini && e.rxstpi) then []
          else b.data, b.committed || (!bitOf v 0 && e.txini && !e.rxstpi)⟩,
      fill := if !bitOf v 0 && e.txini && !e.rxstpi then (e.fill + 1) % e.nbanks else e.fill } := by
  have hl : e.fill < e.banks.length := (List.getElem?_eq_some_iff.mp hb).1
  unfold Endpoint.writeInt
  rw [release_of hb]
  unfold Endpoint.writeConflicts at h
  dsimp only
  cases ht : (!bitOf v 0 && e.txini) with
  | false =>
    have hr : (e.txini && bitOf v 0) = e.txini := by
      cases h3 : bitOf v 0 <;> cases hs : e.txini <;> simp_all
    simp [hr]
  | true =>
    have h0 : bitOf v 0 = false := by simp at ht; exact ht.1
    cases hs : e.rxstpi with
    | true =>
      rw [if_pos rfl, if_pos rfl, setCurrent_of (b := ⟨if (!bitOf v 3 && true) || (!bitOf v 2 && e.rxouti) then [] else b.data, b.committed⟩)]
      · simp [h0]
      · simp [hl]
    | false =>
      have hc : (e.isControl && e.rxouti && bitOf v 2) = false := by rw [ht, hs] at h; simpa using h
      rw [if_pos rfl, if_neg (by simp), if_neg (by rw [Bool.eq_false_iff] at hc; exact hc), commit_of (b := ⟨if (!bitOf v 3 && false) || (!bitOf v 2 && e.rxouti) then [] else b.data, b.committed⟩)]
      · simp [h0, Endpoint.nbanks]
      · simp [hl]

theorem release_no_bank {e : Endpoint} {v : Byte} (hb : e.banks[e.fill]? = none) :
    (e.releaseSetup v).releaseOut v = { e with rxstpi := e.rxstpi && bitOf v 3, rxouti := e.rxouti && bitOf v 2 } := by
  have h1 : e.releaseSetup v = { e with rxstpi := e.rxstpi && bitOf v 3 } := by
    unfold Endpoint.releaseSetup
    rw [setCurrent_none (e := { e with rxstpi := false }) hb]
    cases h3 : bitOf v 3 <;> cases hs : e.rxstpi <;> simp [← hs]
  rw [h1]
  unfold Endpoint.releaseOut
  rw [setCurrent_none (e := { e with rxstpi := e.rxstpi && bitOf v 3, rxouti := false }) hb]
  cases h3 : bitOf v 2 <;> cases hs : e.rxouti <;> simp [← hs]

/-- What `WR EPINT` does to an endpoint without a current bank, where it is no conflict (log 12). -/
theorem writeInt_no_bank {e : Endpoint} {v : Byte} (hb : e.banks[e.fill]? = none) (h : e.writeConflicts v = false) :
    e.writeInt v = .ok { e with
      rxstpi := e.rxstpi && bitOf v 3, rxouti := e.rxouti && bitOf v 2, txini := e.txini && bitOf v 0 } := by
  unfold Endpoint.writeInt
  rw [release_no_bank hb]
  unfold Endpoint.writeConflicts at h
  dsimp only
  cases ht : (!bitOf v 0 && e.txini) with
  | false =>
    have hr : (e.txini && bitOf v 0) = e.txini := by
      cases h3 : bitOf v 0 <;> cases hs : e.txini <;> simp_all
    simp [hr]
  | true =>
    have h0 : bitOf v 0 = false := by simp at ht; exact ht.1
    cases hs : e.rxstpi with
    | true =>
      rw [if_pos rfl, if_pos rfl, setCurrent_none]
      · simp [h0]
      · exact hb
    | false =>
      have hc : (e.isControl && e.rxouti && bitOf v 2) = false := by rw [ht, hs] at h; simpa using h
      rw [if_pos rfl, if_neg (by simp), if_neg (by rw [Bool.eq_false_iff] at hc; exact hc), commit_none]
      · simp [h0]
      · exact hb

end Sys2Proof.Machine
end

