-- ==== Sys2Proof/Laws/Engine.lean ====
section
/-! SUPPORT. What one step of the engine can do, and what one instruction can do: said once, for every microstate. -/

namespace Sys2Proof.Machine

/-- What an engine step keeps. -/
structure EngineKeeps (s t : State) : Prop where
  cfg : t.cfg = s.cfg
  rom : t.rom = s.rom
  turns : t.turns = s.turns
  history : t.history = s.history
  mainData : t.mainData = s.mainData
  count : t.eps.length = s.eps.length
  wf : EndpointsWf s → EndpointsWf t

/-- Where an engine step goes. -/
def EngineGoes (s t : State) : Prop :=
  (∃ k, t.faults = insertFault k s.faults ∧ t.ctx = .halted ∧ t.seq = .halted) ∨
  (t.faults = s.faults ∧ ((t.ctx = s.ctx ∧ t.seq.context = s.seq.context) ∨ (t.ctx = .idle ∧ t.seq = .idle)))

theorem OpKeeps.engine {s t : State} (h : OpKeeps s t) : EngineKeeps s t := by
  have := h.frame.same
  refine ⟨?_, ?_, ?_, ?_, ?_, h.frame.count, h.wf⟩ <;> rw [this]

theorem raise_engine (k : FaultKind) (s : State) : EngineKeeps s (raise k s) ∧ EngineGoes s (raise k s) :=
  ⟨⟨rfl, rfl, rfl, rfl, rfl, rfl, id⟩, .inl ⟨k, rfl, rfl, rfl⟩⟩

theorem finish_engine {s t : State} {r : OpResult} {g : State → State} (hk : ∀ u, r = .ok u → OpKeeps s u)
    (hg : ∀ u, OpFrame s u → EngineKeeps u (g u) ∧ EngineGoes s (g u)) (h : finish s (r.map g) = .next t) :
    EngineKeeps s t ∧ EngineGoes s t := by
  rcases finish_next h with h | ⟨k, _, rfl⟩
  · obtain ⟨u, hu, rfl⟩ := map_ok_iff.mp h
    have h1 := (hk u hu).engine
    have h2 := (hg u (hk u hu).frame)
    refine ⟨⟨h2.1.cfg.trans h1.cfg, h2.1.rom.trans h1.rom, h2.1.turns.trans h1.turns, h2.1.history.trans h1.history,
      h2.1.mainData.trans h1.mainData, h2.1.count.trans h1.count, fun h => h2.1.wf (h1.wf h)⟩, h2.2⟩
  · exact raise_engine k s

theorem thenGo_engine {s t : State} {r : OpResult} {q : Seq} (hk : ∀ u, r = .ok u → OpKeeps s u)
    (hq : q.context = s.seq.context) (h : thenGo s r q = .next t) : EngineKeeps s t ∧ EngineGoes s t := by
  refine finish_engine (g := goto q) hk (fun u hu => ⟨⟨rfl, rfl, rfl, rfl, rfl, rfl, id⟩, .inr ?_⟩) h
  have := hu.same
  refine ⟨by rw [this]; rfl, .inl ⟨by rw [this]; rfl, hq⟩⟩

theorem waitReady_engine {s t : State} {g : State → State}
    (hg : ∀ u, OpFrame s u → EngineKeeps u (g u) ∧ EngineGoes s (g u)) (h : waitReady s g = .next t) :
    EngineKeeps s t ∧ EngineGoes s t := by
  unfold waitReady at h
  split at h
  · exact finish_engine (fun u hu => readSelected_keeps hu) hg h
  · cases h; exact ⟨⟨rfl, rfl, rfl, rfl, rfl, rfl, id⟩, .inr ⟨rfl, .inl ⟨rfl, rfl⟩⟩⟩

theorem next_engine {s t u : State} (hk : EngineKeeps s t ∧ EngineGoes s t) (h : (Host.Outcome.next t : Result) = .next u) :
    EngineKeeps s u ∧ EngineGoes s u := by cases h; exact hk

theorem afterRead_context (k : Fin 8) : (afterRead k).context = .setup := by revert k; decide

theorem microstep_engine {q : SetupLatch} {s t : State} (h : microstep q s = .next t) :
    EngineKeeps s t ∧ EngineGoes s t := by
  have self : EngineKeeps s s ∧ EngineGoes s s := ⟨⟨rfl, rfl, rfl, rfl, rfl, rfl, id⟩, .inr ⟨rfl, .inl ⟨rfl, rfl⟩⟩⟩
  have devop : ∀ {d : DevRegs} u, (Except.ok { s with dev := d } : OpResult) = .ok u → OpKeeps s u := by
    intro d u hu; cases hu; exact dev_keeps d s
  have retop : ∀ {v : Byte} u, (Except.ok (returns v s) : OpResult) = .ok u → OpKeeps s u := by
    intro v u hu; cases hu; exact returns_keeps v s
  have idle : ∀ u, OpFrame s u → EngineKeeps u (returnIdle u) ∧ EngineGoes s (returnIdle u) := by
    intro u hu; exact ⟨⟨rfl, rfl, rfl, rfl, rfl, rfl, id⟩, .inr ⟨by rw [hu.same]; rfl, .inr ⟨rfl, rfl⟩⟩⟩
  have mv : ∀ (g : State → State), (∀ u, EngineKeeps u (g u)) →
      (∀ u, (g u).faults = u.faults ∧ (g u).ctx = u.ctx ∧ (g u).seq.context = s.seq.context) →
      ∀ u, OpFrame s u → EngineKeeps u (g u) ∧ EngineGoes s (g u) := by
    intro g h1 h2 u hu
    have h3 := h2 u
    exact ⟨h1 u, .inr ⟨by rw [h3.1, hu.same], .inl ⟨by rw [h3.2.1, hu.same], h3.2.2⟩⟩⟩
  unfold microstep at h
  split at h
  case h_1 => exact next_engine self h
  case h_2 => exact next_engine self h
  case h_3 hs => exact thenGo_engine devop (by rw [hs]; rfl) h
  case h_4 hs =>
    unfold initLockStep at h
    split at h
    · exact next_engine (raise_engine _ s) h
    · split at h
      · exact thenGo_engine retop (by rw [hs]; rfl) h
      · exact next_engine self h
  case h_5 hs => exact thenGo_engine devop (by rw [hs]; rfl) h
  case h_6 hs => exact thenGo_engine (fun _ => wrEpctl_keeps) (by rw [hs]; rfl) h
  case h_7 hs => exact thenGo_engine (fun _ => wrEpcfg0_keeps) (by rw [hs]; rfl) h
  case h_8 hs => exact thenGo_engine (fun _ => wrEpcfg1_keeps) (by rw [hs]; rfl) h
  case h_9 hs => exact thenGo_engine (fun _ => wrEpinten_keeps) (by rw [hs]; rfl) h
  case h_10 hs => exact thenGo_engine devop (by rw [hs]; rfl) h
  case h_11 hs => exact finish_engine devop idle h
  case h_12 hs => exact thenGo_engine devop (by rw [hs]; rfl) h
  case h_13 hs => exact thenGo_engine devop (by rw [hs]; rfl) h
  case h_14 hs => exact thenGo_engine (fun _ => wrEpctl_keeps) (by rw [hs]; rfl) h
  case h_15 hs => exact thenGo_engine (fun _ => wrEpcfg0_keeps) (by rw [hs]; rfl) h
  case h_16 hs => exact thenGo_engine (fun _ => wrEpcfg1_keeps) (by rw [hs]; rfl) h
  case h_17 hs => exact thenGo_engine (fun _ => wrEpinten_keeps) (by rw [hs]; rfl) h
  case h_18 hs => refine next_engine ?_ h; exact ⟨⟨rfl, rfl, rfl, rfl, rfl, rfl, id⟩, .inr ⟨rfl, .inr ⟨rfl, rfl⟩⟩⟩
  case h_19 hs => exact finish_engine devop idle h
  case h_20 hs => exact thenGo_engine devop (by rw [hs]; rfl) h
  case h_21 k hs =>
    refine finish_engine ?_ ?_ h
    · exact fun _ => rdEpdata_keeps
    · exact mv _ (fun u => ⟨rfl, rfl, rfl, rfl, rfl, rfl, id⟩)
        (fun u => ⟨rfl, rfl, by rw [hs]; exact afterRead_context k⟩)
  case h_22 hs => exact thenGo_engine (fun _ => wrEpint_keeps) (by rw [hs]; rfl) h
  case h_23 hs =>
    refine next_engine ?_ h
    refine ⟨⟨rfl, rfl, rfl, rfl, rfl, rfl, id⟩, ?_⟩
    exact .inr ⟨rfl, .inl ⟨rfl, by rw [hs]; cases requestKind (half q.bRequest q.bmRequestType) <;> rfl⟩⟩
  case h_24 hs =>
    unfold gdLookupStep at h
    split at h
    · refine next_engine ?_ h; exact ⟨⟨rfl, rfl, rfl, rfl, rfl, rfl, id⟩, .inr ⟨rfl, .inl ⟨rfl, by rw [hs]; rfl⟩⟩⟩
    · refine next_engine ?_ h
      refine ⟨⟨rfl, rfl, rfl, rfl, rfl, rfl, id⟩, ?_⟩
      exact .inr ⟨rfl, .inl ⟨rfl, by rw [hs]; dsimp only; split <;> rfl⟩⟩
  case h_25 hs =>
    refine next_engine ?_ h
    refine ⟨⟨rfl, rfl, rfl, rfl, rfl, rfl, id⟩, ?_⟩
    exact .inr ⟨rfl, .inl ⟨rfl, by rw [hs]; rfl⟩⟩
  case h_26 hs =>
    refine waitReady_engine ?_ h
    exact mv _ (fun u => ⟨rfl, rfl, rfl, rfl, rfl, rfl, id⟩)
      (fun u => ⟨rfl, rfl, by rw [hs]; rfl⟩)
  case h_27 hs => exact thenGo_engine (fun _ => wrEpint_keeps) (by rw [hs]; rfl) h
  case h_28 hs =>
    refine waitReady_engine ?_ h
    exact mv _ (fun u => ⟨rfl, rfl, rfl, rfl, rfl, rfl, id⟩)
      (fun u => ⟨rfl, rfl, by rw [hs]; rfl⟩)
  case h_29 hs =>
    refine finish_engine ?_ ?_ h
    · exact devop
    · exact mv _ (fun u => ⟨rfl, rfl, rfl, rfl, rfl, rfl, id⟩)
        (fun u => ⟨rfl, rfl, by rw [hs]; rfl⟩)
  case h_30 hs =>
    refine finish_engine ?_ ?_ h
    · exact retop
    · exact mv _ (fun u => ⟨rfl, rfl, rfl, rfl, rfl, rfl, id⟩)
        (fun u => ⟨rfl, rfl, by rw [hs]; rfl⟩)
  case h_31 hs =>
    refine waitReady_engine ?_ h
    exact mv _ (fun u => ⟨rfl, rfl, rfl, rfl, rfl, rfl, id⟩)
      (fun u => ⟨rfl, rfl, by rw [hs]; rfl⟩)
  case h_32 hs => exact thenGo_engine (fun _ => wrEpint_keeps) (by rw [hs]; split <;> rfl) h
  case h_33 hs => exact thenGo_engine devop (by rw [hs]; rfl) h
  case h_34 hs => exact thenGo_engine (fun _ => wrEpctl_keeps) (by rw [hs]; rfl) h
  case h_35 hs => exact thenGo_engine (fun _ => wrEpcfg0_keeps) (by rw [hs]; rfl) h
  case h_36 hs => exact thenGo_engine (fun _ => wrEpcfg1_keeps) (by rw [hs]; rfl) h
  case h_37 hs => exact thenGo_engine (fun _ => wrEpinten_keeps) (by rw [hs]; rfl) h
  case h_38 hs => exact thenGo_engine (fun _ => wrEptogrst_keeps) (by rw [hs]; rfl) h
  case h_39 hs =>
    refine next_engine ?_ h
    refine ⟨⟨rfl, rfl, rfl, rfl, rfl, rfl, id⟩, ?_⟩
    exact .inr ⟨rfl, .inl ⟨rfl, by rw [hs]; rfl⟩⟩
  case h_40 hs =>
    refine next_engine ?_ h
    refine ⟨⟨rfl, rfl, rfl, rfl, rfl, rfl, id⟩, ?_⟩
    exact .inr ⟨rfl, .inl ⟨rfl, by rw [hs]; rfl⟩⟩
  case h_41 hs =>
    refine waitReady_engine ?_ h
    exact mv _ (fun u => ⟨rfl, rfl, rfl, rfl, rfl, rfl, id⟩)
      (fun u => ⟨rfl, rfl, by rw [hs]; rfl⟩)
  case h_42 hs =>
    unfold strWriteStep at h
    split at h
    · refine finish_engine ?_ ?_ h
      · exact fun _ => wrEpdata_keeps
      · exact mv _ (fun u => ⟨rfl, rfl, rfl, rfl, rfl, rfl, id⟩)
          (fun u => ⟨rfl, rfl, by rw [hs]; unfold advanceByte; dsimp only; split <;> rfl⟩)
    · cases h
  case h_43 hs =>
    refine finish_engine ?_ ?_ h
    · exact fun _ => wrEpint_keeps
    · exact mv _ (fun u => ⟨rfl, rfl, rfl, rfl, rfl, rfl, id⟩)
        (fun u => ⟨rfl, rfl, by rw [hs]; unfold advancePacket; dsimp only; split <;> rfl⟩)
  case h_44 hs => exact thenGo_engine (fun _ => wrEpctl_keeps) (by rw [hs]; rfl) h
  case h_45 hs => refine next_engine ?_ h; exact ⟨⟨rfl, rfl, rfl, rfl, rfl, rfl, id⟩, .inr ⟨rfl, .inr ⟨rfl, rfl⟩⟩⟩

/-- Outside `S_DISPATCH` a microstate reads no more of the request than these two fields (R297). -/
theorem microstep_congr {q r : SetupLatch} {s : State} (hv : q.wValue = r.wValue) (hl : q.wLength = r.wLength)
    (hs : s.seq ≠ .sDispatch) : microstep q s = microstep r s := by
  unfold microstep
  split <;> first | rfl | simp only [gdLookupStep, saSetStep, scStoreStep, scZcStep, hv, hl] | exact absurd ‹_› hs

theorem insertFault_ne_nil (k : FaultKind) (l : List FaultKind) : insertFault k l ≠ [] := by
  cases l with
  | nil => simp [insertFault]
  | cons x l => unfold insertFault; split <;> (try split) <;> simp

theorem rising_cons {x : FaultKind} {l : List FaultKind} :
    faultsRising (x :: l) = true ↔ faultsRising l = true ∧ ∀ y, l.head? = some y → x.code < y.code := by
  cases l with
  | nil => simp [faultsRising]
  | cons y l => simp [faultsRising, and_comm]

theorem code_inj {j k : FaultKind} (h : j.code = k.code) : j = k := by
  revert h; cases j <;> cases k <;> decide

theorem head_insertFault (k : FaultKind) (l : List FaultKind) (y : FaultKind) (h : (insertFault k l).head? = some y) :
    y = k ∨ l.head? = some y := by
  cases l with
  | nil => simp [insertFault] at h; exact .inl h.symm
  | cons x l =>
    unfold insertFault at h
    split at h
    · simp at h; exact .inl h.symm
    · split at h <;> (simp at h; exact .inr (by simp [h]))

theorem insertFault_rising {k : FaultKind} {l : List FaultKind} (h : faultsRising l = true) :
    faultsRising (insertFault k l) = true := by
  induction l with
  | nil => rfl
  | cons x l ih =>
    have h' := rising_cons.mp h
    unfold insertFault
    split
    · next hk => exact rising_cons.mpr ⟨h, by simpa using hk⟩
    · next hk =>
      split
      · exact h
      · next hne =>
        refine rising_cons.mpr ⟨ih h'.1, fun y hy => ?_⟩
        rcases head_insertFault k l y hy with rfl | hy
        · have : y.code ≠ x.code := fun e => hne (code_inj e)
          omega
        · exact h'.2 y hy

theorem raise_wf {s : State} (k : FaultKind) (h : s.Wf) : (raise k s).Wf :=
  ⟨h.params, h.count, h.endpoints, h.memory, insertFault_rising h.record, rfl, ⟨fun _ => insertFault_ne_nil _ _, fun _ => rfl⟩⟩

theorem engine_wf {s t : State} (h : s.Wf) (hc : s.ctx ≠ .halted) (hk : EngineKeeps s t) (hg : EngineGoes s t) : t.Wf := by
  have hf : s.faults = [] := by
    by_contra hne
    exact hc (h.halted.mpr hne)
  have base : t.cfg.wf = true ∧ t.eps.length = t.cfg.numEp ∧ (∀ e ∈ t.eps, e.Wf) ∧ Memory.wf t.cfg t.rom = true := by
    rw [hk.cfg, hk.rom, hk.count]
    exact ⟨h.params, h.count, hk.wf h.endpoints, h.memory⟩
  obtain ⟨b1, b2, b3, b4⟩ := base
  rcases hg with ⟨k, hf', hc', hs'⟩ | ⟨hf', ⟨hc', hs'⟩ | ⟨hc', hs'⟩⟩
  · exact ⟨b1, b2, b3, b4, by rw [hf']; exact insertFault_rising h.record, by rw [hc', hs']; rfl,
      by rw [hc', hf']; exact ⟨fun _ => insertFault_ne_nil _ _, fun _ => rfl⟩⟩
  · exact ⟨b1, b2, b3, b4, by rw [hf']; exact h.record, by rw [hc', hs']; exact h.context, by rw [hc', hf']; exact h.halted⟩
  · exact ⟨b1, b2, b3, b4, by rw [hf']; exact h.record, by rw [hc', hs']; rfl, by rw [hc', hf', hf]; simp⟩

theorem requestStep_cases {f : Seq} {q : SetupLatch} {s t : State} (h : requestStep f q s = .next t) :
    (requestRuns s = false ∧ t = s) ∨ (requestRuns s = true ∧ s.seq = .sDispatch ∧ t = goto f s) ∨
    (requestRuns s = true ∧ s.seq ≠ .sDispatch ∧ microstep q s = .next t) := by
  unfold requestStep at h
  split at h
  · next hr =>
    split at h
    · next hd => cases h; exact .inr (.inl ⟨hr, hd, rfl⟩)
    · next hd => exact .inr (.inr ⟨hr, hd, h⟩)
  · next hr => cases h; exact .inl ⟨by simpa using hr, rfl⟩

theorem handlerEntry_cases {s t : State} (h : handlerEntry s = .next t) :
    t = s ∨ (∃ d, t = { s with dev := d, ctx := t.ctx, seq := t.seq } ∧ t.ctx = t.seq.context ∧ t.ctx ≠ .halted) := by
  unfold handlerEntry at h
  split at h
  · cases h; exact .inr ⟨_, rfl, rfl, fun h => Ctx.noConfusion h⟩
  · split at h
    · cases h; exact .inr ⟨_, rfl, rfl, fun h => Ctx.noConfusion h⟩
    · split at h
      · cases h; exact .inr ⟨_, rfl, rfl, fun h => Ctx.noConfusion h⟩
      · cases h; exact .inl rfl

theorem request_wf {f : Seq} {q : SetupLatch} {s t : State} (hf : f.context = .setup) (h : s.Wf)
    (h' : requestStep f q s = .next t) : t.Wf := by
  rcases requestStep_cases h' with ⟨_, rfl⟩ | ⟨hr, hd, rfl⟩ | ⟨hr, hd, hm⟩
  · exact h
  · exact ⟨h.params, h.count, h.endpoints, h.memory, h.record, by have := h.context; rw [hd] at this; simp [this, hf]; rfl, h.halted⟩
  · have hc : s.ctx ≠ .halted := by
      intro hc; simp [requestRuns, hc] at hr
    exact engine_wf h hc (microstep_engine hm).1 (microstep_engine hm).2

theorem engineStep_wf {s t : State} (h : s.Wf) (h' : engineStep s = .next t) : t.Wf := by
  unfold engineStep at h'
  split at h'
  · cases h'; exact h
  · next hc =>
    rcases handlerEntry_cases h' with rfl | ⟨d, ht, hc', hn⟩
    · exact h
    · rw [ht]
      have hf : s.faults = [] := by
        by_contra hne
        have := h.halted.mpr hne
        rw [hc] at this; cases this
      exact ⟨h.params, h.count, h.endpoints, h.memory, h.record, hc', ⟨fun x => absurd x hn, fun x => absurd hf x⟩⟩
  all_goals
    next hc => exact engine_wf h (by rw [hc]; decide) (microstep_engine h').1 (microstep_engine h').2

theorem wf_set {s : State} {n : Nat} {e : Endpoint} (h : s.Wf) (he : e.Wf) : ({ s with eps := s.eps.set n e } : State).Wf :=
  ⟨h.params, by simpa using h.count, EndpointsWf.set h.endpoints he, h.memory, h.record, h.context, h.halted⟩

theorem receives_some {s : State} {a : DevAddr} {n : EpNum} {e : Endpoint} (h : receives s a n = some e) :
    s.eps[n.toNat]? = some e ∧ e.epen = true ∧ e.cfgok = true ∧ s.dev.detach = false ∧ a = s.dev.activeAddr := by
  unfold receives at h
  split at h
  · cases h
  · next hd =>
    simp at hd
    split at h
    · cases h
    · next e' he =>
      split at h
      · next hc =>
        cases h
        simp at hc
        exact ⟨he, hc.1, hc.2, hd.1, hd.2⟩
      · cases h

theorem op_wf {op : State → OpResult} {s t : State} (hk : ∀ u, op s = .ok u → OpKeeps s u) (h : s.Wf)
    (h' : engineOp op s = .next t) : t.Wf := by
  rcases engineOp_next h' with ⟨_, rfl⟩ | ⟨hc, ho⟩ | ⟨hc, k, _, rfl⟩
  · exact h
  · have hk := hk t ho
    refine engine_wf h hc hk.engine (.inr ?_)
    rw [hk.frame.same]; exact ⟨rfl, .inl ⟨rfl, rfl⟩⟩
  · exact raise_wf k h

/-- The state an action acts on. -/
def Action.state : Action → Option State
  | .run _ t => some t
  | .engine t => some t
  | .quiet t => some t
  | .reject _ => none

theorem nextAction_state {s t : State} (h : (nextAction s).state = some t) : t = { s with turns := s.turns.tail } := by
  unfold nextAction at h
  split at h
  · next ts ht =>
    unfold engineAction at h
    split at h <;> (cases h; simp [ht])
  · next bs ts ht =>
    unfold recordAction at h
    split at h <;> (cases h; try simp [ht])
  · next bs ts ht =>
    unfold recordAction at h
    split at h <;> (cases h; try simp [ht])
  · next bs ts ht =>
    unfold recordAction at h
    split at h <;> (cases h; try simp [ht])
  · next ht =>
    have hs : s = { s with turns := s.turns.tail } := by rw [ht]; cases s; simp_all
    split at h
    · unfold engineAction at h
      split at h <;> (cases h; exact hs)
    · split at h <;> (cases h; exact hs)

theorem step_cases {s t : State} (h : step s = .next t) : let u : State := { s with turns := s.turns.tail }
    (∃ i, nextAction s = .run i u ∧ exec i u = .next t) ∨ (nextAction s = .engine u ∧ engineStep u = .next t) ∨
      (nextAction s = .quiet u ∧ t = u) := by
  intro u
  have hu := @nextAction_state s
  unfold step at h
  split at h
  · next i v hv =>
    have : v = u := hu (by rw [hv]; rfl)
    subst this
    exact .inl ⟨i, hv, h⟩
  · next v hv =>
    have : v = u := hu (by rw [hv]; rfl)
    subst this
    exact .inr (.inl ⟨hv, h⟩)
  · next v hv =>
    have : v = u := hu (by rw [hv]; rfl)
    subst this
    injection h with h
    exact .inr (.inr ⟨hv, h.symm⟩)
  · cases h

/-- What every instruction keeps: the parameters, the ROM, the rest of the schedule, every recorded fault; and what no
instruction but a request writes. -/
structure ExecKeeps (s t : State) : Prop where
  cfg : t.cfg = s.cfg
  rom : t.rom = s.rom
  turns : t.turns = s.turns
  faults : t.faults = s.faults ∨ ∃ k, t.faults = insertFault k s.faults

/-- An instruction that is no request keeps all the engine's own registers. -/
structure NotRequestKeeps (s t : State) : Prop extends ExecKeeps s t where
  latch : t.latch = s.latch
  work : t.work = s.work
  enum : t.enum = s.enum
  control : (t.ctx = s.ctx ∧ t.seq = s.seq ∧ t.faults = s.faults) ∨
    ((∃ k, t.faults = insertFault k s.faults) ∧ t.ctx = .halted ∧ t.seq = .halted)

theorem NotRequestKeeps.refl (s : State) : NotRequestKeeps s s :=
  ⟨⟨rfl, rfl, rfl, .inl rfl⟩, rfl, rfl, rfl, .inl ⟨rfl, rfl, rfl⟩⟩

theorem keeps_next {s t u : State} (h : NotRequestKeeps s u) (h' : (Host.Outcome.next u : Result) = .next t) :
    NotRequestKeeps s t := by
  cases h'; exact h

theorem keeps_op {op : State → OpResult} {s t : State} (hk : ∀ u, op s = .ok u → OpKeeps s u)
    (h' : engineOp op s = .next t) : NotRequestKeeps s t := by
  rcases engineOp_next h' with ⟨_, rfl⟩ | ⟨_, ho⟩ | ⟨_, k, _, rfl⟩
  · exact .refl _
  · rw [(hk t ho).frame.same]; exact ⟨⟨rfl, rfl, rfl, .inl rfl⟩, rfl, rfl, rfl, .inl ⟨rfl, rfl, rfl⟩⟩
  · exact ⟨⟨rfl, rfl, rfl, .inr ⟨k, rfl⟩⟩, rfl, rfl, rfl, .inr ⟨⟨k, rfl⟩, rfl, rfl⟩⟩

theorem exec_not_request {i : Instr} {s t : State} (hi : i.isRequest = false) (h' : exec i s = .next t) :
    NotRequestKeeps s t := by
  have plain : ∀ {h : List Answer} {d : DevRegs} {l : List Endpoint} {v w : Word},
      NotRequestKeeps s { s with history := h, dev := d, eps := l, mainData := v, rdData := w } :=
    ⟨⟨rfl, rfl, rfl, .inl rfl⟩, rfl, rfl, rfl, .inl ⟨rfl, rfl, rfl⟩⟩
  have devop : ∀ {d : DevRegs} u, (Except.ok { s with dev := d } : OpResult) = .ok u → OpKeeps s u := by
    intro d u hu; cases hu; exact dev_keeps d s
  have retop : ∀ {v : Byte} u, (Except.ok (returns v s) : OpResult) = .ok u → OpKeeps s u := by
    intro v u hu; cases hu; exact returns_keeps v s
  have badop : ∀ u, badRegister s = .ok u → OpKeeps s u := by intro u hu; cases hu
  cases i with
  | getDescriptor => cases hi
  | setAddress => cases hi
  | setConfiguration => cases hi
  | getConfiguration => cases hi
  | getStatus => cases hi
  | stallOther => cases hi
  | setup a e d =>
    simp only [exec, execSetup] at h'
    split at h'
    · exact keeps_next (.refl s) h'
    · split at h'
      · split at h'
        · refine keeps_next ?_ h'
          exact ⟨⟨rfl, rfl, rfl, .inr ⟨_, rfl⟩⟩, rfl, rfl, rfl, .inr ⟨⟨_, rfl⟩, rfl, rfl⟩⟩
        · exact keeps_next plain h'
      · exact keeps_next (.refl s) h'
  | inToken a e =>
    simp only [exec, execIn] at h'
    split at h'
    · exact keeps_next (.refl s) h'
    · split at h'
      · exact keeps_next plain h'
      · exact keeps_next (.refl s) h'
  | outToken a e data =>
    simp only [exec, execOut] at h'
    split at h'
    · exact keeps_next (.refl s) h'
    · split at h'
      · split at h'
        · exact keeps_next (.refl s) h'
        · exact keeps_next plain h'
      · exact keeps_next (.refl s) h'
  | busReset =>
    simp only [exec, execBusReset] at h'
    split at h'
    · exact keeps_next (.refl s) h'
    · exact keeps_next plain h'
  | sof =>
    simp only [exec, execSof] at h'
    split at h'
    · exact keeps_next (.refl s) h'
    · exact keeps_next plain h'
  | pllLocked =>
    simp only [exec, execPllLocked] at h'
    split at h'
    · exact keeps_next plain h'
    · exact keeps_next (.refl s) h'
  | pllFail =>
    simp only [exec, execPllFail] at h'
    split at h'
    · exact keeps_next plain h'
    · exact keeps_next (.refl s) h'
  | txready n =>
    simp only [exec, execTxready] at h'
    split at h'
    · exact keeps_next (.refl s) h'
    · split at h'
      · exact keeps_next plain h'
      · exact keeps_next (.refl s) h'
  | statusRead => exact keeps_next plain h'
  | rdPllctl => exact keeps_op (op := rdPllctl) retop h'
  | wrPllctl v => exact keeps_op (op := wrPllctl v) devop h'
  | rdDevctl => exact keeps_op (op := rdDevctl) retop h'
  | wrDevctl v => exact keeps_op (op := wrDevctl v) devop h'
  | rdDevint => exact keeps_op (op := rdDevint) retop h'
  | wrDevint v => exact keeps_op (op := wrDevint v) devop h'
  | rdDevinten => exact keeps_op (op := rdDevinten) retop h'
  | wrDevinten v => exact keeps_op (op := wrDevinten v) devop h'
  | rdDevaddr => exact keeps_op (op := rdDevaddr) retop h'
  | wrDevaddr v => exact keeps_op (op := wrDevaddr v) devop h'
  | rdEptogrst => exact keeps_op (op := rdEptogrst) retop h'
  | wrEptogrst v => exact keeps_op (fun _ => wrEptogrst_keeps) h'
  | rdEpsel => exact keeps_op (op := rdEpsel) retop h'
  | wrEpsel v => exact keeps_op (op := wrEpsel v) devop h'
  | rdEpctl => exact keeps_op (fun _ => readSelected_keeps) h'
  | wrEpctl v => exact keeps_op (fun _ => wrEpctl_keeps) h'
  | rdEpcfg0 => exact keeps_op (fun _ => readSelected_keeps) h'
  | wrEpcfg0 v => exact keeps_op (fun _ => wrEpcfg0_keeps) h'
  | rdEpcfg1 => exact keeps_op (fun _ => readSelected_keeps) h'
  | wrEpcfg1 v => exact keeps_op (fun _ => wrEpcfg1_keeps) h'
  | rdEpsta => exact keeps_op (fun _ => readSelected_keeps) h'
  | wrEpsta => exact keeps_op badop h'
  | rdEpint => exact keeps_op (fun _ => readSelected_keeps) h'
  | wrEpint v => exact keeps_op (fun _ => wrEpint_keeps) h'
  | rdEpinten => exact keeps_op (fun _ => readSelected_keeps) h'
  | wrEpinten v => exact keeps_op (fun _ => wrEpinten_keeps) h'
  | rdEpdata => exact keeps_op (fun _ => rdEpdata_keeps) h'
  | wrEpdata v => exact keeps_op (fun _ => wrEpdata_keeps) h'
  | rdEpbcnt => exact keeps_op (fun _ => readSelected_keeps) h'
  | wrEpbcnt => exact keeps_op badop h'
  | rdEngstatus => exact keeps_next plain h'
  | wrEngstatus => exact keeps_op badop h'
  | otherRegOp => exact keeps_op badop h'

/-- A request is the engine's next microstep, or nothing. -/
theorem exec_request {i : Instr} {s t : State} (hi : i.isRequest = true) (h' : exec i s = .next t) :
    ∃ f q, f.context = .setup ∧ requestStep f q s = .next t := by
  cases i <;> first | (simp [Instr.isRequest] at hi; done) | exact ⟨_, _, rfl, h'⟩

theorem request_engine {f : Seq} {q : SetupLatch} {s t : State} (hf : f.context = .setup) 
    (h : requestStep f q s = .next t) : t = s ∨ (EngineKeeps s t ∧ EngineGoes s t) := by
  rcases requestStep_cases h with ⟨_, rfl⟩ | ⟨hr, hd, rfl⟩ | ⟨hr, hd, hm⟩
  · exact .inl rfl
  · exact .inr ⟨⟨rfl, rfl, rfl, rfl, rfl, rfl, id⟩, .inr ⟨rfl, .inl ⟨rfl, by rw [hd]; exact hf⟩⟩⟩
  · exact .inr (microstep_engine hm)

theorem EngineGoes.faults {s t : State} (h : EngineGoes s t) :
    t.faults = s.faults ∨ ∃ k, t.faults = insertFault k s.faults := by
  rcases h with ⟨k, h, _⟩ | ⟨h, _⟩
  · exact .inr ⟨k, h⟩
  · exact .inl h

theorem exec_keeps {i : Instr} {s t : State} (h : exec i s = .next t) : ExecKeeps s t := by
  cases hi : i.isRequest with
  | false => exact (exec_not_request hi h).toExecKeeps
  | true =>
    obtain ⟨f, q, hf, h⟩ := exec_request hi h
    rcases request_engine hf h with rfl | ⟨hk, hg⟩
    · exact ⟨rfl, rfl, rfl, .inl rfl⟩
    · exact ⟨hk.cfg, hk.rom, hk.turns, hg.faults⟩

theorem engineStep_keeps {s t : State} (h : engineStep s = .next t) : ExecKeeps s t := by
  unfold engineStep at h
  split at h
  · cases h; exact ⟨rfl, rfl, rfl, .inl rfl⟩
  · rcases handlerEntry_cases h with rfl | ⟨d, ht, _⟩
    · exact ⟨rfl, rfl, rfl, .inl rfl⟩
    · rw [ht]; exact ⟨rfl, rfl, rfl, .inl rfl⟩
  all_goals
    obtain ⟨hk, hg⟩ := microstep_engine h
    exact ⟨hk.cfg, hk.rom, hk.turns, hg.faults⟩

theorem engstatus_bits (s : State) :
    (engstatus s).getLsbD 24 = (s.ctx == .halted) ∧ (engstatus s).getLsbD 25 = !s.faults.isEmpty := by
  have h := engstatus_toNat s
  have h1 := s.enum.assignedAddr.isLt
  have h2 := s.enum.configValue.isLt
  have h3 := s.enum.devState.code.isLt
  constructor
  · rw [BitVec.getLsbD, Nat.testBit_eq_decide_div_mod_eq, h]
    cases (s.ctx == .halted) <;> cases (!s.faults.isEmpty) <;> simp <;> omega
  · rw [BitVec.getLsbD, Nat.testBit_eq_decide_div_mod_eq, h]
    cases (s.ctx == .halted) <;> cases (!s.faults.isEmpty) <;> simp <;> omega

/-! ### Tokens, and a request in one of its microstates -/

theorem receives_of {s : State} {a : DevAddr} {n : EpNum} {e : Endpoint} (h : Reaches s a n e) :
    receives s a n = some e := by
  have : s.dev.activeAddr = a := by rw [h.address]; rfl
  simp [receives, h.attached, this, h.exists_, h.enabled, h.allocated]

theorem receives_none {s : State} {a : DevAddr} {n : EpNum} (h : ¬∃ e, Reaches s a n e) : receives s a n = none := by
  cases hr : receives s a n with
  | none => rfl
  | some e =>
    obtain ⟨h1, h2, h3, h4, h5⟩ := receives_some hr
    exact absurd ⟨e, h4, h5, h1, h2, h3⟩ h

/-- Past `S_DISPATCH` a request of the running SETUP handler takes the microstate's step. -/
theorem requestStep_at {f : Seq} {q : SetupLatch} {s : State} (h1 : s.ctx = .setup) (h2 : s.seq.inRequest = true)
    (h3 : s.seq ≠ .sDispatch) : requestStep f q s = microstep q s := by
  have hr : requestRuns s = true := by simp [requestRuns, h1, h2]
  simp [requestStep, hr, h3]

theorem requestStep_dispatch {f : Seq} {q : SetupLatch} {s : State} (h1 : s.ctx = .setup) (h2 : s.seq = .sDispatch) :
    requestStep f q s = .next { s with seq := f } := by
  have hr : requestRuns s = true := by simp [requestRuns, h1, h2, Seq.inRequest]
  simp [requestStep, hr, h2, goto]

end Sys2Proof.Machine
end

