-- ==== Sys2Proof/Laws/Enumeration.lean ====
section
/-! SUPPORT. The invariants of the enumeration state (45_enumeration.md R358) under the engine's own microprogram: the
first three are kept by every step, the last one by every step but an `SA_APPLY` after a bus reset (log 26).
Then what a bus reset inside the SETUP handler leaves (log 26, log 28). -/

namespace Sys2Proof.Machine

/-! ### What a step does to endpoint 3 -/

/-- An endpoint stays allocated and enabled. -/
def Endpoint.Stays (e f : Endpoint) : Prop := (e.cfgok = true → f.cfgok = true) ∧ (e.epen = true → f.epen = true)

theorem Endpoint.Stays.refl (e : Endpoint) : e.Stays e := ⟨id, id⟩

theorem writeCtl_stays {v : Byte} {e : Endpoint} (h : bitOf v 0 = true) : e.Stays (e.writeCtl v) := by
  simp [Endpoint.writeCtl, h, Endpoint.Stays]

theorem releases_stay (v : Byte) (e : Endpoint) : e.Stays ((e.releaseSetup v).releaseOut v) := by
  unfold Endpoint.releaseOut Endpoint.releaseSetup
  split <;> split <;> exact ⟨id, id⟩

theorem commit_stays (e : Endpoint) : e.Stays e.commit := by
  unfold Endpoint.commit; split <;> exact ⟨id, id⟩

theorem writeInt_stays {v : Byte} {e f : Endpoint} (h : e.writeInt v = .ok f) : e.Stays f := by
  have h1 := releases_stay v e
  unfold Endpoint.writeInt at h
  dsimp only at h
  split at h
  · split at h
    · cases h; exact h1
    · split at h
      · cases h
      · cases h
        have h2 := commit_stays { (e.releaseSetup v).releaseOut v with txini := false }
        exact ⟨fun x => h2.1 (h1.1 x), fun x => h2.2 (h1.2 x)⟩
  · cases h; exact h1

theorem answerIn_stays (e : Endpoint) : e.Stays e.answerIn.2 := by
  unfold Endpoint.answerIn
  split
  · exact .refl e
  · split
    · split <;> exact ⟨id, id⟩
    · exact .refl e

theorem answerOut_stays (d : List Byte) (e : Endpoint) : e.Stays (e.answerOut d).2 := by
  unfold Endpoint.answerOut
  split
  · exact .refl e
  · split
    · exact .refl e
    · split <;> exact ⟨id, id⟩

/-- Endpoint 3 stays allocated and enabled. -/
def Ep3Stays (s t : State) : Prop := ∀ e, s.eps[3]? = some e → ∃ f, t.eps[3]? = some f ∧ e.Stays f

theorem Ep3Stays.of_eq {s t : State} (h : t.eps = s.eps) : Ep3Stays s t := fun e he => ⟨e, h ▸ he, .refl e⟩

theorem Ep3Stays.set {s t : State} {n : Nat} {f : Endpoint} (h : t.eps = s.eps.set n f)
    (hf : ∀ e, s.eps[n]? = some e → e.Stays f) : Ep3Stays s t := by
  intro e he
  rw [h]
  by_cases hn : n = 3
  · subst hn
    exact ⟨f, by simp [(List.getElem?_eq_some_iff.mp he).1], hf e he⟩
  · exact ⟨e, by rw [List.getElem?_set_ne hn]; exact he, .refl e⟩

/-! ### Steps that leave the enumeration state alone -/

/-- No bus reset comes, the address stays, endpoint 3 stays: or a bus reset comes and clears the address. -/
def BusKeeps (s t : State) : Prop :=
  (t.dev.uadd = s.dev.uadd ∧ t.dev.adden = s.dev.adden ∧ t.dev.eorsti = s.dev.eorsti ∧ Ep3Stays s t) ∨
    (t.dev.adden = false ∧ t.dev.eorsti = true)

theorem BusKeeps.of_same {s t : State} (hd : t.dev = s.dev) (he : Ep3Stays s t) : BusKeeps s t :=
  .inl ⟨by rw [hd], by rw [hd], by rw [hd], he⟩

theorem BusKeeps.due {s t : State} (h : BusKeeps s t) (hc : t.ctx = s.ctx) (ht : t.resetDue = false) :
    s.resetDue = false ∧ t.dev.adden = s.dev.adden ∧ Ep3Stays s t := by
  unfold State.resetDue at *
  rcases h with ⟨_, h2, h3, h4⟩ | ⟨_, h⟩
  · rw [← h3, ← hc]; exact ⟨ht, h2, h4⟩
  · simp [h] at ht

/-- A fault or a move of `seq` within its handler. -/
structure EnumMove (s t : State) : Prop where
  enum : t.enum = s.enum
  ctx : t.ctx = s.ctx
  bus : t.ctx ≠ .init → t.ctx ≠ .busReset → BusKeeps s t

theorem Ep3Stays.cfgok {s t : State} (h : Ep3Stays s t) (hs : ∃ e, s.eps[3]? = some e ∧ e.cfgok = true) :
    ∃ e, t.eps[3]? = some e ∧ e.cfgok = true := by
  obtain ⟨e, he, hc⟩ := hs
  obtain ⟨f, hf, hk⟩ := h e he
  exact ⟨f, hf, hk.1 hc⟩

theorem Ep3Stays.epen {s t : State} (h : Ep3Stays s t) (hs : ∃ e, s.eps[3]? = some e ∧ e.epen = true) :
    ∃ e, t.eps[3]? = some e ∧ e.epen = true := by
  obtain ⟨e, he, hc⟩ := hs
  obtain ⟨f, hf, hk⟩ := h e he
  exact ⟨f, hf, hk.2 hc⟩

theorem due_of_busReset {s : State} (h : s.ctx = .busReset) : s.resetDue = true := by simp [State.resetDue, h]

/-- The halt raises no claim on endpoint 3 or on the address. -/
theorem State.EnumOk.halt {s t : State} (h : s.EnumOk) (he : t.enum = s.enum) (hc : t.ctx = .halted)
    (hs : t.seq = .halted) : t.EnumOk := by
  refine ⟨fun x => ?_, ?_, ?_, fun x => ?_, fun x => ?_, fun _ x => absurd hc x, fun _ x => absurd hc x⟩
  · rw [hc] at x; cases x
  · rw [he]; exact h.unconfigured
  · rw [he]; exact h.configured
  · rw [hs] at x; rcases x with x | x <;> cases x
  · rw [hs] at x; rcases x with x | x <;> cases x

/-- A move that keeps the enumeration state, given what it must bring of SET_CONFIGURATION's progress. -/
theorem EnumMove.enumOk {s t : State} (m : EnumMove s t) (h : s.EnumOk)
    (storing : t.seq = .scZw ∨ t.seq = .scZc → t.enum.devState = .configured → cfgOf t.latch.wValue ≠ 0)
    (enabled : t.seq = .scCfgType ∨ t.seq = .scCfgAlloc → t.resetDue = false → ∃ e, t.eps[3]? = some e ∧ e.epen = true)
    (keyboard : t.enum.devState = .configured → t.seq.configuring = false → s.seq.configuring = false) : t.EnumOk := by
  have hb : t.enum.devState ≠ .default → t.resetDue = false →
      s.resetDue = false ∧ t.dev.adden = s.dev.adden ∧ Ep3Stays s t := by
    intro h1 h2
    refine (m.bus (fun x => h1 ?_) (fun x => ?_)).due m.ctx h2
    · rw [m.enum, h.power (m.ctx ▸ x)]
    · rw [due_of_busReset x] at h2; cases h2
  refine ⟨fun x => ?_, ?_, ?_, storing, enabled, fun h1 h2 h3 h4 => ?_, fun h1 h2 h3 => ?_⟩
  · rw [m.enum]; exact h.power (m.ctx ▸ x)
  · rw [m.enum]; exact h.unconfigured
  · rw [m.enum]; exact h.configured
  · obtain ⟨b1, _, b3⟩ := hb (by rw [h1]; decide) h3
    exact b3.cfgok (h.keyboard (m.enum ▸ h1) (m.ctx ▸ h2) b1 (keyboard h1 h4))
  · obtain ⟨b1, b2, _⟩ := hb (by rw [h1]; decide) h3
    rw [b2]; exact h.addressed (m.enum ▸ h1) (m.ctx ▸ h2) b1

/-- Outside SET_CONFIGURATION's progress there is nothing more to bring. -/
theorem EnumMove.plain {s t : State} (m : EnumMove s t) (h : s.EnumOk) (hs : s.seq.configuring = false)
    (ht : t.seq.configuring = false) : t.EnumOk := by
  refine m.enumOk h (fun x => ?_) (fun x => ?_) (fun _ _ => hs)
  · rcases x with x | x <;> (rw [x] at ht; cases ht)
  · rcases x with x | x <;> (rw [x] at ht; cases ht)

/-- A move within SET_CONFIGURATION, which may release endpoint 3's banks. -/
theorem State.EnumOk.step {s t : State} (h : s.EnumOk) (hc : s.ctx = .setup) (he : t.enum = s.enum)
    (hc' : t.ctx = s.ctx) (ha : t.dev.adden = s.dev.adden) (ho : t.dev.eorsti = s.dev.eorsti)
    (storing : t.seq = .scZw ∨ t.seq = .scZc → t.enum.devState = .configured → cfgOf t.latch.wValue ≠ 0)
    (enabled : t.seq = .scCfgType ∨ t.seq = .scCfgAlloc → t.resetDue = false → ∃ e, t.eps[3]? = some e ∧ e.epen = true)
    (keyboard : t.enum.devState = .configured → t.resetDue = false → t.seq.configuring = false →
      ∃ e, t.eps[3]? = some e ∧ e.cfgok = true) : t.EnumOk := by
  have hd : t.resetDue = s.resetDue := by rw [State.resetDue, ho, hc']; rfl
  refine ⟨fun x => ?_, ?_, ?_, storing, enabled, fun h1 _ h3 h4 => keyboard h1 h3 h4, fun h1 h2 h3 => ?_⟩
  · rw [hc', hc] at x; cases x
  · rw [he]; exact h.unconfigured
  · rw [he]; exact h.configured
  · rw [ha]; exact h.addressed (he ▸ h1) (hc' ▸ h2) (hd ▸ h3)

/-- The return to `IDLE` of a handler that is not the bus reset's. -/
theorem State.EnumOk.idle {s : State} (h : s.EnumOk) (hc : s.ctx ≠ .busReset) (hh : s.ctx ≠ .halted)
    (hs : s.seq.configuring = false) : (returnIdle s).EnumOk := by
  have hd : (returnIdle s).resetDue = s.resetDue := by
    have : (s.ctx == Ctx.busReset) = false := beq_eq_false_iff_ne.mpr hc
    simp only [State.resetDue, returnIdle, this]; rfl
  exact ⟨fun x => Ctx.noConfusion x, h.unconfigured, h.configured, fun x => (by rcases x with x | x <;> cases x),
    fun x => (by rcases x with x | x <;> cases x), fun h1 _ h3 _ => h.keyboard h1 hh (hd ▸ h3) hs,
    fun h1 _ h3 => h.addressed h1 hh (hd ▸ h3)⟩

/-- The entry into a handler (60_exceptions.md R378). -/
theorem State.EnumOk.enter {s : State} {c : Ctx} (h : s.EnumOk) (hi : s.ctx = .idle) (hc : c ≠ .init) :
    ({ s with ctx := c } : State).EnumOk := by
  have hd : ({ s with ctx := c } : State).resetDue = false → s.resetDue = false := by
    simp [State.resetDue, hi]; exact fun x _ => x
  have hn : s.ctx ≠ .halted := by rw [hi]; decide
  exact ⟨fun x => absurd x hc, h.unconfigured, h.configured, h.storing, fun h1 h2 => h.enabled h1 (hd h2),
    fun h1 _ h3 h4 => h.keyboard h1 hn (hd h3) h4, fun h1 _ h3 => h.addressed h1 hn (hd h3)⟩

theorem State.AddressOk.move {s t : State} (h : s.AddressOk) (hu : t.dev.uadd = s.dev.uadd)
    (ha : t.dev.adden = s.dev.adden) (he : t.enum.assignedAddr = s.enum.assignedAddr)
    (hd : t.resetDue = true → s.resetDue = true) : t.AddressOk :=
  ⟨fun x => by rw [hu, he]; exact h.agrees (ha ▸ x), fun x => by rw [ha]; exact h.cleared (hd x)⟩

/-! ### Register operations of the microprogram -/

/-- A register operation of the microprogram, the device address apart. -/
structure OpMoves (s u : State) : Prop where
  frame : OpFrame s u
  uadd : u.dev.uadd = s.dev.uadd
  adden : u.dev.adden = s.dev.adden
  cleared : u.dev.eorsti = true → s.dev.eorsti = true
  bus : s.ctx ≠ .init → s.ctx ≠ .busReset → BusKeeps s u

theorem OpMoves.of_same {s u : State} (hf : OpFrame s u) (hd : u.dev = s.dev) (he : Ep3Stays s u) : OpMoves s u :=
  ⟨hf, by rw [hd], by rw [hd], by rw [hd]; exact id, fun _ _ => .of_same hd he⟩

theorem returns_moves {v : Byte} {s u : State} (h : (Except.ok (returns v s) : OpResult) = .ok u) : OpMoves s u := by
  cases h; exact .of_same (.returns v s) rfl (.of_eq rfl)

theorem wrPllctl_moves {v : Byte} {s u : State} (h : wrPllctl v s = .ok u) : OpMoves s u := by
  cases h; exact ⟨.dev _ s, rfl, rfl, id, fun _ _ => .inl ⟨rfl, rfl, rfl, .of_eq rfl⟩⟩

theorem wrDevctl_moves {v : Byte} {s u : State} (h : wrDevctl v s = .ok u) : OpMoves s u := by
  cases h; exact ⟨.dev _ s, rfl, rfl, id, fun _ _ => .inl ⟨rfl, rfl, rfl, .of_eq rfl⟩⟩

theorem wrDevinten_moves {v : Byte} {s u : State} (h : wrDevinten v s = .ok u) : OpMoves s u := by
  cases h; exact ⟨.dev _ s, rfl, rfl, id, fun _ _ => .inl ⟨rfl, rfl, rfl, .of_eq rfl⟩⟩

theorem wrEpsel_moves {v : Byte} {s u : State} (h : wrEpsel v s = .ok u) : OpMoves s u := by
  cases h; exact ⟨.dev _ s, rfl, rfl, id, fun _ _ => .inl ⟨rfl, rfl, rfl, .of_eq rfl⟩⟩

theorem wrDevint_moves {v : Byte} {s u : State} (hv : bitOf v 1 = true) (h : wrDevint v s = .ok u) : OpMoves s u := by
  cases h
  have ho : (s.dev.eorsti && bitOf v 1) = s.dev.eorsti := by rw [hv, Bool.and_true]
  exact ⟨.dev _ s, rfl, rfl, fun x => ho ▸ x, fun _ _ => .inl ⟨rfl, rfl, ho, .of_eq rfl⟩⟩

theorem readSelected_moves {f : Endpoint → Byte} {s u : State} (h : readSelected f s = .ok u) : OpMoves s u := by
  refine .of_same (readSelected_frame h) ?_ (.of_eq ?_)
  all_goals
    cases hs : s.selected with
    | none => simp [readSelected_none hs] at h
    | some e => rw [readSelected_ok hs] at h; cases h; rfl

theorem withSelected_moves {s : State} {e f : Endpoint} (hs : s.selected = some e) (hf : e.Stays f) :
    OpMoves s (s.withSelected f) := by
  refine .of_same (.withSelected f s) rfl (.set (n := s.dev.epnum.toNat) rfl fun e' he' => ?_)
  rw [State.selected, he'] at hs
  cases hs; exact hf

theorem onSelected_moves {f : Endpoint → Except FaultKind Endpoint} {s u : State}
    (hf : ∀ e e', f e = .ok e' → e.Stays e') (h : onSelected f s = .ok u) : OpMoves s u := by
  rcases onSelected_cases (f := f) (s := s) with ⟨_, h'⟩ | ⟨e, k, _, _, h'⟩ | ⟨e, e', hs, he, h'⟩
  · simp [h'] at h
  · simp [h'] at h
  · rw [h'] at h; cases h; exact withSelected_moves hs (hf e e' he)

theorem wrEpctl_moves {v : Byte} {s u : State} (hv : bitOf v 0 = true) (h : wrEpctl v s = .ok u) : OpMoves s u :=
  onSelected_moves (fun _ _ he => by cases he; exact writeCtl_stays hv) h

theorem wrEpinten_moves {v : Byte} {s u : State} (h : wrEpinten v s = .ok u) : OpMoves s u :=
  onSelected_moves (fun _ _ he => by cases he; exact ⟨id, id⟩) h

theorem wrEpint_moves {v : Byte} {s u : State} (h : wrEpint v s = .ok u) : OpMoves s u :=
  onSelected_moves (fun _ _ he => writeInt_stays he) h

theorem wrEpdata_moves {b : Byte} {s u : State} (h : wrEpdata b s = .ok u) : OpMoves s u :=
  onSelected_moves (fun _ _ he => by obtain ⟨_, _, _, _, _, rfl⟩ := pushData_ok he; exact ⟨id, id⟩) h

theorem rdEpdata_moves {s u : State} (h : rdEpdata s = .ok u) : OpMoves s u := by
  cases hs : s.selected with
  | none => simp [rdEpdata_none hs] at h
  | some e =>
    cases hp : e.popData with
    | error k => simp [rdEpdata_error hs hp] at h
    | ok r =>
      obtain ⟨b, e'⟩ := r
      rw [rdEpdata_ok hs hp] at h; cases h
      obtain ⟨_, _, d, _, rfl⟩ := popData_ok hp
      have := withSelected_moves (f := e.setCurrent d) hs ⟨id, id⟩
      exact ⟨⟨rfl, this.frame.count⟩, rfl, rfl, id, fun h1 h2 => this.bus h1 h2⟩

theorem wrEptogrst_moves {v : Byte} {s u : State} (h : wrEptogrst v s = .ok u) : OpMoves s u := by
  refine .of_same (wrEptogrst_frame h) (by cases h; rfl) ?_
  cases h
  intro e he
  refine ⟨_, by simp [List.getElem?_mapIdx, he]; rfl, ?_⟩
  unfold Endpoint.resetToggle
  split <;> exact ⟨id, id⟩

/-- The writes to configuration registers, in the contexts where R358 claims nothing. -/
theorem early_moves {f : Endpoint → Except FaultKind Endpoint} {s u : State} (hc : s.ctx = .init ∨ s.ctx = .busReset)
    (h : onSelected f s = .ok u) : OpMoves s u := by
  have hf := onSelected_frame h
  have hd : u.dev = s.dev := by
    rcases onSelected_cases (f := f) (s := s) with ⟨_, h'⟩ | ⟨e, k, _, _, h'⟩ | ⟨e, e', _, _, h'⟩
    · simp [h'] at h
    · simp [h'] at h
    · rw [h'] at h; cases h; rfl
  refine ⟨hf, by rw [hd], by rw [hd], by rw [hd]; exact id, fun h1 h2 => ?_⟩
  rcases hc with hc | hc
  · exact absurd hc h1
  · exact absurd hc h2

/-! ### Microstates -/

/-- What an engine step keeps of R358. -/
structure EnumKeeps (s t : State) : Prop where
  enumOk : s.EnumOk → t.EnumOk
  addressOk : s.AddressOk → ¬(s.seq = .saApply ∧ s.dev.eorsti = true) → t.AddressOk

theorem EnumKeeps.refl (s : State) : EnumKeeps s s := ⟨id, fun h _ => h⟩

theorem raise_enumKeeps (k : FaultKind) (s : State) : EnumKeeps s (raise k s) := by
  refine ⟨fun h => h.halt rfl rfl rfl, fun h _ => h.move rfl rfl rfl fun x => ?_⟩
  simp only [State.resetDue, raise] at x
  simp at x
  simp [State.resetDue, x]

theorem OpMoves.resetDue {s u : State} (m : OpMoves s u) (h : u.resetDue = true) : s.resetDue = true := by
  unfold State.resetDue at *
  have hc : u.ctx = s.ctx := by rw [m.frame.same]
  rw [hc] at h
  simp only [Bool.or_eq_true] at h ⊢
  exact h.imp m.cleared id

/-- A register operation, then new work, latch and microstate outside SET_CONFIGURATION's progress. -/
theorem OpMoves.plain {s u t : State} (m : OpMoves s u) (hs : s.seq.configuring = false)
    (ht : t.seq.configuring = false) (h : t = { u with work := t.work, latch := t.latch, seq := t.seq }) :
    EnumKeeps s t := by
  have hm := m.frame.same
  have h1 : t.enum = s.enum := by rw [h, hm]
  have h2 : t.ctx = s.ctx := by rw [h, hm]
  have h3 : t.dev = u.dev := by rw [h]
  have h4 : t.eps = u.eps := by rw [h]
  constructor
  · intro hk
    refine EnumMove.plain ⟨h1, h2, fun x y => ?_⟩ hk hs ht
    have := m.bus (h2 ▸ x) (h2 ▸ y)
    unfold BusKeeps Ep3Stays at *
    rw [h3, h4]; exact this
  · intro ha _
    refine ha.move (by rw [h3, m.uadd]) (by rw [h3, m.adden]) (by rw [h1]) fun x => m.resetDue ?_
    rw [h] at x; exact x

theorem finish_enum {s t : State} {r : OpResult} {g : State → State} (hk : ∀ u, r = .ok u → EnumKeeps s (g u))
    (h : finish s (r.map g) = .next t) : EnumKeeps s t := by
  rcases finish_next h with h | ⟨k, _, rfl⟩
  · obtain ⟨u, hu, rfl⟩ := map_ok_iff.mp h; exact hk u hu
  · exact raise_enumKeeps k s

theorem thenGo_enum {s t : State} {r : OpResult} {q : Seq} (hk : ∀ u, r = .ok u → OpMoves s u)
    (hs : s.seq.configuring = false) (hq : q.configuring = false) (h : thenGo s r q = .next t) : EnumKeeps s t :=
  finish_enum (fun u hu => (hk u hu).plain hs hq rfl) h

theorem waitReady_enum {s t : State} {g : State → State} (hg : ∀ u, OpMoves s u → EnumKeeps s (g u))
    (h : waitReady s g = .next t) : EnumKeeps s t := by
  unfold waitReady at h
  split at h
  · exact finish_enum (fun u hu => hg u (readSelected_moves hu)) h
  · cases h; exact .refl s

theorem next_enum {s t u : State} (hk : EnumKeeps s t) (h : (Host.Outcome.next t : Result) = .next u) :
    EnumKeeps s u := by cases h; exact hk

/-- A step without a register operation, outside SET_CONFIGURATION's progress. -/
theorem plain_enum {s t : State} (hs : s.seq.configuring = false) (ht : t.seq.configuring = false)
    (h : t = { s with work := t.work, latch := t.latch, seq := t.seq }) : EnumKeeps s t :=
  (OpMoves.of_same (u := s) ⟨rfl, rfl⟩ rfl (.of_eq rfl)).plain hs ht h

/-- A register operation, then the return, of a handler that is not the bus reset's. -/
theorem OpMoves.return {s u : State} (m : OpMoves s u) (hs : s.seq.configuring = false) (hc : s.ctx ≠ .busReset)
    (hh : s.ctx ≠ .halted) : EnumKeeps s (returnIdle u) := by
  have hm := m.frame.same
  have hq : u.seq.configuring = false := by rw [hm]; exact hs
  have hc' : u.ctx = s.ctx := by rw [hm]
  have hk := m.plain (t := u) hs hq rfl
  refine ⟨fun h => (hk.enumOk h).idle (hc' ▸ hc) (hc' ▸ hh) hq,
    fun h hn => (hk.addressOk h hn).move rfl rfl rfl fun x => ?_⟩
  simp only [State.resetDue, returnIdle] at x
  simp at x
  simp [State.resetDue, x]

/-- A step within SET_CONFIGURATION leaves the address alone. -/
theorem OpMoves.address {s u t : State} (m : OpMoves s u) (h : t = { u with seq := t.seq }) (ha : s.AddressOk) :
    t.AddressOk := by
  have hm := m.frame.same
  refine ha.move ?_ ?_ ?_ fun x => m.resetDue ?_
  · rw [h]; exact m.uadd
  · rw [h]; exact m.adden
  · rw [h, hm]
  · rw [h] at x; exact x

/-- What a microstate may assume of the microprogram's invariant. -/
structure SeqFacts (s : State) : Prop where
  context : s.ctx = s.seq.context
  onEp3 : s.seq.onEp3 = true → s.dev.epnum = 3

/-- SET_CONFIGURATION's microstates (44_control_sequencer.md R306, R307): each brings the next one what it needs. -/
theorem configuring_enum {s t : State} (hf : SeqFacts s) (hq : s.seq.configuring = true)
    (h : microstep s.latch s = .next t) : EnumKeeps s t := by
  have ctx : s.ctx = .setup := by
    rw [hf.context]
    cases hs : s.seq <;> first | rfl | (rw [hs] at hq; cases hq)
  have hn : s.ctx ≠ .init ∧ s.ctx ≠ .busReset := by rw [ctx]; decide
  /- a register operation that keeps endpoint 3, then another microstate -/
  have go : ∀ {u : State} (q : Seq), OpMoves s u →
      (s.EnumOk → q = .scZw ∨ q = .scZc → s.enum.devState = .configured → cfgOf s.latch.wValue ≠ 0) →
      (q = .scCfgType ∨ q = .scCfgAlloc → ∃ e, u.eps[3]? = some e ∧ e.epen = true) →
      (s.EnumOk → q.configuring = false → s.enum.devState ≠ .configured) → EnumKeeps s (goto q u) := by
    intro u q m h1 h2 h3
    have hm := m.frame.same
    have hb : BusKeeps s (goto q u) := m.bus hn.1 hn.2
    refine ⟨fun hk => EnumMove.enumOk ⟨by rw [hm]; rfl, by rw [hm]; rfl, fun _ _ => hb⟩ hk ?_ (fun x _ => h2 x) ?_,
      fun ha _ => m.address rfl ha⟩
    · rw [show (goto q u).enum = s.enum by rw [hm]; rfl, show (goto q u).latch = s.latch by rw [hm]; rfl]
      exact h1 hk
    · rw [show (goto q u).enum = s.enum by rw [hm]; rfl]
      exact fun x y => absurd x (h3 hk y)
  cases hs : s.seq <;> rw [hs] at hq <;> first | (cases hq; done) | skip
  case scZw =>
    simp only [microstep, hs] at h
    exact waitReady_enum (fun u m => go .scZc m (fun hk _ => hk.storing (.inl hs)) (fun x => by simp at x) nofun) h
  case scZc =>
    simp only [microstep, hs, scZcStep] at h
    refine finish_enum (fun u hu => go _ (wrEpint_moves hu) (fun hk _ => hk.storing (.inr hs)) ?_ ?_) h
    · split <;> (intro x; simp at x)
    · intro hk hq' hc
      rw [if_pos (hk.storing (.inr hs) hc)] at hq'
      cases hq'
  case scCfgSel =>
    simp only [microstep, hs] at h
    exact finish_enum (fun u hu => go .scCfgEn (wrEpsel_moves hu) (fun _ x => by simp at x) (fun x => by simp at x)
      nofun) h
  case scCfgEn =>
    simp only [microstep, hs] at h
    refine finish_enum (fun u hu => go .scCfgType (wrEpctl_moves rfl hu) (fun _ x => by simp at x)
      (fun _ => ?_) nofun) h
    rcases onSelected_cases (f := fun e => .ok (e.writeCtl 0x01)) (s := s) with
      ⟨_, h'⟩ | ⟨e, k, _, h', _⟩ | ⟨e, e', he, h', ho⟩
    · rw [wrEpctl, h'] at hu; cases hu
    · cases h'
    · rw [wrEpctl, ho] at hu; cases hu; cases h'
      have h3 := hf.onEp3 (by rw [hs]; rfl)
      rw [State.selected, h3] at he
      exact ⟨e.writeCtl 0x01, by
        simp only [State.withSelected, h3]
        exact List.getElem?_set_self (List.getElem?_eq_some_iff.mp he).1, rfl⟩
  case scCfgType =>
    simp only [microstep, hs] at h
    have h3 := hf.onEp3 (by rw [hs]; rfl)
    refine finish_enum (fun u hu => ?_) h
    rcases onSelected_cases (f := fun e => .ok (e.writeCfg0 0xC1)) (s := s) with
      ⟨_, h'⟩ | ⟨e, k, _, h', _⟩ | ⟨e, e', he, h', ho⟩
    · rw [wrEpcfg0, h'] at hu; cases hu
    · cases h'
    · rw [wrEpcfg0, ho] at hu; cases hu; cases h'
      rw [State.selected, h3] at he
      refine ⟨fun hk => hk.step ctx rfl rfl rfl rfl (fun x => by rcases x with x | x <;> cases x)
        (fun _ hd => ?_) nofun,
        fun ha _ => ha.move rfl rfl rfl id⟩
      obtain ⟨f, hf', hp⟩ := hk.enabled (.inl hs) hd
      have hef : some e = some f := he.symm.trans hf'
      cases hef
      refine ⟨e.writeCfg0 0xC1, ?_, ?_⟩
      · simp only [State.withSelected, h3, goto]
        exact List.getElem?_set_self (List.getElem?_eq_some_iff.mp he).1
      · unfold Endpoint.writeCfg0; dsimp only; split <;> exact hp
  case scCfgAlloc =>
    simp only [microstep, hs] at h
    have h3 := hf.onEp3 (by rw [hs]; rfl)
    refine finish_enum (fun u hu => ?_) h
    rcases onSelected_cases (f := fun e => .ok (e.writeCfg1 0x06)) (s := s) with
      ⟨_, h'⟩ | ⟨e, k, _, h', _⟩ | ⟨e, e', he, h', ho⟩
    · rw [wrEpcfg1, h'] at hu; cases hu
    · cases h'
    · rw [wrEpcfg1, ho] at hu; cases hu; cases h'
      rw [State.selected, h3] at he
      refine ⟨fun hk => hk.step ctx rfl rfl rfl rfl (fun x => by rcases x with x | x <;> cases x)
        (fun x => by rcases x with x | x <;> cases x) (fun _ hd _ => ?_), fun ha _ => ha.move rfl rfl rfl id⟩
      obtain ⟨f, hf', hp⟩ := hk.enabled (.inr hs) hd
      have hef : some e = some f := he.symm.trans hf'
      cases hef
      refine ⟨e.writeCfg1 0x06, ?_, ?_⟩
      · simp only [State.withSelected, h3, goto]
        exact List.getElem?_set_self (List.getElem?_eq_some_iff.mp he).1
      · rw [writeCfg1_of_legal (by decide) hp (by decide) (by decide)]

theorem afterRead_configuring (k : Fin 8) : (afterRead k).configuring = false := by revert k; decide

/-- Every microstate keeps R358's invariants, `SA_APPLY` after a bus reset apart (log 26). -/
theorem microstep_enum {s t : State} (hf : SeqFacts s) (h : microstep s.latch s = .next t) : EnumKeeps s t := by
  cases hq : s.seq.configuring with
  | true => exact configuring_enum hf hq h
  | false =>
  have hx := hf.context
  unfold microstep at h
  split at h
  case h_1 => exact next_enum (.refl s) h
  case h_2 => exact next_enum (.refl s) h
  case h_3 => exact thenGo_enum (fun _ => wrPllctl_moves) hq rfl h
  case h_4 =>
    unfold initLockStep at h
    split at h
    · exact next_enum (raise_enumKeeps _ s) h
    · split at h
      · exact thenGo_enum (fun _ => returns_moves) hq rfl h
      · exact next_enum (.refl s) h
  case h_5 => exact thenGo_enum (fun _ => wrEpsel_moves) hq rfl h
  case h_6 => exact thenGo_enum (fun _ => wrEpctl_moves rfl) hq rfl h
  case h_7 hs => exact thenGo_enum (fun _ => early_moves (.inl (by rw [hx, hs]; rfl))) hq rfl h
  case h_8 hs => exact thenGo_enum (fun _ => early_moves (.inl (by rw [hx, hs]; rfl))) hq rfl h
  case h_9 => exact thenGo_enum (fun _ => wrEpinten_moves) hq rfl h
  case h_10 => exact thenGo_enum (fun _ => wrDevinten_moves) hq rfl h
  case h_11 hs =>
    exact finish_enum (fun u hu => OpMoves.return (wrDevctl_moves hu) hq (by rw [hx, hs]; decide)
      (by rw [hx, hs]; decide)) h
  case h_12 hs =>
    refine thenGo_enum (fun u hu => ?_) hq rfl h
    cases hu
    refine ⟨.dev _ s, rfl, rfl, fun x => ?_, fun _ x => absurd (by rw [hx, hs]; rfl) x⟩
    simp only [Bool.and_eq_true] at x
    exact x.1
  case h_13 => exact thenGo_enum (fun _ => wrEpsel_moves) hq rfl h
  case h_14 => exact thenGo_enum (fun _ => wrEpctl_moves rfl) hq rfl h
  case h_15 hs => exact thenGo_enum (fun _ => early_moves (.inr (by rw [hx, hs]; rfl))) hq rfl h
  case h_16 hs => exact thenGo_enum (fun _ => early_moves (.inr (by rw [hx, hs]; rfl))) hq rfl h
  case h_17 => exact thenGo_enum (fun _ => wrEpinten_moves) hq rfl h
  case h_18 hs =>
    refine next_enum ⟨fun _ => ?_, fun ha _ => ?_⟩ h
    · exact ⟨fun x => Ctx.noConfusion x, fun _ => rfl, fun x => DevState.noConfusion x,
        fun _ x => DevState.noConfusion x, fun x => (by rcases x with x | x <;> cases x),
        fun x => DevState.noConfusion x, fun x => DevState.noConfusion x⟩
    · have hc : s.dev.adden = false := ha.cleared (due_of_busReset (by rw [hx, hs]; rfl))
      exact ⟨fun x => absurd (hc.symm.trans x) (by decide), fun _ => hc⟩
  case h_19 hs =>
    exact finish_enum (fun u hu => OpMoves.return (wrDevint_moves (by decide) hu) hq (by rw [hx, hs]; decide)
      (by rw [hx, hs]; decide)) h
  case h_20 => exact thenGo_enum (fun _ => wrEpsel_moves) hq rfl h
  case h_21 k hs =>
    exact finish_enum (fun u hu => (rdEpdata_moves hu).plain hq (afterRead_configuring k) rfl) h
  case h_22 => exact thenGo_enum (fun _ => wrEpint_moves) hq rfl h
  case h_23 =>
    refine next_enum (plain_enum hq ?_ rfl) h
    simp only [goto]; cases requestKind (half s.latch.bRequest s.latch.bmRequestType) <;> rfl
  case h_24 =>
    unfold gdLookupStep at h
    split at h
    · exact next_enum (plain_enum hq rfl rfl) h
    · refine next_enum (plain_enum hq ?_ rfl) h
      dsimp only; split <;> rfl
  case h_25 => exact next_enum (plain_enum hq rfl rfl) h
  case h_26 => exact waitReady_enum (fun u m => m.plain hq rfl rfl) h
  case h_27 => exact thenGo_enum (fun _ => wrEpint_moves) hq rfl h
  case h_28 => exact waitReady_enum (fun u m => m.plain hq rfl rfl) h
  case h_29 hs =>
    refine finish_enum (fun u hu => ?_) h
    cases hu
    have hc : s.ctx = .setup := by rw [hx, hs]; rfl
    refine ⟨fun hk => ?_, fun ha hn => ?_⟩
    · exact ⟨fun x => (by rw [show s.ctx = .init from x] at hc; cases hc), fun x => DevState.noConfusion x,
        fun x => DevState.noConfusion x, fun x => (by rcases x with x | x <;> cases x),
        fun x => (by rcases x with x | x <;> cases x), fun x => DevState.noConfusion x, fun _ _ _ => adden_apply _⟩
    · refine ⟨fun _ => uaddOf_apply _, fun x => absurd ⟨hs, ?_⟩ hn⟩
      have : (s.dev.eorsti || s.ctx == .busReset) = true := x
      simpa [hc] using this
  case h_30 hs =>
    refine finish_enum (fun u hu => ?_) h
    cases hu
    have hc : s.ctx = .setup := by rw [hx, hs]; rfl
    refine ⟨fun hk => ?_, fun ha _ => ha.move rfl rfl rfl id⟩
    have hd : ((returns s.dev.devaddr s).rdData.getLsbD 7) = s.dev.adden := by
      simp only [returns]
      rw [BitVec.getLsbD_setWidth, ← devaddr_bit7 s.dev]; rfl
    refine ⟨fun x => (by rw [show s.ctx = .init from x] at hc; cases hc), fun x => ?_, fun x => ?_, fun _ x => ?_,
      fun x => (by rcases x with x | x <;> cases x), nofun, fun x _ _ => ?_⟩
    all_goals simp only [storeConfig, hd] at x ⊢
    · by_contra hn; rw [if_pos hn] at x; cases x
    · intro hn; rw [if_neg (by simpa using hn)] at x; split at x <;> cases x
    · intro hn
      rw [if_neg (by simpa using hn)] at x; split at x <;> cases x
    · show s.dev.adden = true
      split at x
      · cases x
      · split at x
        · assumption
        · cases x
  case h_31 hs => rw [hs] at hq; cases hq
  case h_32 hs => rw [hs] at hq; cases hq
  case h_33 hs => rw [hs] at hq; cases hq
  case h_34 hs => rw [hs] at hq; cases hq
  case h_35 hs => rw [hs] at hq; cases hq
  case h_36 hs => rw [hs] at hq; cases hq
  case h_37 => exact thenGo_enum (fun _ => wrEpinten_moves) hq rfl h
  case h_38 => exact thenGo_enum (fun _ => wrEptogrst_moves) hq rfl h
  case h_39 => exact next_enum (plain_enum hq rfl rfl) h
  case h_40 => exact next_enum (plain_enum hq rfl rfl) h
  case h_41 => exact waitReady_enum (fun u m => m.plain hq rfl rfl) h
  case h_42 =>
    unfold strWriteStep at h
    split at h
    · refine finish_enum (fun u hu => (wrEpdata_moves hu).plain hq ?_ rfl) h
      unfold advanceByte; dsimp only; split <;> rfl
    · cases h
  case h_43 =>
    refine finish_enum (fun u hu => (wrEpint_moves hu).plain hq ?_ rfl) h
    unfold advancePacket; dsimp only; split <;> rfl
  case h_44 => exact thenGo_enum (fun _ => wrEpctl_moves rfl) hq rfl h
  case h_45 hs =>
    refine next_enum ?_ h
    exact OpMoves.return (.of_same (u := s) ⟨rfl, rfl⟩ rfl (.of_eq rfl)) hq (by rw [hx, hs]; decide)
      (by rw [hx, hs]; decide)

/-! ### The engine's step, an event, a step of the machine -/

theorem EnumKeeps.of_entry {s t : State} {c : Ctx} (hi : s.ctx = .idle) (hc : c ≠ .init)
    (hb : c = .busReset → s.dev.eorsti = true) (h : EnumKeeps { s with ctx := c } t) : EnumKeeps s t := by
  refine ⟨fun hk => h.enumOk (hk.enter hi hc), fun ha hn => h.addressOk (ha.move rfl rfl rfl fun x => ?_) hn⟩
  simp only [State.resetDue, Bool.or_eq_true, beq_iff_eq] at x ⊢
  exact x.elim .inl fun x => .inl (hb x)

theorem handlerEntry_enum {s t : State} (hi : s.ctx = .idle) (hs : s.seq = .idle) (h : handlerEntry s = .next t) :
    EnumKeeps s t := by
  have hq : s.seq.configuring = false := by rw [hs]; rfl
  unfold handlerEntry at h
  split at h
  · next hb =>
    simp only [busResetPending, Bool.and_eq_true] at hb
    refine .of_entry (c := .busReset) hi (by decide) (fun _ => hb.1) (thenGo_enum (fun u hu => ?_) hq rfl h)
    cases hu
    refine ⟨.dev _ _, rfl, rfl, fun x => ?_, fun _ x => absurd rfl x⟩
    simp only [Bool.and_eq_true] at x
    exact x.1
  · split at h
    · exact .of_entry (c := .busSof) hi (by decide) nofun
        (finish_enum (fun u hu => OpMoves.return (wrDevint_moves (by decide) hu) hq nofun nofun) h)
    · split at h
      · exact .of_entry (c := .setup) hi (by decide) nofun (thenGo_enum (fun _ => wrEpsel_moves) hq rfl h)
      · exact next_enum (.refl s) h

theorem engineStep_enum {s t : State} (hf : SeqFacts s) (h : engineStep s = .next t) : EnumKeeps s t := by
  unfold engineStep at h
  split at h
  · exact next_enum (.refl s) h
  · next hi =>
    refine handlerEntry_enum hi ?_ h
    have := hf.context
    rw [hi] at this
    cases hs : s.seq <;> first | rfl | (rw [hs] at this; cases this)
  all_goals exact microstep_enum hf h

/-- The dispatched request's step. -/
theorem request_enum {s t : State} (hf : SeqFacts s) (h : exec s.latch.request s = .next t) : EnumKeeps s t := by
  have key : ∀ {f : Seq} {q : SetupLatch}, requestStep f q s = .next t → f.configuring = false →
      q.wValue = s.latch.wValue → q.wLength = s.latch.wLength → EnumKeeps s t := by
    intro f q h4 h1 h2 h3
    rcases requestStep_cases h4 with ⟨_, rfl⟩ | ⟨_, hd, rfl⟩ | ⟨_, hd, hm⟩
    · exact .refl _
    · exact plain_enum (by rw [hd]; rfl) h1 rfl
    · rw [microstep_congr h2 h3 hd] at hm; exact microstep_enum hf hm
  unfold SetupLatch.request requestOf at h
  split at h <;> exact key h rfl rfl rfl

theorem setEp_bus {s t : State} {n : EpNum} {e f : Endpoint} (hs : s.eps[n.toNat]? = some e) (hf : e.Stays f)
    (hd : t.dev = s.dev) (he : t.eps = s.eps.set n.toNat f) : BusKeeps s t :=
  .of_same hd (.set he fun e' he' => by rw [hs] at he'; cases he'; exact hf)

/-- What an event does to the address and to endpoint 3 (40_bus_transactions.md). -/
theorem event_bus {i : Instr} {s t : State} (hi : (encode i).1 = .bus) (h : exec i s = .next t) : BusKeeps s t := by
  have refl : BusKeeps s s := .of_same rfl (.of_eq rfl)
  cases i <;> first | (cases hi; done) | skip
  case setup a e d =>
    simp only [exec, execSetup] at h
    split at h
    · cases h; exact refl
    · next ep hr =>
      split at h
      · injection h with h
        subst h
        have hs := (receives_some hr).1
        split <;> exact setEp_bus (f := ep.receiveSetup d) hs ⟨id, id⟩ rfl rfl
      · cases h; exact refl
  case inToken a e =>
    simp only [exec, execIn] at h
    split at h
    · cases h; exact refl
    · next ep hr =>
      split at h
      · cases h; exact setEp_bus (receives_some hr).1 (answerIn_stays ep) rfl rfl
      · cases h; exact refl
  case outToken a e d =>
    simp only [exec, execOut] at h
    split at h
    · cases h; exact refl
    · next ep hr =>
      split at h
      · split at h
        · cases h; exact refl
        · next x ep' ha =>
          cases h
          have := answerOut_stays d ep
          rw [ha] at this
          exact setEp_bus (receives_some hr).1 this rfl rfl
      · cases h; exact refl
  case busReset =>
    simp only [exec, execBusReset] at h
    split at h
    · cases h; exact refl
    · cases h; exact .inr ⟨rfl, rfl⟩
  case sof =>
    simp only [exec, execSof] at h
    split at h <;> (cases h; exact .inl ⟨rfl, rfl, rfl, .of_eq rfl⟩)
  case pllLocked =>
    simp only [exec, execPllLocked] at h
    split at h <;> (cases h; exact .inl ⟨rfl, rfl, rfl, .of_eq rfl⟩)
  case pllFail =>
    simp only [exec, execPllFail] at h
    split at h <;> (cases h; exact .inl ⟨rfl, rfl, rfl, .of_eq rfl⟩)
  case txready n =>
    simp only [exec, execTxready] at h
    split at h
    · cases h; exact refl
    · next e he =>
      split at h
      · cases h; exact setEp_bus (f := e.txReady) he ⟨id, id⟩ rfl rfl
      · cases h; exact refl
  case otherRegOp w b => cases b <;> cases hi
  case statusRead => cases h; exact .of_same rfl (.of_eq rfl)

/-- An event keeps all of R358. -/
theorem event_enum {i : Instr} {s t : State} (hi : (encode i).1 = .bus) (h : exec i s = .next t) :
    (s.EnumOk → t.EnumOk) ∧ (s.AddressOk → t.AddressOk) := by
  have hb := event_bus hi h
  have hr : i.isRequest = false := by cases i <;> first | rfl | cases hi
  have hk := exec_not_request hr h
  refine ⟨fun ho => ?_, fun ha => ?_⟩
  · rcases hk.control with ⟨hc, hs, _⟩ | ⟨_, hc, hs⟩
    · refine EnumMove.enumOk ⟨hk.enum, hc, fun _ _ => hb⟩ ho ?_ ?_ fun _ x => hs ▸ x
      · rw [hs, hk.enum, hk.latch]; exact ho.storing
      · intro x hd
        obtain ⟨h1, _, h3⟩ := hb.due hc hd
        exact h3.epen (ho.enabled (hs ▸ x) h1)
    · exact ho.halt hk.enum hc hs
  · rcases hb with ⟨h1, h2, h3, _⟩ | ⟨h1, _⟩
    · refine ha.move h1 h2 (by rw [hk.enum]) fun x => ?_
      simp only [State.resetDue, Bool.or_eq_true, beq_iff_eq, h3] at x ⊢
      refine x.imp id fun x => ?_
      rcases hk.control with ⟨hc, _⟩ | ⟨_, hc, _⟩
      · exact hc ▸ x
      · rw [hc] at x; cases x
    · exact ⟨fun x => absurd (h1.symm.trans x) (by decide), fun _ => h1⟩

theorem decodeToken_event {k : DevAddr → EpNum → List Byte → Decoded} {bs rest : List Byte} {i : Instr}
    (hk : ∀ a e r, k a e r = .ok i rest → (encode i).1 = .bus) (h : decodeToken k bs = .ok i rest) :
    (encode i).1 = .bus := by
  unfold decodeToken at h
  split at h
  · split at h
    · cases h
    · split at h
      · cases h
      · exact hk _ _ _ h
  · cases h

theorem decodeBus_event {bs rest : List Byte} {i : Instr} (h : decode .bus bs = .ok i rest) : (encode i).1 = .bus := by
  change decodeBus bs = _ at h
  unfold decodeBus at h
  split at h
  · cases h
  repeat' (split at h)
  · refine decodeToken_event (fun a e r hr => ?_) h
    unfold decodePacket8 at hr; split at hr <;> cases hr; rfl
  · exact decodeToken_event (fun a e r hr => by cases hr; rfl) h
  · refine decodeToken_event (fun a e r hr => ?_) h
    unfold decodeOutData at hr
    repeat' (split at hr)
    all_goals cases hr
    rfl
  · cases h; rfl
  · cases h; rfl
  · cases h; rfl
  · cases h; rfl
  · unfold decodeTxready at h
    repeat' (split at h)
    all_goals cases h
    rfl
  · cases h; rfl
  · cases h

/-- Whose instruction a step runs, when it runs one. -/
theorem nextAction_run {s u : State} {i : Instr} (h : nextAction s = .run i u) :
    (s.engineTurn ∧ i = s.latch.request) ∨ (∃ bs rest, .bus bs ∈ s.turns ∧ decode .bus bs = .ok i rest) ∨
      (∃ t ∈ s.turns, t.isMicroprogram = false) ∨ ∃ n, i = .txready n := by
  unfold nextAction at h
  split at h
  · next ts ht =>
    unfold engineAction at h
    split at h
    · cases h; exact .inl ⟨.inr ⟨ts, ht⟩, rfl⟩
    · cases h
  · next bs ts ht =>
    unfold recordAction at h
    split at h
    · next j r hd => cases h; exact .inr (.inl ⟨bs, r, by rw [ht]; exact List.mem_cons_self, hd⟩)
    · cases h
  · next bs ts ht => exact .inr (.inr (.inl ⟨_, by rw [ht]; exact List.mem_cons_self, rfl⟩))
  · next bs ts ht => exact .inr (.inr (.inl ⟨_, by rw [ht]; exact List.mem_cons_self, rfl⟩))
  · next ht =>
    split at h
    · unfold engineAction at h
      split at h
      · cases h; exact .inl ⟨.inl ht, rfl⟩
      · cases h
    · split at h
      · cases h; exact .inr (.inr (.inr ⟨_, rfl⟩))
      · cases h

theorem nextAction_engine {s u : State} (h : nextAction s = .engine u) : s.engineTurn := by
  unfold nextAction at h
  split at h
  · next ts ht => exact .inr ⟨ts, ht⟩
  · unfold recordAction at h; split at h <;> cases h
  · unfold recordAction at h; split at h <;> cases h
  · unfold recordAction at h; split at h <;> cases h
  · next ht => exact .inl ht

/-- What a step keeps of R358: its last invariant not over an `SA_APPLY` after a bus reset (log 26). -/
def State.KeepsR358 (s t : State) : Prop :=
  (s.EnumOk → t.EnumOk) ∧
    (s.AddressOk → ¬(s.engineTurn ∧ s.seq = .saApply ∧ s.dev.eorsti = true) → t.AddressOk)

/-- One step of the microprogram, its host and its controller (00_scope.md R10) keeps R358's first three invariants, and
its last one unless it is an `SA_APPLY` after a bus reset (log 26). -/
theorem step_enum {s t : State} (hm : s.MicroInv) (h : step s = .next t) : s.KeepsR358 t := by
  let u : State := { s with turns := s.turns.tail }
  have hf : SeqFacts u := by
    refine ⟨hm.wf.context, fun x => ?_⟩
    by_cases hc : s.ctx = .halted
    · have := hm.wf.context
      rw [hc] at this
      have hx : s.seq.onEp3 = true := x
      cases hs : s.seq <;> rw [hs] at this hx <;> first | (cases hx; done) | cases this
    · exact (hm.running hc).onEp3 x
  have up : s.EnumOk → u.EnumOk := fun ho =>
    ⟨ho.power, ho.unconfigured, ho.configured, ho.storing, ho.enabled, ho.keyboard, ho.addressed⟩
  have engine : EnumKeeps u t → s.engineTurn → s.KeepsR358 t := fun hk he =>
    ⟨fun ho => hk.enumOk (up ho), fun ha hn => hk.addressOk ⟨ha.agrees, ha.cleared⟩ fun x => hn ⟨he, x⟩⟩
  have event : ∀ {i : Instr}, (encode i).1 = .bus → exec i u = .next t → s.KeepsR358 t := fun hi he =>
    ⟨fun ho => (event_enum hi he).1 (up ho), fun ha _ => (event_enum hi he).2 ⟨ha.agrees, ha.cleared⟩⟩
  rcases step_cases h with ⟨i, ha, h⟩ | ⟨ha, h⟩ | ⟨ha, rfl⟩
  · rcases nextAction_run ha with ⟨he, hi⟩ | ⟨bs, rest, _, hd⟩ | ⟨t', ht', hn⟩ | ⟨n, rfl⟩
    · subst hi; exact engine (request_enum hf h) he
    · exact event (decodeBus_event hd) h
    · exact absurd ((hm.turns t' ht').symm.trans hn) (by decide)
    · exact event rfl h
  · exact engine (engineStep_enum hf h) (nextAction_engine ha)
  · exact ⟨up, fun ha _ => ⟨ha.agrees, ha.cleared⟩⟩

theorem reset_enum (c : Config) : (State.resetWith c).EnumOk ∧ (State.resetWith c).AddressOk :=
  ⟨⟨fun _ => rfl, fun _ => rfl, nofun, fun _ => nofun, fun x => (by rcases x with x | x <;> cases x), nofun, nofun⟩,
    nofun, nofun⟩

/-- R358's first three invariants, as it states them. -/
theorem State.EnumOk.atIdle {s : State} (h : s.EnumOk) (hw : s.Wf) (hc : s.ctx = .idle) (hr : s.dev.eorsti = false) :
    (s.enum.devState = .default → s.enum.configValue = 0) ∧
    (s.enum.devState = .configured → s.enum.configValue ≠ 0 ∧ ∃ e, s.eps[3]? = some e ∧ e.cfgok = true) ∧
    (s.enum.devState = .addressed → s.dev.adden = true) := by
  have hd : s.resetDue = false := by simp [State.resetDue, hr, hc]
  have hn : s.ctx ≠ .halted := by rw [hc]; decide
  have hq : s.seq.configuring = false := by
    have := hw.context
    rw [hc] at this
    cases hs : s.seq <;> rw [hs] at this <;> first | rfl | cases this
  exact ⟨h.unconfigured, fun x => ⟨h.configured x, h.keyboard x hn hd hq⟩, fun x => h.addressed x hn hd⟩

/-! ### A bus reset inside the SETUP handler -/

/-- `n` engine steps, no other agent between them. -/
def engineSteps : Nat → State → Result
  | 0, s => .next s
  | n + 1, s =>
    match engineStep s with
    | .next t => engineSteps n t
    | .fault f => .fault f
    | .refused r => .refused r

/-- Log 26: an `SA_APPLY` that comes after a bus reset, its return and the bus-reset handler after it leave the state
`Default` with no assigned address, and the device at the address of the SET_ADDRESS. -/
theorem late_address {s : State} {e : Endpoint} {es : List Endpoint} (hc : s.ctx = .setup) (hs : s.seq = .saApply)
    (ho : s.dev.eorsti = true) (he : s.dev.eorste = true) (hn : s.eps = e :: es) :
    ∃ t, engineSteps 9 s = .next t ∧ t.ctx = .idle ∧ t.resetDue = false ∧ t.enum = ⟨.default, 0, 0⟩ ∧
      t.dev.adden = true ∧ t.dev.uadd = s.work.pendingAddr := by
  refine ⟨_, by
    simp [engineSteps, engineStep, hc, hs, microstep, saApplyStep, wrDevaddr, finish, Except.map, applyAddress,
      returnIdle, handlerEntry, busResetPending, ho, he, brClrStep, thenGo, wrDevint, goto, wrEpsel, wrEpctl,
      onSelected, hn, wrEpcfg0, wrEpcfg1, wrEpinten, brStateStep]
    rfl, rfl, rfl, rfl, adden_apply _, uaddOf_apply _⟩

/-- Log 28: a `STALL` that comes after a bus reset, its return and the bus-reset handler after it leave endpoint 0
allocated and stalled. -/
theorem late_stall {s : State} {e : Endpoint} {es : List Endpoint} (hc : s.ctx = .setup) (hs : s.seq = .stall)
    (ho : s.dev.eorsti = true) (he : s.dev.eorste = true) (hn : s.eps = e.busReset :: es) (hp : s.dev.epnum = 0) :
    ∃ t f, engineSteps 9 s = .next t ∧ t.ctx = .idle ∧ t.resetDue = false ∧ t.eps = f :: es ∧ f.cfgok = true ∧
      f.stallrq = true := by
  refine ⟨_, _, by
    simp [engineSteps, engineStep, hc, hs, microstep, finish, Except.map, returnIdle, handlerEntry, busResetPending, ho,
      he, brClrStep, thenGo, wrDevint, goto, wrEpsel, wrEpctl, onSelected, hn, hp, wrEpcfg0, wrEpcfg1, wrEpinten,
      brStateStep]
    rfl, rfl, rfl, rfl, rfl, rfl⟩

/-- Log 28: SET_CONFIGURATION's configuration of endpoint 3 that comes after a bus reset, its return and the bus-reset
handler after it leave endpoint 3 enabled and allocated in state `Default`. -/
theorem late_keyboard {s : State} {e0 e1 e2 e3 : Endpoint} {es : List Endpoint} (hc : s.ctx = .setup)
    (hs : s.seq = .scCfgSel) (ho : s.dev.eorsti = true) (he : s.dev.eorste = true)
    (hn : s.eps = e0 :: e1 :: e2 :: e3.busReset :: es) :
    ∃ t f, engineSteps 14 s = .next t ∧ t.ctx = .idle ∧ t.resetDue = false ∧ t.enum.devState = .default ∧
      t.eps[3]? = some f ∧ f.epen = true ∧ f.cfgok = true := by
  have h3 : epnumOf 3#8 = 3#3 := by decide
  have h0 : epnumOf 0#8 = 0#3 := by decide
  refine ⟨_, _, by
    simp [engineSteps, engineStep, hc, hs, microstep, finish, Except.map, returnIdle, handlerEntry, busResetPending, ho,
      he, brClrStep, thenGo, wrDevint, goto, wrEpsel, wrEpctl, onSelected, hn, wrEpcfg0, wrEpcfg1, wrEpinten,
      wrEptogrst, brStateStep, h3, h0]
    rfl, rfl, rfl, rfl, rfl, rfl, rfl⟩

end Sys2Proof.Machine
end

