-- ==== Sys2Proof/Laws/Memory.lean ====
section
/-! SUPPORT. The memory laws of the descriptor ROM. No operation of the block writes it (20_memory.md R95), so the memory
operations are its reads and what every step leaves of it. -/

namespace Sys2Proof.Machine

/-- Where no cell is listed a read gives the image. -/
@[simp] theorem Memory.read_nil (c : Config) (a : Nat) : Memory.read c [] a = (romImage c)[a]? := by
  simp only [Memory.read, Memory.unlisted, List.lookup]
  cases (romImage c)[a]? <;> rfl

/-- A byte exists at an address exactly where the image has one, whatever cells are listed. -/
theorem Memory.read_isSome (c : Config) (m : List Host.Cell) (a : Nat) :
    (Memory.read c m a).isSome = decide (a < (romImage c).length) := by
  simp only [Memory.read, Memory.unlisted]
  by_cases h : a < (romImage c).length <;> simp [h]

theorem romRead_congr {s t : State} (hc : t.cfg = s.cfg) (hr : t.rom = s.rom) (a : Nat) : romRead t a = romRead s a := by
  simp [romRead, hc, hr]

theorem romReads_congr {s t : State} (hc : t.cfg = s.cfg) (hr : t.rom = s.rom) (a n : Nat) :
    romReads t a n = romReads s a n := by
  induction n generalizing a with
  | zero => rfl
  | succ n ih => simp [romReads, romRead_congr hc hr, ih]

/-- The canonical form at power-on. -/
theorem resetWith_memory (c : Config) : Memory.wf (State.resetWith c).cfg (State.resetWith c).rom = true := rfl

/-- No instruction leaves the canonical form. -/
theorem exec_memory {i : Instr} {s t : State} (hm : Memory.wf s.cfg s.rom = true) (h : exec i s = .next t) :
    Memory.wf t.cfg t.rom = true := by
  rw [(exec_keeps h).cfg, (exec_keeps h).rom]; exact hm

/-- Nor does a step of the engine. -/
theorem engineStep_memory {s t : State} (hm : Memory.wf s.cfg s.rom = true) (h : engineStep s = .next t) :
    Memory.wf t.cfg t.rom = true := by
  rw [(engineStep_keeps h).cfg, (engineStep_keeps h).rom]; exact hm

end Sys2Proof.Machine
end

