-- ==== Sys2Proof/Laws/PerInstr.lean ====
section
/-! SUPPORT. For every instruction: the first word the encoder writes is one its row of opcode_table.json takes, and it is
written at the place that row is read (30_encoding.md R104, R107, R109). The masks and matches are the table's. -/

namespace Sys2Proof.Laws.TableRow

/-- The first word of an instruction as the table numbers it: a request's key, an event's code, an operation's word. -/
def firstWord : Port × List Byte → Nat
  | (.setup, b0 :: b1 :: _) => b1.toNat * 256 + b0.toNat
  | (.bus, c :: _) => c.toNat
  | (.reg, lo :: hi :: _) => hi.toNat * 256 + lo.toNat
  | (.reg32, lo :: hi :: _) => hi.toNat * 256 + lo.toNat
  | _ => 0

/-- The place and the bits a row of the table asks for. -/
structure Row where
  ports : List Port
  mask  : Nat
  bits  : Nat

/-- The word is one the row takes, read where the row is read. -/
def Row.takes (r : Row) (w : Port × List Byte) : Prop :=
  w.1 ∈ r.ports ∧ firstWord w &&& r.mask = r.bits

/-- A row of R104. -/
def request (bits mask : Nat) : Row := ⟨[.setup], mask, bits⟩

/-- A row of R107. -/
def event (bits mask : Nat) : Row := ⟨[.bus], mask, bits⟩

/-- A row of R109. -/
def regOp (bits mask : Nat) : Row := ⟨[.reg, .reg32], mask, bits⟩

/-- The row of an instruction, by its match and mask. -/
def rowOf : Instr → Row
  | .getDescriptor _ _ _ => request 0x0680 0xFFFF
  | .setAddress _ _ _ => request 0x0500 0xFFFF
  | .setConfiguration _ _ _ => request 0x0900 0xFFFF
  | .getConfiguration _ _ _ => request 0x0880 0xFFFF
  | .getStatus _ _ _ _ => request 0x0000 0xFF00
  | .stallOther _ _ _ _ _ => request 0x0000 0x0000
  | .setup _ _ _ => event 0x1 0xF
  | .inToken _ _ => event 0x2 0xF
  | .outToken _ _ _ => event 0x3 0xF
  | .busReset => event 0x4 0xF
  | .sof => event 0x5 0xF
  | .pllLocked => event 0x6 0xF
  | .pllFail => event 0x7 0xF
  | .txready _ => event 0x8 0xF
  | .statusRead => event 0x9 0xF
  | .rdPllctl => regOp 0x0000 0xFFFF
  | .wrPllctl _ => regOp 0x8000 0xFFFF
  | .rdDevctl => regOp 0x0001 0xFFFF
  | .wrDevctl _ => regOp 0x8001 0xFFFF
  | .rdDevint => regOp 0x0002 0xFFFF
  | .wrDevint _ => regOp 0x8002 0xFFFF
  | .rdDevinten => regOp 0x0003 0xFFFF
  | .wrDevinten _ => regOp 0x8003 0xFFFF
  | .rdDevaddr => regOp 0x0004 0xFFFF
  | .wrDevaddr _ => regOp 0x8004 0xFFFF
  | .rdEptogrst => regOp 0x0005 0xFFFF
  | .wrEptogrst _ => regOp 0x8005 0xFFFF
  | .rdEpsel => regOp 0x0006 0xFFFF
  | .wrEpsel _ => regOp 0x8006 0xFFFF
  | .rdEpctl => regOp 0x0010 0xFFFF
  | .wrEpctl _ => regOp 0x8010 0xFFFF
  | .rdEpcfg0 => regOp 0x0011 0xFFFF
  | .wrEpcfg0 _ => regOp 0x8011 0xFFFF
  | .rdEpcfg1 => regOp 0x0012 0xFFFF
  | .wrEpcfg1 _ => regOp 0x8012 0xFFFF
  | .rdEpsta => regOp 0x0013 0xFFFF
  | .wrEpsta => regOp 0x8013 0xFFFF
  | .rdEpint => regOp 0x0014 0xFFFF
  | .wrEpint _ => regOp 0x8014 0xFFFF
  | .rdEpinten => regOp 0x0015 0xFFFF
  | .wrEpinten _ => regOp 0x8015 0xFFFF
  | .rdEpdata => regOp 0x0016 0xFFFF
  | .wrEpdata _ => regOp 0x8016 0xFFFF
  | .rdEpbcnt => regOp 0x0017 0xFFFF
  | .wrEpbcnt => regOp 0x8017 0xFFFF
  | .rdEngstatus => regOp 0x0020 0xFFFF
  | .wrEngstatus => regOp 0x8020 0xFFFF
  | .otherRegOp _ _ => regOp 0x0000 0x0000

/-- What is said of each instruction. -/
def Statement (i : Instr) : Prop := i.wf = true → (rowOf i).takes (encode i)

theorem request_takes {w : Port × List Byte} {n mask bits : Nat} (hp : w.1 = .setup) (h : firstWord w = n)
    (hm : n &&& mask = bits) : (request bits mask).takes w :=
  ⟨hp ▸ .head _, h ▸ hm⟩

theorem event_takes {w : Port × List Byte} {n mask bits : Nat} (hp : w.1 = .bus) (h : firstWord w = n)
    (hm : n &&& mask = bits) : (event bits mask).takes w :=
  ⟨hp ▸ .head _, h ▸ hm⟩

theorem regOp_takes {w : Port × List Byte} {n mask bits : Nat} (hp : w.1 = .reg) (h : firstWord w = n)
    (hm : n &&& mask = bits) : (regOp bits mask).takes w :=
  ⟨hp ▸ .head _, h ▸ hm⟩

theorem getStatus_word (b : Byte) : (0 * 256 + b.toNat) &&& 0xFF00 = 0x0000 := by revert b; decide

theorem getDescriptor (wValue wIndex wLength : Half) : Statement (.getDescriptor wValue wIndex wLength) :=
  fun _ => request_takes (n := 0x0680) rfl rfl rfl

theorem setAddress (wValue wIndex wLength : Half) : Statement (.setAddress wValue wIndex wLength) :=
  fun _ => request_takes (n := 0x0500) rfl rfl rfl

theorem setConfiguration (wValue wIndex wLength : Half) : Statement (.setConfiguration wValue wIndex wLength) :=
  fun _ => request_takes (n := 0x0900) rfl rfl rfl

theorem getConfiguration (wValue wIndex wLength : Half) : Statement (.getConfiguration wValue wIndex wLength) :=
  fun _ => request_takes (n := 0x0880) rfl rfl rfl

theorem getStatus (bmRequestType : Byte) (wValue wIndex wLength : Half) :
    Statement (.getStatus bmRequestType wValue wIndex wLength) :=
  fun _ => request_takes rfl rfl (getStatus_word bmRequestType)

theorem stallOther (bmRequestType bRequest : Byte) (wValue wIndex wLength : Half) :
    Statement (.stallOther bmRequestType bRequest wValue wIndex wLength) :=
  fun _ => request_takes rfl rfl (Nat.and_zero _)

theorem setup (a : DevAddr) (e : EpNum) (d : Packet8) : Statement (.setup a e d) :=
  fun _ => event_takes (n := 0x1) rfl rfl rfl

theorem inToken (a : DevAddr) (e : EpNum) : Statement (.inToken a e) :=
  fun _ => event_takes (n := 0x2) rfl rfl rfl

theorem outToken (a : DevAddr) (e : EpNum) (data : List Byte) : Statement (.outToken a e data) :=
  fun _ => event_takes (n := 0x3) rfl rfl rfl

theorem busReset : Statement .busReset := fun _ => event_takes (n := 0x4) rfl rfl rfl

theorem sof : Statement .sof := fun _ => event_takes (n := 0x5) rfl rfl rfl

theorem pllLocked : Statement .pllLocked := fun _ => event_takes (n := 0x6) rfl rfl rfl

theorem pllFail : Statement .pllFail := fun _ => event_takes (n := 0x7) rfl rfl rfl

theorem txready (n : EpNum) : Statement (.txready n) :=
  fun _ => event_takes (n := 0x8) rfl rfl rfl

theorem statusRead : Statement .statusRead := fun _ => event_takes (n := 0x9) rfl rfl rfl

theorem rdPllctl : Statement .rdPllctl := fun _ => regOp_takes (n := 0x0000) rfl rfl rfl

theorem wrPllctl (v : Byte) : Statement (.wrPllctl v) :=
  fun _ => regOp_takes (n := 0x8000) rfl rfl rfl

theorem rdDevctl : Statement .rdDevctl := fun _ => regOp_takes (n := 0x0001) rfl rfl rfl

theorem wrDevctl (v : Byte) : Statement (.wrDevctl v) :=
  fun _ => regOp_takes (n := 0x8001) rfl rfl rfl

theorem rdDevint : Statement .rdDevint := fun _ => regOp_takes (n := 0x0002) rfl rfl rfl

theorem wrDevint (v : Byte) : Statement (.wrDevint v) :=
  fun _ => regOp_takes (n := 0x8002) rfl rfl rfl

theorem rdDevinten : Statement .rdDevinten := fun _ => regOp_takes (n := 0x0003) rfl rfl rfl

theorem wrDevinten (v : Byte) : Statement (.wrDevinten v) :=
  fun _ => regOp_takes (n := 0x8003) rfl rfl rfl

theorem rdDevaddr : Statement .rdDevaddr := fun _ => regOp_takes (n := 0x0004) rfl rfl rfl

theorem wrDevaddr (v : Byte) : Statement (.wrDevaddr v) :=
  fun _ => regOp_takes (n := 0x8004) rfl rfl rfl

theorem rdEptogrst : Statement .rdEptogrst := fun _ => regOp_takes (n := 0x0005) rfl rfl rfl

theorem wrEptogrst (v : Byte) : Statement (.wrEptogrst v) :=
  fun _ => regOp_takes (n := 0x8005) rfl rfl rfl

theorem rdEpsel : Statement .rdEpsel := fun _ => regOp_takes (n := 0x0006) rfl rfl rfl

theorem wrEpsel (v : Byte) : Statement (.wrEpsel v) :=
  fun _ => regOp_takes (n := 0x8006) rfl rfl rfl

theorem rdEpctl : Statement .rdEpctl := fun _ => regOp_takes (n := 0x0010) rfl rfl rfl

theorem wrEpctl (v : Byte) : Statement (.wrEpctl v) :=
  fun _ => regOp_takes (n := 0x8010) rfl rfl rfl

theorem rdEpcfg0 : Statement .rdEpcfg0 := fun _ => regOp_takes (n := 0x0011) rfl rfl rfl

theorem wrEpcfg0 (v : Byte) : Statement (.wrEpcfg0 v) :=
  fun _ => regOp_takes (n := 0x8011) rfl rfl rfl

theorem rdEpcfg1 : Statement .rdEpcfg1 := fun _ => regOp_takes (n := 0x0012) rfl rfl rfl

theorem wrEpcfg1 (v : Byte) : Statement (.wrEpcfg1 v) :=
  fun _ => regOp_takes (n := 0x8012) rfl rfl rfl

theorem rdEpsta : Statement .rdEpsta := fun _ => regOp_takes (n := 0x0013) rfl rfl rfl

theorem wrEpsta : Statement .wrEpsta := fun _ => regOp_takes (n := 0x8013) rfl rfl rfl

theorem rdEpint : Statement .rdEpint := fun _ => regOp_takes (n := 0x0014) rfl rfl rfl

theorem wrEpint (v : Byte) : Statement (.wrEpint v) :=
  fun _ => regOp_takes (n := 0x8014) rfl rfl rfl

theorem rdEpinten : Statement .rdEpinten := fun _ => regOp_takes (n := 0x0015) rfl rfl rfl

theorem wrEpinten (v : Byte) : Statement (.wrEpinten v) :=
  fun _ => regOp_takes (n := 0x8015) rfl rfl rfl

theorem rdEpdata : Statement .rdEpdata := fun _ => regOp_takes (n := 0x0016) rfl rfl rfl

theorem wrEpdata (v : Byte) : Statement (.wrEpdata v) :=
  fun _ => regOp_takes (n := 0x8016) rfl rfl rfl

theorem rdEpbcnt : Statement .rdEpbcnt := fun _ => regOp_takes (n := 0x0017) rfl rfl rfl

theorem wrEpbcnt : Statement .wrEpbcnt := fun _ => regOp_takes (n := 0x8017) rfl rfl rfl

theorem rdEngstatus : Statement .rdEngstatus := fun _ => regOp_takes (n := 0x0020) rfl rfl rfl

theorem wrEngstatus : Statement .wrEngstatus := fun _ => regOp_takes (n := 0x8020) rfl rfl rfl

theorem otherRegOp (word : Half) (wide : Bool) : Statement (.otherRegOp word wide) := by
  intro _; cases wide
  · exact regOp_takes rfl rfl (Nat.and_zero _)
  · exact ⟨.tail _ (.head _), Nat.and_zero _⟩

end Sys2Proof.Laws.TableRow
end

