-- ==== Sys2Proof/Tests/Slice0.lean ====
section
/-! SUPPORT. Small tests: ill-formed terms, words written out from the spec's encodings, one step per instruction from the
vectors of 95_test_vectors.md, and for each obligation with hypotheses a state and operands that meet them. -/

namespace Sys2Proof.Tests

open Sys2Proof.Machine

/-! ### Well-formedness -/

theorem test_wf_out_65 : (Instr.outToken 0 0 (List.replicate 65 0)).wf = false := by decide
theorem test_wf_out_64 : (Instr.outToken 0 0 (List.replicate 64 0)).wf = true := by decide
theorem test_wf_catch_all_key : (Instr.stallOther 0x80 0x06 0 0 0).wf = false ∧
    (Instr.stallOther 0x21 0x00 0 0 0).wf = false := by decide
theorem test_wf_unlisted_key : (Instr.stallOther 0x81 0x06 0 0 0).wf = true ∧
    (Instr.stallOther 0x21 0x0B 0 0 0).wf = true := by decide
theorem test_wf_catch_all_word : (Instr.otherRegOp 0x8013 false).wf = false ∧
    (Instr.otherRegOp 0x0020 true).wf = false := by decide
theorem test_wf_other_word : (Instr.otherRegOp 0x0007 false).wf = true ∧
    (Instr.otherRegOp 0x0010 true).wf = true := by decide

/-! ### Decoding: the words of 30_encoding.md R104, R107 and R109, written out -/

theorem test_decode_requests :
    decode .setup [0x80, 0x06, 0x34, 0x02, 0x09, 0x04, 0xFF, 0x01] = .ok (.getDescriptor 0x0234 0x0409 0x01FF) [] ∧
    decode .setup [0x00, 0x05, 0x05, 0x00, 0x00, 0x00, 0x00, 0x00] = .ok (.setAddress 0x0005 0 0) [] ∧
    decode .setup [0x00, 0x09, 0x01, 0x00, 0x00, 0x00, 0x00, 0x00] = .ok (.setConfiguration 0x0001 0 0) [] ∧
    decode .setup [0x80, 0x08, 0x00, 0x00, 0x00, 0x00, 0x01, 0x00] = .ok (.getConfiguration 0 0 0x0001) [] ∧
    decode .setup [0x82, 0x00, 0x00, 0x00, 0x83, 0x00, 0x02, 0x00] = .ok (.getStatus 0x82 0 0x0083 0x0002) [] ∧
    decode .setup [0x21, 0x0B, 0x00, 0x00, 0x00, 0x00, 0x00, 0x00] = .ok (.stallOther 0x21 0x0B 0 0 0) [] := by decide

theorem test_decode_events :
    decode .bus [0x01, 0x05, 0x00, 0x80, 0x06, 0x00, 0x01, 0x00, 0x00, 0x40, 0x00] = .ok (.setup 5 0 ⟨0x80, 0x06, 0x00, 0x01, 0x00, 0x00, 0x40, 0x00⟩) [] ∧
    decode .bus [0x02, 0x05, 0x03] = .ok (.inToken 5 3) [] ∧
    decode .bus [0x03, 0x7F, 0x0F, 0x02, 0xAA, 0xBB] = .ok (.outToken 0x7F 0xF [0xAA, 0xBB]) [] ∧
    decode .bus [0x04] = .ok .busReset [] ∧
    decode .bus [0x05] = .ok .sof [] ∧
    decode .bus [0x06] = .ok .pllLocked [] ∧
    decode .bus [0x07] = .ok .pllFail [] ∧
    decode .bus [0x08, 0x03] = .ok (.txready 3) [] ∧
    decode .bus [0x09] = .ok .statusRead [] := by decide

theorem test_decode_reads_device :
    decode .reg [0x00, 0x00] = .ok .rdPllctl [] ∧
    decode .reg [0x01, 0x00] = .ok .rdDevctl [] ∧
    decode .reg [0x02, 0x00] = .ok .rdDevint [] ∧
    decode .reg [0x03, 0x00] = .ok .rdDevinten [] ∧
    decode .reg [0x04, 0x00] = .ok .rdDevaddr [] ∧
    decode .reg [0x05, 0x00] = .ok .rdEptogrst [] ∧
    decode .reg [0x06, 0x00] = .ok .rdEpsel [] := by decide

theorem test_decode_reads_endpoint :
    decode .reg [0x10, 0x00] = .ok .rdEpctl [] ∧
    decode .reg [0x11, 0x00] = .ok .rdEpcfg0 [] ∧
    decode .reg [0x12, 0x00] = .ok .rdEpcfg1 [] ∧
    decode .reg [0x13, 0x00] = .ok .rdEpsta [] ∧
    decode .reg [0x14, 0x00] = .ok .rdEpint [] ∧
    decode .reg [0x15, 0x00] = .ok .rdEpinten [] ∧
    decode .reg [0x16, 0x00] = .ok .rdEpdata [] ∧
    decode .reg [0x17, 0x00] = .ok .rdEpbcnt [] ∧
    decode .reg [0x20, 0x00] = .ok .rdEngstatus [] := by decide

theorem test_decode_writes_device :
    decode .reg [0x00, 0x80, 0x5A] = .ok (.wrPllctl 0x5A) [] ∧
    decode .reg [0x01, 0x80, 0x5A] = .ok (.wrDevctl 0x5A) [] ∧
    decode .reg [0x02, 0x80, 0x5A] = .ok (.wrDevint 0x5A) [] ∧
    decode .reg [0x03, 0x80, 0x5A] = .ok (.wrDevinten 0x5A) [] ∧
    decode .reg [0x04, 0x80, 0x5A] = .ok (.wrDevaddr 0x5A) [] ∧
    decode .reg [0x05, 0x80, 0x5A] = .ok (.wrEptogrst 0x5A) [] ∧
    decode .reg [0x06, 0x80, 0x5A] = .ok (.wrEpsel 0x5A) [] := by decide

theorem test_decode_writes_endpoint :
    decode .reg [0x10, 0x80, 0x5A] = .ok (.wrEpctl 0x5A) [] ∧
    decode .reg [0x11, 0x80, 0x5A] = .ok (.wrEpcfg0 0x5A) [] ∧
    decode .reg [0x12, 0x80, 0x5A] = .ok (.wrEpcfg1 0x5A) [] ∧
    decode .reg [0x13, 0x80] = .ok .wrEpsta [] ∧
    decode .reg [0x14, 0x80, 0x5A] = .ok (.wrEpint 0x5A) [] ∧
    decode .reg [0x15, 0x80, 0x5A] = .ok (.wrEpinten 0x5A) [] ∧
    decode .reg [0x16, 0x80, 0x5A] = .ok (.wrEpdata 0x5A) [] ∧
    decode .reg [0x17, 0x80] = .ok .wrEpbcnt [] ∧
    decode .reg [0x20, 0x80] = .ok .wrEngstatus [] := by decide

theorem test_decode_other_words :
    decode .reg [0x06, 0x81] = .ok (.otherRegOp 0x8106 false) [] ∧
    decode .reg [0x07, 0x00] = .ok (.otherRegOp 0x0007 false) [] ∧
    decode .reg32 [0x10, 0x00] = .ok (.otherRegOp 0x0010 true) [] ∧
    decode .reg32 [0x20, 0x00] = .ok .rdEngstatus [] := by decide

theorem test_decode_rejects :
    decode .bus [0x00] = .reject .unassignedEvent ∧
    decode .bus [0x0A] = .reject .unassignedEvent ∧
    decode .bus [0x02, 0x80, 0x00] = .reject .addressRange ∧
    decode .bus [0x02, 0x00, 0x10] = .reject .endpointRange ∧
    decode .bus [0x03, 0x00, 0x00, 0x41] = .reject .oversizeOut ∧
    decode .bus [0x03, 0x00, 0x00, 0x02, 0xAA] = .reject .truncated ∧
    decode .reg [0x10, 0x80] = .reject .truncated := by decide

theorem test_decode_table_words :
    decodeTableWord 16 0x0680 = some (.getDescriptor 0 0 0) ∧
    decodeTableWord 4 0x3 = some (.outToken 0 0 []) ∧
    decodeTableWord 16 0x8010 = some (.wrEpctl 0) ∧
    decodeTableWord 16 0x0017 = some .rdEpbcnt ∧
    decodeTableWord 16 0x0080 = some (.getStatus 0x80 0 0 0) := by decide

/-! ### Small states -/

/-- Parameters with every value written out. -/
def cfg : Config := ⟨4, true, 0x1234, 0x5678, 0x0100, 0x0111, 50, 10⟩

/-- Power-on. -/
def boot : State := State.resetWith cfg

/-- Endpoint 0 as the initialisation leaves it, bank-ready. -/
def ep0 : Endpoint := { ep0Initialised with txini := true }

/-- Endpoint 3 as SET_CONFIGURATION leaves it (43_endpoint_config.md R274), bank-ready. -/
def ep3 : Endpoint :=
  { Endpoint.reset with
    epen := true, eptype := 3, epdir := true, epbk := 1, alloc := true, cfgok := true, txini := true,
    banks := [⟨[], false⟩, ⟨[], false⟩] }

/-- The device-level registers after the initialisation. -/
def dev : DevRegs :=
  { DevRegs.reset with pllEn := true, pllLock := true, detach := false, sofe := true, eorste := true }

/-- "Ready EP0" of 95_test_vectors.md, with another endpoint 0. -/
def at0 (e : Endpoint) : State :=
  { boot with ctx := .idle, seq := .idle, dev := dev, eps := e :: List.replicate 3 Endpoint.reset }

/-- "Ready EP0". -/
def ready : State := at0 ep0

/-- The engine at a microstate of the SETUP handler. -/
def serving (q : Seq) : State := { ready with ctx := .setup, seq := q }

/-- The engine after a fault. -/
def stopped : State := raise .noBank ready

/-- A field of the next state. -/
def next {α : Type} (r : Result) (f : State → α) : Option α :=
  match r with
  | .next t => some (f t)
  | .fault _ => none
  | .refused _ => none

/-- A field of endpoint 0 after a step. -/
def next0 {α : Type} (r : Result) (f : Endpoint → α) : Option α :=
  match r with
  | .next t => t.eps[0]?.map f
  | .fault _ => none
  | .refused _ => none

/-- The SETUP of vector V-B1. -/
def packet : Packet8 := ⟨0x80, 0x06, 0x00, 0x01, 0x00, 0x00, 0x40, 0x00⟩

/-! ### Requests (44_control_sequencer.md; 95_test_vectors.md §5, §6) -/

/-- V-D1, V-D11, V-D14. -/
theorem test_getDescriptor :
    next (exec (.getDescriptor 0x0100 0 0) (serving .gdLookup)) (fun t => (t.seq, t.work.remaining)) = some (.ret, 0) ∧
    next (exec (.getDescriptor 0x0200 0 300) (serving .gdLookup)) (fun t => (t.work.offset, t.work.remaining))
      = some (18, 34) ∧
    next (exec (.getDescriptor 0x0300 0 255) (serving .gdLookup)) (fun t => t.seq) = some .stall := by decide

/-- V-D24: bit 7 of `wValue` is not part of the address. -/
theorem test_setAddress :
    next (exec (.setAddress 0x0085 0 0) (serving .saSet)) (fun t => t.work.pendingAddr) = some 5 ∧
    next (exec (.setAddress 0x0085 0 0)
      { serving .saApply with work := ⟨.rom, 0, 0, 0, 0, 0, 0, 5⟩ }) (fun t => (t.dev.devaddr, engstatus t))
      = some (0x85, 0x00000501) := by decide

/-- V-E4, V-E5. -/
theorem test_setConfiguration :
    next (exec (.setConfiguration 0x0001 0 0) (serving .scStore)) engstatus = some 0x00010002 ∧
    next (exec (.setConfiguration 0x0000 0 0) { serving .scStore with enum := ⟨.configured, 0, 1⟩ }) engstatus
      = some 0x00000000 := by decide

/-- P3 part 2. -/
theorem test_getConfiguration :
    next (exec (.getConfiguration 0 0 1) { serving .gcLoad with enum := ⟨.configured, 5, 1⟩ })
      (fun t => (t.work.reply0, t.work.remaining, t.seq)) = some (0x01, 1, .strWait) := by decide

/-- V-D17: two bytes, whatever `wLength` is. -/
theorem test_getStatus :
    next (exec (.getStatus 0x82 0 0x0083 9) (serving .gsLoad)) (fun t => (t.work.reply0, t.work.reply1, t.work.remaining))
      = some (0, 0, 2) := by decide

/-- V-D20. -/
theorem test_stallOther :
    next0 (exec (.stallOther 0x21 0x0B 0 0 0) (serving .stall)) (fun e => e.epctl) = some 0x03 := by decide

/-! ### Bus events (95_test_vectors.md §2) -/

/-- V-B1, V-B5. -/
theorem test_setup :
    next (exec (.setup 0 0 packet) ready) (fun t => t.history) = some [.ack] ∧
    next0 (exec (.setup 0 0 packet) (at0 { ep0 with stallrq := true }))
      (fun e => (e.epint, e.epbcnt, e.toggle, e.stallrq)) = some (0x09, 8, true, false) := by decide

/-- V-B2, V-B4, V-F2. -/
theorem test_setup_elsewhere :
    next (exec (.setup 5 0 packet) ready) id = some ready ∧ next (exec (.setup 0 1 packet) ready) id = some ready ∧
    next (exec (.setup 0 0 packet) (serving .strWait)) (fun t => (t.faults, engstatus t, t.history))
      = some ([.setupDuringTransfer], 0x03000000, [.ack]) := by decide

/-- V-B9. -/
theorem test_in_data :
    next (exec (.inToken 0 0) (at0 { ep0 with txini := false, toggle := true, banks := [⟨[0x12, 0x01], true⟩] }))
      (fun t => (t.history, t.eps[0]?)) =
      some ([.data true [0x12, 0x01]], some { ep0 with txini := false, toggle := false }) := by decide

/-- V-B7, V-B8. -/
theorem test_in_handshakes :
    next (exec (.inToken 0 0) (at0 { ep0 with stallrq := true })) (fun t => t.history) = some [.stall] ∧
    next (exec (.inToken 0 0) ready) (fun t => (t.history, t.eps)) = some ([.nak], ready.eps) := by decide

/-- V-B12. -/
theorem test_out_ack :
    next (exec (.outToken 0 0 []) ready) (fun t => (t.history, t.eps[0]?)) =
      some ([.ack], some { ep0 with rxouti := true, toggle := true }) := by decide

/-- V-B13, V-B14, V-B15, V-B16. -/
theorem test_out_others :
    next (exec (.outToken 0 0 []) (at0 { ep0 with rxouti := true })) (fun t => t.history) = some [.nak] ∧
    next (exec (.outToken 0 0 (List.replicate 33 0)) ready) id = some ready ∧
    next (exec (.outToken 0 0 []) (at0 { ep0 with banks := [⟨[], true⟩] })) (fun t => t.history) = some [.nak] ∧
    next (exec (.outToken 0 0 []) (at0 { ep0 with stallrq := true })) (fun t => t.history) = some [.stall] := by decide

/-- V-B18. -/
theorem test_busReset :
    next (exec .busReset { ready with dev := { dev with uadd := 5, adden := true }, eps := [ep0, ep3] })
      (fun t => (t.dev.devaddr, t.dev.eorsti, t.eps.map Endpoint.epctl, t.eps.map Endpoint.epinten,
        t.eps.map Endpoint.epcfg0)) = some (0x00, true, [0x00, 0x00], [0x00, 0x00], [0x00, 0xC1]) := by decide

/-- V-B19, V-B20. -/
theorem test_sof : next (exec .sof ready) (fun t => t.dev.devint) = some 0x01 ∧ next (exec .sof boot) id = some boot := by decide

/-- V-B21, V-B22. -/
theorem test_pll_events :
    next (exec .pllLocked { boot with dev := { DevRegs.reset with pllEn := true } }) (fun t => t.dev.pllctl) = some 0x03 ∧
    next (exec .pllFail { boot with dev := { DevRegs.reset with pllEn := true } }) (fun t => t.dev.pllctl) = some 0x05 := by
  decide

/-- V-B23, V-B24. -/
theorem test_txready :
    next (exec (.txready 0) (at0 ep0Initialised)) id = some ready ∧ next (exec (.txready 0) ready) id = some ready := by decide

/-- V-E2. -/
theorem test_statusRead :
    next (exec .statusRead { ready with enum := ⟨.configured, 5, 1⟩ }) (fun t => t.mainData) = some 0x00010502 := by decide

/-! ### Register operations (95_test_vectors.md §3) -/

/-- V-R1, V-R2. -/
theorem test_wrPllctl :
    next (exec (.wrPllctl 0x01) boot) (fun t => t.dev.pllctl) = some 0x01 ∧
    next (exec (.wrPllctl 0x00) ready) (fun t => t.dev.pllctl) = some 0x00 := by decide

theorem test_rdPllctl : next (exec .rdPllctl ready) (fun t => t.rdData) = some 0x03 := by decide

/-- V-R3. -/
theorem test_devctl :
    next (exec (.wrDevctl 0x00) boot) (fun t => t.dev.devctl) = some 0x00 ∧
    next (exec .rdDevctl boot) (fun t => t.rdData) = some 0x01 := by decide

/-- V-R4, V-R5. -/
theorem test_devint :
    next (exec (.wrDevint 0xFD) { ready with dev := { dev with sofi := true, eorsti := true } }) (fun t => t.dev.devint)
      = some 0x01 ∧
    next (exec (.wrDevint 0xFF) { ready with dev := { dev with sofi := true, eorsti := true } }) (fun t => t.dev.devint)
      = some 0x03 ∧
    next (exec .rdDevint { ready with dev := { dev with eorsti := true } }) (fun t => t.rdData) = some 0x02 := by decide

/-- V-R6. -/
theorem test_devinten :
    next (exec (.wrDevinten 0x03) boot) (fun t => t.dev.devinten) = some 0x03 ∧
    next (exec .rdDevinten ready) (fun t => t.rdData) = some 0x03 := by decide

/-- V-R7, V-R8. -/
theorem test_devaddr :
    next (exec (.wrDevaddr 0x85) ready) (fun t => (t.dev.uadd, t.dev.activeAddr)) = some (5, 5) ∧
    next (exec (.wrDevaddr 0x05) ready) (fun t => (t.dev.uadd, t.dev.activeAddr)) = some (5, 0) ∧
    next (exec .rdDevaddr { ready with dev := { dev with uadd := 5, adden := true } }) (fun t => t.rdData) = some 0x85 := by
  decide

/-- V-R9. -/
theorem test_eptogrst :
    next (exec (.wrEptogrst 0xFF) { ready with eps := [{ ep0 with toggle := true }, { ep3 with toggle := true }] })
      (fun t => t.eps.map Endpoint.toggle) = some [true, false] ∧
    next (exec (.wrEptogrst 0x01) { ready with eps := [{ ep0 with toggle := true }, { ep3 with toggle := true }] })
      (fun t => t.eps.map Endpoint.toggle) = some [true, true] ∧
    next (exec .rdEptogrst { ready with rdData := 7 }) (fun t => t.rdData) = some 0x00 := by decide

/-- V-R10, V-R11. -/
theorem test_epsel :
    next (exec (.wrEpsel 0x07) ready) (fun t => (t.dev.epnum, t.faults)) = some (7, []) ∧
    next (exec .rdEpsel { ready with dev := { dev with epnum := 3 } }) (fun t => t.rdData) = some 0x03 ∧
    next (exec .rdEpctl { ready with dev := { dev with epnum := 7 } }) (fun t => t.faults) = some [.badEndpoint] := by
  decide

/-- V-R12, V-R13, V-R14. -/
theorem test_wrEpctl :
    next0 (exec (.wrEpctl 0x03) ready) (fun e => (e.epctl, e.epsta)) = some (0x03, 0x80) ∧
    next0 (exec (.wrEpctl 0x02) ready) (fun e => (e.epctl, e.epsta, e.epint, e.banks)) = some (0x00, 0x00, 0x00, []) ∧
    next0 (exec (.wrEpctl 0x01) (at0 { ep0 with stallrq := true })) (fun e => e.epctl) = some 0x03 := by decide

theorem test_rdEpctl : next (exec .rdEpctl (at0 { ep0 with stallrq := true })) (fun t => t.rdData) = some 0x03 := by decide

/-- V-R15, V-R16. -/
theorem test_epcfg0 :
    next0 (exec (.wrEpcfg0 0xC1) boot) (fun e => (e.eptype, e.epdir, e.epcfg0)) = some (3, true, 0xC1) ∧
    next0 (exec (.wrEpcfg0 0xC1) (at0 ep3)) (fun e => (e.epcfg1, e.epsta, e.epint)) = some (0x04, 0x00, 0x00) ∧
    next (exec .rdEpcfg0 (at0 ep3)) (fun t => t.rdData) = some 0xC1 := by decide

/-- V-R17, V-R18, V-R19. -/
theorem test_wrEpcfg1 :
    next0 (exec (.wrEpcfg1 0x06) (at0 { Endpoint.reset with epen := true }))
      (fun e => (e.epcfg1, e.epsta, e.size, e.banks)) = some (0x06, 0x80, 8, [⟨[], false⟩, ⟨[], false⟩]) ∧
    next0 (exec (.wrEpcfg1 0x42) ready) (fun e => (e.epcfg1, e.epsta, e.banks)) = some (0x42, 0x00, []) ∧
    next0 (exec (.wrEpcfg1 0x22) (at0 Endpoint.reset)) (fun e => (e.alloc, e.epsta, e.banks)) = some (true, 0x00, []) := by
  decide

theorem test_rdEpcfg1 :
    next (exec .rdEpcfg1 ready) (fun t => t.rdData) = some 0x22 ∧
    next (exec .rdEpsta ready) (fun t => t.rdData) = some 0x80 := by decide

/-- V-R20, V-R21, V-R22, V-R32. -/
theorem test_rdEpdata :
    next (exec .rdEpdata (at0 { ep0 with rxstpi := true, banks := [⟨[0x80, 0x06], false⟩] }))
      (fun t => (t.rdData, t.eps[0]?.map Endpoint.epbcnt)) = some (0x80, some 1) ∧
    next (exec .rdEpdata (at0 { ep0 with rxstpi := true })) (fun t => t.faults) = some [.fifoUnderrun] ∧
    next (exec .rdEpdata ready) (fun t => t.faults) = some [.fifoNotOwned] ∧
    next (exec .rdEpdata (at0 ep0.busReset)) (fun t => t.faults) = some [.noBank] := by decide

/-- V-R23, V-R24, V-R25. -/
theorem test_wrEpdata :
    next0 (exec (.wrEpdata 0x12) ready) (fun e => e.banks) = some [⟨[0x12], false⟩] ∧
    next (exec (.wrEpdata 0x12) (at0 ep0Initialised)) (fun t => t.faults) = some [.fifoNotOwned] ∧
    next (exec (.wrEpdata 0x00) (at0 { ep0 with banks := [⟨List.replicate 32 0, false⟩] })) (fun t => t.faults)
      = some [.fifoOverflow] ∧
    next (exec (.wrEpdata 0x00) (at0 { ep0 with rxouti := true })) (fun t => t.faults) = some [.fifoConflict] := by decide

/-- V-R26, V-R27, V-R28, V-R29. -/
theorem test_wrEpint :
    next (exec (.wrEpint 0xFE) (at0 { ep0 with rxouti := true })) (fun t => t.faults) = some [.fifoConflict] ∧
    next0 (exec (.wrEpint 0xF2) (at0 { ep0 with rxstpi := true, rxouti := true, banks := [⟨[0x80], false⟩] }))
      (fun e => (e.epint, e.banks)) = some (0x00, [⟨[], false⟩]) ∧
    next0 (exec (.wrEpint 0xFE) (at0 { ep0 with banks := [⟨[0x12, 0x01], false⟩] })) (fun e => (e.epint, e.banks, e.fill))
      = some (0x00, [⟨[0x12, 0x01], true⟩], 0) ∧
    next (exec (.wrEpint 0xFE) (at0 ep0Initialised)) id = some (at0 ep0Initialised) := by decide

/-- The split acknowledge after V-R37. -/
theorem test_wrEpint_split :
    next0 (exec (.wrEpint 0xF7) (at0 { ep0 with rxstpi := true })) (fun e => e.epint) = some 0x01 ∧
    next0 (exec (.wrEpint 0xFE) ready) (fun e => e.banks) = some [⟨[], true⟩] := by decide

/-- V-R30. -/
theorem test_rdEpint :
    next (exec .rdEpint (at0 { ep0 with rxstpi := true, rxouti := true })) (fun t => t.rdData) = some 0x0D := by decide

/-- V-R31. -/
theorem test_epinten :
    next0 (exec (.wrEpinten 0x08) boot) (fun e => (e.rxstpe, e.rxoute, e.txine)) = some (true, false, false) ∧
    next (exec .rdEpinten ready) (fun t => t.rdData) = some 0x08 := by decide

theorem test_rdEpbcnt :
    next (exec .rdEpbcnt (at0 { ep0 with banks := [⟨[1, 2, 3], false⟩] })) (fun t => t.rdData) = some 3 ∧
    next (exec .rdEpbcnt boot) (fun t => t.rdData) = some 0 := by decide

/-- V-R33, V-R34, V-R35, V-R37. -/
theorem test_badRegister :
    next (exec .wrEpsta ready) (fun t => (t.faults, engstatus t)) = some ([.badRegister], 0x03000000) ∧
    next (exec .wrEpbcnt ready) (fun t => (t.faults, t.ctx, t.seq)) = some ([.badRegister], .halted, .halted) ∧
    next (exec .wrEngstatus ready) (fun t => t.faults) = some [.badRegister] ∧
    next (exec (.otherRegOp 0x0007 false) ready) (fun t => t.faults) = some [.badRegister] ∧
    next (exec (.otherRegOp 0x8106 false) ready) (fun t => t.faults) = some [.badRegister] := by decide

/-- V-R36, V-F4 (the status word stays readable after a fault). -/
theorem test_rdEngstatus :
    next (exec .rdEngstatus { ready with enum := ⟨.configured, 5, 1⟩ }) (fun t => t.rdData) = some 0x00010502 ∧
    next (exec .rdEngstatus stopped) (fun t => t.rdData) = some 0x03000000 := by decide

/-! ### The step and the ROM -/

/-- A table word placed at reset is the instruction the next step runs. -/
theorem test_withFetchWord :
    next (step (State.reset.withFetchWord 16 0x8001)) (fun t => t.dev.detach) = some false ∧
    next (step (State.reset.withFetchWord 16 0x0680)) (fun t => t.seq) = some .gdLookup ∧
    next (step (State.reset.withFetchWord 4 0x9)) (fun t => t.mainData) = some 0x00000000 := by decide

/-- From reset with nothing placed: `INIT_PLL` (P1 step 1). -/
theorem test_first_step : next (step State.reset) (fun t => (t.dev.pllctl, t.seq)) = some (0x01, .initLock) := by decide

/-- 95_test_vectors.md §4 (V-L1 to V-L8), and the bytes it lists. -/
theorem test_lookup :
    lookup cfg 0x01 5 = some (0, 18) ∧ lookup cfg 0x02 0 = some (18, 34) ∧
    lookup { cfg with hidPresent := false } 0x02 0 = some (18, 25) ∧ lookup cfg 0x03 0 = none ∧
    lookup cfg 0x22 0 = none := by decide

theorem test_rom_bytes :
    romRead boot 0 = some 0x12 ∧ romRead boot 7 = some 0x20 ∧ romRead boot 20 = some 0x22 ∧ romRead boot 47 = some 0x83 ∧
    romRead boot 49 = some 0x08 ∧ romRead boot 43 = some 0x3F ∧ romRead boot 114 = some 0xC0 ∧ romRead boot 115 = none := by
  decide

/-! ### Witnesses: for each obligation with hypotheses, states and operands that meet them, one for each clause -/

theorem boot_endpoints : ∀ e ∈ boot.eps, e.Wf := by
  intro e he
  rw [(List.mem_replicate.mp he).2]
  exact Endpoint.reset_wf

theorem boot_wf : boot.Wf := ⟨by decide, by decide, boot_endpoints, rfl, rfl, rfl, by simp [boot, State.resetWith]⟩

theorem ep0_ready : ep0.Ready := ⟨rfl, rfl, rfl, rfl, rfl, rfl, rfl⟩

theorem reaches_ep0 : Reaches ready 0 0 ep0 := ⟨rfl, rfl, rfl, rfl, rfl⟩

/-- An attached device at address 5 whose endpoints 0 and 1 are these. -/
def two (e f : Endpoint) : State := { ready with dev := { dev with uadd := 5, adden := true }, eps := [e, f] }

theorem witness_DecodeEncode :
    Instr.wf (.outToken 0x7F 0xF (List.replicate 64 0xFF)) = true ∧ Instr.wf (.stallOther 0x00 0x01 0 0 0) = true ∧
    Instr.wf (.otherRegOp 0xFFFF false) = true ∧ Instr.wf (.otherRegOp 0xFFFF true) = true := by decide

theorem witness_EncodeDecode :
    decode .reg [0x10, 0x80, 0x03, 0x04] = .ok (.wrEpctl 0x03) [0x04] ∧
    decode .reg32 [0x20, 0x00] = .ok .rdEngstatus [] := by decide

theorem witness_IllegalWordsRaiseBadRegister : ready.ctx ≠ .halted ∧
    ((0x01 : Byte) &&& 0x7F ≠ 0 ∧ (0x7F : Byte) &&& 0x7F ≠ 0) ∧
    (((0x06 : Byte) < 0x07 ∧ (0x07 : Byte) < 0x10) ∧ ((0x06 : Byte) < 0x0F ∧ (0x0F : Byte) < 0x10)) ∧
    (((0x17 : Byte) < 0x18 ∧ (0x18 : Byte) ≠ 0x20) ∧ ((0x17 : Byte) < 0xFF ∧ (0xFF : Byte) ≠ 0x20)) ∧
    ¬((0x80 : Byte) = 0x00 ∧ (0x20 : Byte) = 0x20) := by decide

theorem witness_StepRunsRecord :
    { ready with turns := [.bus [0x09]] }.turns = .bus [0x09] :: [] ∧ decode .bus [0x09] = .ok .statusRead [] ∧
    { ready with turns := [.reg [0x06, 0x00]] }.turns = .reg [0x06, 0x00] :: [] ∧
    decode .reg [0x06, 0x00] = .ok .rdEpsel [] ∧
    { ready with turns := [.reg32 [0x20, 0x00]] }.turns = .reg32 [0x20, 0x00] :: [] ∧
    decode .reg32 [0x20, 0x00] = .ok .rdEngstatus [] ∧
    { ready with turns := [.bus [0x0A]] }.turns = .bus [0x0A] :: [] ∧ decode .bus [0x0A] = .reject .unassignedEvent ∧
    (0x0A : Byte) ≤ 0x0A ∧ (0x0A : Byte) ≤ 0xFF := by decide

theorem witness_EngineTurn :
    { serving .ret with turns := [.engine] }.turns = .engine :: [] ∧
    requestRuns { serving .ret with turns := [.engine] } = true ∧ requestRuns { ready with turns := [.engine] } = false := by
  decide

theorem witness_EmptySchedule :
    (boot.turns = [] ∧ boot.eps.length ≤ 16 ∧ engineEnabled boot = true) ∧
    ((at0 ep0Initialised).turns = [] ∧ engineEnabled (at0 ep0Initialised) = false ∧
      (at0 ep0Initialised).eps[0]? = some ep0Initialised ∧ ep0Initialised.txEnabled = true) ∧
    (ready.turns = [] ∧ engineEnabled ready = false ∧ ∀ e ∈ ready.eps, e.txEnabled = false) := by decide

theorem witness_RequestFollowsMicroprogram :
    requestRuns (serving .sDispatch) = true ∧ requestRuns (serving .ret) = true ∧
    Instr.isRequest (.stallOther 0x21 0x0B 0 0 0) = true ∧ stopped.ctx = .halted ∧ ready.ctx = .idle ∧
    (serving .sAck).seq.inRequest = false := by decide

theorem witness_StepKeepsWellFormed : boot.Wf ∧ ∃ t, step boot = .next t := ⟨boot_wf, _, rfl⟩

theorem witness_ResetWellFormed : Config.wf { cfg with numEp := 4 } = true ∧ Config.wf { cfg with numEp := 8 } = true := by
  decide

theorem boot_microprogram : boot.MicroInv where
  wf := boot_wf
  turns := by simp [boot, State.resetWith]
  faults := by simp [boot, State.resetWith]
  running := by
    intro _
    have h0 : ∀ (n : Nat) (e : Endpoint), boot.eps[n]? = some e → e = Endpoint.reset := by
      intro n e he
      exact (List.mem_replicate.mp (List.mem_of_getElem? he)).2
    refine ⟨by decide, by decide, by decide, by decide, ?_, ?_, ?_, ?_, ⟨?_, ?_, ?_, ?_⟩⟩
    · intro h; exact absurd h (by decide)
    · intro n e he _ hc; rw [h0 n e he] at hc; exact absurd hc (by decide)
    · intro e he; rw [h0 0 e he]; exact ⟨rfl, fun h => absurd h (by decide)⟩
    · intro e he hc; rw [h0 0 e he] at hc; exact absurd hc (by decide)
    · intro h; exact absurd h (by decide)
    · intro h; exact absurd h (by decide)
    · intro h; rcases h with h | h <;> exact absurd h (by decide)
    · intro h; exact absurd h (by decide)

theorem witness_MicroprogramInvariant : boot.MicroInv ∧ ∃ t, step boot = .next t := ⟨boot_microprogram, _, rfl⟩

theorem witness_ResetMicroprogram :
    cfg.wf = true ∧ ∀ t ∈ [Turn.engine, .bus [0x06], .bus [0x00]], t.isMicroprogram = true := by decide

theorem witness_FaultsNeverRemoved : (∃ t, step stopped = .next t) ∧ FaultKind.noBank ∈ stopped.faults :=
  ⟨⟨_, rfl⟩, by decide⟩

theorem stopped_wf : ({ boot with faults := [.pllLockFail], ctx := .halted, seq := .halted } : State).Wf :=
  ⟨by decide, by decide, boot_endpoints, rfl, rfl, rfl, by simp⟩

theorem witness_HaltedEngine :
    let s (ts : List Turn) : State := { boot with faults := [.pllLockFail], ctx := .halted, seq := .halted, turns := ts }
    (s []).Wf ∧ (s []).ctx = .halted ∧ (∃ t, step (s [.engine]) = .next t) ∧
    (∃ t, step (s [.reg [0x20, 0x00]]) = .next t) ∧ ∃ t, step (s [.reg32 [0x20, 0x00]]) = .next t :=
  ⟨stopped_wf, rfl, ⟨_, rfl⟩, ⟨_, rfl⟩, ⟨_, rfl⟩⟩

theorem witness_EnumerationTable :
    next (step { ready with ctx := .busReset, seq := .brState, enum := ⟨.configured, 5, 1⟩ }) (fun t => t.enum)
      = some ⟨.default, 0, 0⟩ ∧
    next (step { serving .saApply with work := ⟨.rom, 0, 0, 0, 0, 0, 0, 5⟩ }) (fun t => t.enum) = some ⟨.addressed, 5, 0⟩ ∧
    next (step { serving .scStore with latch := ⟨0x00, 0x09, 0x0001, 0, 0⟩ }) (fun t => t.enum)
      = some ⟨.configured, 0, 1⟩ := by decide

theorem witness_AddressWriters :
    next (step { serving .saApply with work := ⟨.rom, 0, 0, 0, 0, 0, 0, 5⟩ }) (fun t => t.dev.devaddr) = some 0x85 ∧
    next (step { two ep0 ep3 with turns := [.bus [0x04]] }) (fun t => t.dev.devaddr) = some 0x00 ∧
    next (step { ready with turns := [.reg [0x04, 0x80, 0x85]] }) (fun t => t.dev.devaddr) = some 0x85 := by decide

theorem witness_RomImmutable : ∃ t, step ready = .next t := ⟨_, rfl⟩

theorem witness_OnlyTxreadySetsTxini :
    (at0 ep0Initialised).eps[0]? = some ep0Initialised ∧ ep0Initialised.txini = false ∧
    next (step (at0 ep0Initialised)) (fun t => t.eps[0]?.map Endpoint.txini) = some (some true) := by decide

/-- The one hypothesis of the device-level register statements. -/
theorem witness_device_operations : ready.ctx ≠ .halted ∧ boot.ctx ≠ .halted := by decide

theorem witness_EptogrstOperations : ready.ctx ≠ .halted ∧ ready.eps[0]? = some ep0 ∧
    (two ep0 ep3).eps[1]? = some ep3 ∧ (0x02 : Byte).getLsbD 1 = true ∧ ep3.eptype ≠ 0 := by decide

theorem witness_BadRegisterAccesses : ready.ctx ≠ .halted ∧ ready.dev.epnum.toNat < ready.eps.length ∧
    ((0x06 : Byte) < 0x07 ∧ (0x07 : Byte) < 0x10) ∧
    decode .reg [0x07, 0x00] = .ok (.otherRegOp 0x0007 false) [] ∧
    ((0x17 : Byte) < 0x21 ∧ (0x21 : Byte) ≠ 0x20) ∧
    decode .reg [0x21, 0x80] = .ok (.otherRegOp 0x8021 false) [] := by decide

theorem witness_NoEndpointSelected :
    let s : State := { ready with dev := { dev with epnum := 4 } }
    s.ctx ≠ .halted ∧ s.eps.length ≤ s.dev.epnum.toNat := by decide

theorem witness_EpctlOperations : ready.ctx ≠ .halted ∧ ready.selected = some ep0 ∧
    (0x02 : Byte).getLsbD 0 = false ∧ (0x03 : Byte).getLsbD 0 = true := by decide

theorem witness_Epcfg0Operations : ready.ctx ≠ .halted ∧ boot.ctx ≠ .halted ∧
    (ready.selected = some ep0 ∧ ep0.alloc = true) ∧
    (boot.selected = some Endpoint.reset ∧ Endpoint.reset.alloc = false) := by decide

theorem witness_Epcfg1Operations : ready.ctx ≠ .halted ∧ ready.selected = some ep0 ∧ ep0.epen = true ∧
    ((0x36 : Byte).getLsbD 1 = true ∧ (0x36 : Byte).extractLsb' 4 3 ≤ (3 : BitVec 3) ∧
      (0x36 : Byte).extractLsb' 2 2 ≤ (1 : BitVec 2)) ∧
    ¬(0x42 : Byte).extractLsb' 4 3 ≤ (3 : BitVec 3) ∧ ¬(0x0A : Byte).extractLsb' 2 2 ≤ (1 : BitVec 2) := by decide

theorem witness_EpstaEpintEpintenEpbcntOperations : ready.ctx ≠ .halted ∧
    (ready.selected = some ep0 ∧ ep0.cfgok = true ∧ ep0.banks[ep0.fill]? = some ⟨[], false⟩ ∧
      (⟨[], false⟩ : Bank).data.length < 256) ∧
    (boot.ctx ≠ .halted ∧ boot.selected = some Endpoint.reset ∧ Endpoint.reset.cfgok = false) := by decide

/-- Both clauses: `v` = 0xFE with received OUT data is the conflict, with none it commits. -/
theorem witness_EpintWrite :
    let e : Endpoint := { ep0 with rxouti := true }
    ((at0 e).ctx ≠ .halted ∧ (at0 e).selected = some e ∧ e.banks[e.fill]? = some ⟨[], false⟩ ∧
      (((!(0xFE : Byte).getLsbD 0 && e.txini) && !e.rxstpi) && decide (e.eptype = 0) && e.rxouti && (0xFE : Byte).getLsbD 2)
        = true) ∧
    (ready.ctx ≠ .halted ∧ ready.selected = some ep0 ∧ ep0.banks[ep0.fill]? = some ⟨[], false⟩ ∧
      (((!(0xFE : Byte).getLsbD 0 && ep0.txini) && !ep0.rxstpi) && decide (ep0.eptype = 0) && ep0.rxouti
        && (0xFE : Byte).getLsbD 2) = false) := by decide

theorem witness_EpintWriteNoBank : boot.ctx ≠ .halted ∧ boot.selected = some Endpoint.reset ∧
    Endpoint.reset.banks = [] ∧ Endpoint.reset.txini = false := by decide

theorem witness_EpdataRead :
    let e (d : List Byte) : Endpoint := { ep0 with rxstpi := true, banks := [⟨d, false⟩] }
    (boot.ctx ≠ .halted ∧ boot.selected = some Endpoint.reset ∧ Endpoint.reset.cfgok = false) ∧
    (ready.ctx ≠ .halted ∧ ready.selected = some ep0 ∧ ep0.cfgok = true ∧ ep0.rxstpi = false ∧ ep0.rxouti = false) ∧
    ((at0 (e [])).selected = some (e []) ∧ (e []).banks[(e []).fill]? = some ⟨[], false⟩) ∧
    ((at0 (e [0x80])).selected = some (e [0x80]) ∧ (e [0x80]).cfgok = true ∧ (e [0x80]).rxstpi = true ∧
      (e [0x80]).banks[(e [0x80]).fill]? = some ⟨[0x80], false⟩) := by decide

theorem witness_EpdataWrite :
    let full : Endpoint := { ep0 with banks := [⟨List.replicate 32 0, false⟩] }
    let busy : Endpoint := { ep0 with rxouti := true }
    (boot.ctx ≠ .halted ∧ boot.selected = some Endpoint.reset ∧ Endpoint.reset.cfgok = false) ∧
    (ready.ctx ≠ .halted ∧ (at0 busy).selected = some busy ∧ busy.cfgok = true ∧ busy.eptype = 0 ∧ busy.rxouti = true) ∧
    ((at0 ep0Initialised).selected = some ep0Initialised ∧ ep0Initialised.cfgok = true ∧ ep0Initialised.rxstpi = false ∧
      ep0Initialised.rxouti = false ∧ ep0Initialised.txini = false) ∧
    ((at0 full).selected = some full ∧ full.txini = true ∧
      full.banks[full.fill]? = some ⟨List.replicate 32 0, false⟩ ∧ (List.replicate 32 (0 : Byte)).length = full.size) ∧
    (ready.selected = some ep0 ∧ ep0.txini = true ∧ ep0.banks[ep0.fill]? = some ⟨[], false⟩ ∧
      ([] : List Byte).length ≠ ep0.size) := by decide

theorem witness_SetupEvent :
    (Reaches ready 0 0 ep0 ∧ ep0.eptype = 0 ∧ ready.ctx ≠ .setup) ∧
    (Reaches (serving .strWait) 0 0 ep0 ∧ (serving .strWait).ctx = .setup) ∧
    (Reaches (two ep0 ep3) 5 1 ep3 ∧ ep3.eptype ≠ 0) :=
  ⟨⟨reaches_ep0, rfl, by decide⟩, ⟨⟨rfl, rfl, rfl, rfl, rfl⟩, rfl⟩, ⟨rfl, rfl, rfl, rfl, rfl⟩, by decide⟩

theorem witness_InEvent :
    let out : Endpoint := { ep3 with epdir := false }
    let sent : Endpoint := { ep0 with banks := [⟨[0x12], true⟩] }
    (Reaches (two ep0 out) 5 1 out ∧ out.eptype ≠ 0 ∧ out.epdir = false) ∧
    (Reaches (two { ep0 with stallrq := true } ep3) 5 0 { ep0 with stallrq := true }) ∧
    (Reaches (at0 sent) 0 0 sent ∧ sent.banks[sent.send]? = some ⟨[0x12], true⟩) ∧
    (Reaches ready 0 0 ep0 ∧ ep0.stallrq = false ∧ ep0.banks[ep0.send]? = some ⟨[], false⟩) :=
  ⟨⟨⟨rfl, rfl, rfl, rfl, rfl⟩, by decide, rfl⟩, ⟨rfl, rfl, rfl, rfl, rfl⟩, ⟨⟨rfl, rfl, rfl, rfl, rfl⟩, rfl⟩,
    reaches_ep0, rfl, rfl⟩

/-- At the size of the bank, and one byte over it. -/
theorem witness_OutEvent :
    let out : Endpoint := { ep3 with epdir := false }
    let full : Endpoint := { ep3 with epdir := false, banks := [⟨[1], false⟩, ⟨[2], false⟩] }
    (Reaches (two ep0 ep3) 5 1 ep3 ∧ ep3.eptype ≠ 0 ∧ ep3.epdir = true) ∧
    (Reaches (at0 { ep0 with stallrq := true }) 0 0 { ep0 with stallrq := true }) ∧
    (Reaches ready 0 0 ep0 ∧ ep0.banks[ep0.fill]? = some ⟨[], false⟩ ∧ ep0.size < (List.replicate 33 (0 : Byte)).length ∧
      (List.replicate 32 (0 : Byte)).length ≤ ep0.size) ∧
    (Reaches (two ep0 full) 5 1 full ∧ ∀ k ∈ full.banks, k.data ≠ []) ∧
    (Reaches (two ep0 out) 5 1 out ∧ ¬∀ k ∈ out.banks, k.data ≠ []) ∧
    (Reaches (at0 { ep0 with rxouti := true }) 0 0 { ep0 with rxouti := true }) :=
  ⟨⟨⟨rfl, rfl, rfl, rfl, rfl⟩, by decide, rfl⟩, ⟨rfl, rfl, rfl, rfl, rfl⟩, ⟨reaches_ep0, rfl, by decide, by decide⟩,
    ⟨⟨rfl, rfl, rfl, rfl, rfl⟩, by decide⟩, ⟨⟨rfl, rfl, rfl, rfl, rfl⟩, by decide⟩, ⟨rfl, rfl, rfl, rfl, rfl⟩⟩

/-- The wrong address, a disabled endpoint, an endpoint that does not exist. -/
theorem witness_UnreceivedToken :
    (¬∃ e, Reaches ready 5 0 e) ∧ (¬∃ e, Reaches ready 0 1 e) ∧ (¬∃ e, Reaches ready 0 15 e) := by
  refine ⟨fun ⟨e, h⟩ => absurd h.address (by decide), fun ⟨e, h⟩ => ?_, fun ⟨e, h⟩ => ?_⟩
  · have he : some Endpoint.reset = some e := h.exists_
    cases he
    exact absurd h.enabled (by decide)
  · have he : none = some e := h.exists_
    cases he

theorem witness_BusSignals :
    ready.dev.detach = false ∧ ({ DevRegs.reset with pllEn := true }).pllEn = true ∧
    ({ DevRegs.reset with pllEn := true }).pllLock = false ∧ ({ DevRegs.reset with pllEn := true }).pllFail = false ∧
    (raise .pllLockFail { boot with dev := { DevRegs.reset with pllEn := true, pllFail := true } }).dev.pllFail = true := by
  decide

theorem witness_TxreadyStep :
    let e : Endpoint := { ep3 with txini := false }
    ((at0 ep0Initialised).eps[(0 : EpNum).toNat]? = some ep0Initialised ∧ ep0Initialised.epen = true ∧
      ep0Initialised.cfgok = true ∧ ep0Initialised.txini = false ∧ ep0Initialised.rxstpi = false ∧
      ep0Initialised.banks[ep0Initialised.fill]? = some ⟨[], false⟩ ∧ ep0Initialised.eptype = 0 ∧
      ep0Initialised.rxouti = false) ∧
    ((two ep0 e).eps[(1 : EpNum).toNat]? = some e ∧ e.eptype ≠ 0 ∧ e.epdir = true) := by decide

/-- Detached; no lock awaited; an endpoint that does not exist. -/
theorem witness_NotEnabledEvents :
    boot.dev.detach = true ∧ ¬(ready.dev.pllEn = true ∧ ready.dev.pllLock = false ∧ ready.dev.pllFail = false) ∧
    ready.eps[(15 : EpNum).toNat]? = none := by decide

theorem witness_InitialisationRun : Config.wf { cfg with numEp := 4 } = true ∧ Config.default.wf = true := ⟨by decide, rfl⟩

theorem witness_PllLockGate :
    let s (lock fail : Bool) : State :=
      { boot with seq := .initLock, dev := { DevRegs.reset with pllEn := true, pllLock := lock, pllFail := fail } }
    (s false true).ctx = .init ∧ (s false true).seq = .initLock ∧ (s false true).dev.pllFail = true ∧
    ((s false false).dev.pllFail = false ∧ (s false false).dev.pllLock = false) ∧
    ((s true false).dev.pllFail = false ∧ (s true false).dev.pllLock = true) := by decide

theorem witness_HandlerEntry :
    let e : Endpoint := { ep0 with rxstpi := true }
    let s (d : DevRegs) : State := { at0 e with dev := d }
    (s dev).ctx = .idle ∧
    ((s { dev with eorsti := true }).dev.eorsti = true ∧ (s { dev with eorsti := true }).dev.eorste = true) ∧
    ((s { dev with sofi := true }).dev.eorsti = false ∧ (s { dev with sofi := true }).dev.sofi = true ∧
      (s { dev with sofi := true }).dev.sofe = true) ∧
    ((s dev).dev.sofi = false ∧ (s dev).eps[0]? = some e ∧ e.rxstpi = true ∧ e.rxstpe = true) ∧
    (ready.ctx = .idle ∧ ready.dev.sofi = false ∧ ready.eps[0]? = some ep0 ∧ ep0.rxstpi = false) := by decide

theorem witness_BusResetReinitialises :
    let s : State := { boot with
      ctx := .idle, seq := .idle, dev := dev, turns := .bus [0x04] :: List.replicate 7 .engine }
    s.Wf ∧ s.ctx = .idle ∧ s.dev.detach = false ∧ s.dev.eorste = true ∧
      s.turns = .bus [0x04] :: List.replicate 7 .engine :=
  ⟨⟨by decide, by decide, boot_endpoints, rfl, rfl, rfl, by simp [boot, State.resetWith]⟩, rfl, rfl, rfl, rfl⟩

theorem witness_SetupParsed :
    let e : Endpoint := { ep0 with rxstpi := true, banks := [⟨Packet8.bytes packet, false⟩] }
    let s : State := { at0 e with turns := List.replicate 10 .engine }
    s.ctx = .idle ∧ ¬(s.dev.eorsti = true ∧ s.dev.eorste = true) ∧ ¬(s.dev.sofi = true ∧ s.dev.sofe = true) ∧
    s.eps[0]? = some e ∧ e.rxstpi = true ∧ e.rxstpe = true ∧ e.cfgok = true ∧ e.fill = 0 ∧
    e.banks = ⟨[0x80, 0x06, 0x00, 0x01, 0x00, 0x00, 0x40, 0x00], false⟩ :: [] ∧
    s.turns = List.replicate 10 .engine := by decide

theorem witness_DispatchTargets :
    (serving .sDispatch).ctx = .setup ∧ (serving .sDispatch).seq = .sDispatch := by decide

/-- The two types the ROM has, and their neighbours. -/
theorem witness_GetDescriptorLookup : (serving .gdLookup).ctx = .setup ∧ (serving .gdLookup).seq = .gdLookup ∧
    (0x01FF : Half).extractLsb' 8 8 = (0x01 : Byte) ∧ (0x0200 : Half).extractLsb' 8 8 = (0x02 : Byte) ∧
    ¬((0x0300 : Half).extractLsb' 8 8 = (0x01 : Byte) ∨ (0x0300 : Half).extractLsb' 8 8 = (0x02 : Byte)) ∧
    ¬((0x0001 : Half).extractLsb' 8 8 = (0x01 : Byte) ∨ (0x0001 : Half).extractLsb' 8 8 = (0x02 : Byte)) := by decide

/-- Each microstate, with the bank ready, not ready, released by a bus reset, and ready under unread OUT data. -/
theorem witness_SetAddressSteps :
    let busy : Endpoint := { ep0 with rxouti := true }
    ((serving .saSet).ctx = .setup ∧ (serving .saSet).dev.epnum = 0 ∧ (serving .saSet).eps[0]? = some ep0) ∧
    ep0.txini = true ∧ ep0Initialised.txini = false ∧ ep0.busReset.txini = false ∧ ep0.Ready ∧
    (busy.eptype = 0 ∧ busy.txini = true ∧ busy.rxstpi = false ∧ busy.rxouti = true) :=
  ⟨⟨rfl, rfl, rfl⟩, rfl, rfl, rfl, ep0_ready, ⟨rfl, rfl, rfl, rfl⟩⟩

theorem witness_SetConfigurationStore :
    let busy : Endpoint := { ep0 with rxouti := true }
    ((serving .scZc).ctx = .setup ∧ (serving .scZc).dev.epnum = 0 ∧ (serving .scZc).eps[0]? = some ep0) ∧
    ep0.txini = true ∧ ep0Initialised.txini = false ∧ ep0.busReset.txini = false ∧ ep0.Ready ∧
    (busy.eptype = 0 ∧ busy.txini = true ∧ busy.rxstpi = false ∧ busy.rxouti = true) :=
  ⟨⟨rfl, rfl, rfl⟩, rfl, rfl, rfl, ep0_ready, ⟨rfl, rfl, rfl, rfl⟩⟩

theorem witness_SetConfigurationEndpoint3 :
    (serving .scCfgSel).ctx = .setup ∧ (serving .scCfgSel).seq = .scCfgSel ∧
    (serving .scCfgSel).eps[3]? = some Endpoint.reset := by decide

theorem witness_FixedReplies :
    (serving .gcLoad).ctx = .setup ∧ (serving .gcLoad).seq = .gcLoad ∧ (serving .gsLoad).seq = .gsLoad := by decide

theorem witness_StallAndReturn : (serving .stall).ctx = .setup ∧ (serving .stall).selected = some ep0 ∧
    (serving .stall).seq = .stall ∧ (serving .ret).selected = some ep0 ∧ (serving .ret).seq = .ret ∧
    Instr.isRequest (.setAddress 5 0 0) = true := by decide

theorem witness_WaitHolds :
    Instr.isRequest (.setAddress 5 0 0) = true ∧
    (∀ q ∈ [Seq.strWait, .saZw, .saWait, .scZw], (serving q).ctx = .setup ∧ (serving q).seq = q ∧
      (serving q).eps[0]? = some ep0 ∧ (serving q).dev.epnum = 0) ∧
    ep0.txini = true ∧ ({ serving .strWait with eps := [ep0Initialised] }).eps[0]? = some ep0Initialised ∧
    ep0Initialised.txini = false := by decide

/-- A last packet, and one of 32 bytes with two to come (V-D10). -/
theorem witness_StreamPacket :
    let s (off rem : Half) : State := { serving .strWait with work := ⟨.rom, off, rem, 0, 0, 0, 0, 0⟩ }
    (Instr.isRequest (.getDescriptor 0x0200 0 255) = true ∧ (s 50 2).ctx = .setup ∧ (s 50 2).seq = .strWait ∧
      (s 50 2).dev.epnum = 0 ∧ (s 50 2).eps[0]? = some ep0 ∧ (s 50 2).work.remaining ≠ 0 ∧
      sourceBytes (s 50 2) (min (s 50 2).work.remaining.toNat 32) = some [0x00, 0x0A]) ∧
    ep0.Ready ∧ (sourceBytes (s 18 34) (min (s 18 34).work.remaining.toNat 32)).isSome = true :=
  ⟨by decide, ep0_ready, by decide⟩

theorem witness_DeviceDescriptorSent :
    ((serving .sDispatch).ctx = .setup ∧ (serving .sDispatch).seq = .sDispatch ∧ (serving .sDispatch).dev.epnum = 0 ∧
      (serving .sDispatch).eps[0]? = some ep0 ∧ (serving .sDispatch).rom = [] ∧
      (0x0100 : Half).extractLsb' 8 8 = (0x01 : Byte) ∧ (1 : Half) ≠ 0) ∧ ep0.Ready :=
  ⟨by decide, ep0_ready⟩

theorem witness_RomLayout : boot.rom = [] ∧ boot.cfg.hidPresent = true ∧
    (State.resetWith { cfg with hidPresent := false }).rom = [] := by decide

end Sys2Proof.Tests
end

/-! SUPPORT. Whose step is next (00_scope.md R10): what each turn, and an empty schedule, makes the next step do,
and the obligations of the scope settled from it. -/

namespace Sys2Proof.Machine

/-- What a scheduled turn makes the next step do. -/
def turnAction : Turn → State → Action
  | .engine => engineAction
  | .bus bytes => recordAction .bus bytes
  | .reg bytes => recordAction .reg bytes
  | .reg32 bytes => recordAction .reg32 bytes

theorem nextAction_of_turn {s : State} {t : Turn} {ts : List Turn} (h : s.turns = t :: ts) :
    nextAction s = turnAction t { s with turns := ts } := by
  cases t <;> simp [nextAction, h, turnAction]

/-! ### A record's turn -/

theorem step_of_record_ok {s u : State} {p : Port} {bs rest : List Byte} {i : Instr}
    (hn : nextAction s = recordAction p bs u) (hd : decode p bs = .ok i rest) : step s = exec i u := by
  simp [step, hn, recordAction, hd]

theorem step_of_record_reject {s u : State} {p : Port} {bs : List Byte} {x : DecodeError}
    (hn : nextAction s = recordAction p bs u) (hd : decode p bs = .reject x) : step s = .refused (.malformed x) := by
  simp [step, hn, recordAction, hd]

/-- R107 assigns the event codes 1 to 9. -/
theorem decode_bus_unassigned {c : Byte} (hc : c = 0 ∨ (0x0A : Byte) ≤ c) (bs : List Byte) :
    decode .bus (c :: bs) = .reject .unassignedEvent := by
  have unlisted : ∀ k : Byte, 1 ≤ k → k ≤ 9 → c ≠ k := by
    rintro k h1 h9 rfl
    bv_omega
  simp [decode, decodeBus, unlisted]

/-! ### The engine's turn -/

theorem step_of_request {s u : State} (hn : nextAction s = engineAction u) (hr : requestRuns u = true) :
    step s = exec u.latch.request u := by simp [step, hn, engineAction, hr]

theorem step_of_engineStep {s u : State} (hn : nextAction s = engineAction u) (hr : requestRuns u = false) :
    step s = engineStep u := by simp [step, hn, engineAction, hr]

/-! ### The empty schedule -/

theorem withTurns_self {s : State} {ts : List Turn} (h : s.turns = ts) : { s with turns := ts } = s := by
  subst h; rfl

theorem nextAction_of_empty_enabled {s : State} (ht : s.turns = []) (he : engineEnabled s = true) :
    nextAction s = engineAction s := by simp [nextAction, ht, he]

theorem step_of_empty_txready {s : State} {n : Nat} (ht : s.turns = []) (he : engineEnabled s = false)
    (hn : firstTxReady s = some n) : step s = execTxready (BitVec.ofNat 4 n) s := by
  simp [step, nextAction, ht, he, hn, exec]

theorem step_of_empty_quiet {s : State} (ht : s.turns = []) (he : engineEnabled s = false)
    (hn : firstTxReady s = none) : step s = .next s := by simp [step, nextAction, ht, he, hn]

theorem txEnabled_of_getElem? {s : State} {n : Nat} {e : Endpoint} (h : s.eps[n]? = some e) :
    txEnabled s n = e.txEnabled := by simp [txEnabled, h]

/-- The first enabled endpoint, by what the endpoints before it are. -/
theorem firstTxReady_eq_some {s : State} {n : Nat} {e : Endpoint} (hn : s.eps[n]? = some e) (he : e.txEnabled = true)
    (hlow : ∀ m e', m < n → s.eps[m]? = some e' → e'.txEnabled = false) : firstTxReady s = some n := by
  obtain ⟨hlt, -⟩ := List.getElem?_eq_some_iff.mp hn
  refine List.find?_range_eq_some.mpr ⟨(txEnabled_of_getElem? hn).trans he, List.mem_range.mpr hlt, fun m hm => ?_⟩
  have hget : s.eps[m]? = some s.eps[m] := List.getElem?_eq_getElem (hm.trans hlt)
  simp [txEnabled_of_getElem? hget, hlow m _ hm hget]

theorem firstTxReady_eq_none {s : State} (h : ∀ e ∈ s.eps, e.txEnabled = false) : firstTxReady s = none := by
  refine List.find?_range_eq_none.mpr fun m hm => ?_
  simp [txEnabled_of_getElem? (List.getElem?_eq_getElem hm), h _ (List.getElem_mem hm)]

/-- `TXREADY n` where it is enabled (40_bus_transactions.md R158). -/
theorem execTxready_of_enabled {s : State} {n : EpNum} {e : Endpoint} (hn : s.eps[n.toNat]? = some e)
    (he : e.txEnabled = true) : execTxready n s = .next (setEp n e.txReady s) := by simp [execTxready, hn, he]

end Sys2Proof.Machine

namespace Sys2Proof.Proofs

open Sys2Proof.Machine

/-- Settles O8: the endpoint search of an empty schedule finds the lowest enabled endpoint, whose number fits in the
four bits of the event's operand because there are at most 16 endpoints. -/
theorem emptySchedule : Obligations.EmptySchedule := by
  intro s ht hlen
  refine ⟨fun he => ?_, fun he n e hn hen hlow => ?_, fun he hoff => ?_⟩
  · have hsame : nextAction s = nextAction { s with turns := [.engine] } := by
      rw [nextAction_of_empty_enabled ht he, nextAction_of_turn rfl, turnAction, withTurns_self ht]
    simp only [step, hsame]
  · obtain ⟨hlt, -⟩ := List.getElem?_eq_some_iff.mp hn
    have hnum : (BitVec.ofNat 4 n).toNat = n := by simp [Nat.mod_eq_of_lt (hlt.trans_le hlen)]
    rw [step_of_empty_txready ht he (firstTxReady_eq_some hn hen hlow),
      execTxready_of_enabled (by rwa [hnum]) hen, setEp, hnum]
  · exact step_of_empty_quiet ht he (firstTxReady_eq_none hoff)

/-- Settles O6, a record of each kind from the action it gives; the unassigned event codes from the event table. -/
theorem stepRunsRecord : Obligations.StepRunsRecord := by
  intro s bs rest ts i
  refine ⟨fun ht hd => ?_, fun ht hd => ?_, fun ht hd => ?_, fun x ht hd => ?_, fun c hc => ?_⟩
  · exact step_of_record_ok (nextAction_of_turn ht) hd
  · exact step_of_record_ok (nextAction_of_turn ht) hd
  · exact step_of_record_ok (nextAction_of_turn ht) hd
  · exact step_of_record_reject (nextAction_of_turn ht) hd
  · exact decode_bus_unassigned hc bs

/-- Settles O7: using up the turn leaves the handler context, the microstate and the latch, so the request that runs is
the one dispatched before it. -/
theorem engineTurn : Obligations.EngineTurn := by
  intro s ts ht
  have hn : nextAction s = engineAction { s with turns := ts } := nextAction_of_turn ht
  exact ⟨step_of_request hn, step_of_engineStep hn⟩

end Sys2Proof.Proofs

/-! SUPPORT. A well-formed state and the fault record (10_state.md R40, R43): every instruction, every engine step and
every step keeps them; power-on meets them. The rule a request follows (R22), and the interrupt lines (R42). -/

namespace Sys2Proof.Machine

/-! ### Updates that keep a well-formed state -/

/-- A well-formed state says nothing of these fields. -/
theorem State.Wf.frame {s : State} (h : s.Wf) (d : DevRegs) (v w : Word) (l : List Answer) (ts : List Turn) :
    ({ s with dev := d, rdData := v, mainData := w, history := l, turns := ts } : State).Wf :=
  ⟨h.params, h.count, h.endpoints, h.memory, h.record, h.context, h.halted⟩

/-- A token answered, with the endpoint after it. -/
theorem sees_setEp_wf {s : State} {n : EpNum} {e : Endpoint} (x : Answer) (h : s.Wf) (he : e.Wf) :
    (sees x (setEp n e s)).Wf :=
  (wf_set h he).frame s.dev s.rdData s.mainData (x :: s.history) s.turns

theorem receives_wf {s : State} {a : DevAddr} {n : EpNum} {e : Endpoint} (h : s.Wf) (hr : receives s a n = some e) :
    e.Wf :=
  EndpointsWf.get h.endpoints (receives_some hr).1

/-! ### Bus events keep it -/

theorem execSetup_wf {a : DevAddr} {n : EpNum} {d : Packet8} {s t : State} (h : s.Wf)
    (hx : execSetup a n d s = .next t) : t.Wf := by
  unfold execSetup at hx
  split at hx
  · cases hx; exact h
  · next e hr =>
    have accepted := sees_setEp_wf (n := n) .ack h (receiveSetup_wf (d := d) (receives_wf h hr))
    split at hx
    · cases hx
      split
      · exact raise_wf .setupDuringTransfer accepted
      · exact accepted
    · cases hx; exact h

theorem execIn_wf {a : DevAddr} {n : EpNum} {s t : State} (h : s.Wf) (hx : execIn a n s = .next t) : t.Wf := by
  unfold execIn at hx
  split at hx
  · cases hx; exact h
  · next e hr =>
    split at hx
    · cases hx; exact sees_setEp_wf _ h (answerIn_wf (receives_wf h hr))
    · cases hx; exact h

theorem execOut_wf {a : DevAddr} {n : EpNum} {d : List Byte} {s t : State} (h : s.Wf)
    (hx : execOut a n d s = .next t) : t.Wf := by
  unfold execOut at hx
  split at hx
  · cases hx; exact h
  · next e hr =>
    have answered := answerOut_wf (d := d) (receives_wf h hr)
    split at hx
    · split at hx
      · cases hx; exact h
      · next x e' hout =>
        rw [hout] at answered
        cases hx; exact sees_setEp_wf x h answered
    · cases hx; exact h

/-- A bus reset leaves every endpoint deactivated, and so well formed (40_bus_transactions.md R150). -/
theorem execBusReset_wf {s t : State} (h : s.Wf) (hx : execBusReset s = .next t) : t.Wf := by
  unfold execBusReset at hx
  split at hx
  · cases hx; exact h
  · cases hx
    refine ⟨h.params, by simpa using h.count, fun e he => ?_, h.memory, h.record, h.context, h.halted⟩
    obtain ⟨e', -, rfl⟩ := List.mem_map.mp he
    exact e'.busReset_wf

theorem execTxready_wf {n : EpNum} {s t : State} (h : s.Wf) (hx : execTxready n s = .next t) : t.Wf := by
  unfold execTxready at hx
  split at hx
  · cases hx; exact h
  · next e he =>
    split at hx
    · cases hx; exact wf_set h (txReady_wf (EndpointsWf.get h.endpoints he))
    · cases hx; exact h

/-- An event that writes only device-level registers: `d` where the condition holds, `d'` where it does not. -/
theorem devEvent_wf {c : Prop} [Decidable c] {d d' : DevRegs} {s t : State} (h : s.Wf)
    (hx : (if c then .next { s with dev := d } else .next { s with dev := d' } : Result) = .next t) : t.Wf := by
  split at hx
  · cases hx; exact h.frame d s.rdData s.mainData s.history s.turns
  · cases hx; exact h.frame d' s.rdData s.mainData s.history s.turns

/-! ### Every instruction, and every step -/

theorem exec_wf {i : Instr} {s t : State} (h : s.Wf) (hx : exec i s = .next t) : t.Wf := by
  cases i with
  | getDescriptor | setAddress | setConfiguration | getConfiguration | getStatus | stallOther =>
    obtain ⟨f, q, hf, hr⟩ := exec_request rfl hx
    exact request_wf hf h hr
  | setup => exact execSetup_wf h hx
  | inToken => exact execIn_wf h hx
  | outToken => exact execOut_wf h hx
  | busReset => exact execBusReset_wf h hx
  | sof | pllLocked | pllFail => exact devEvent_wf h hx
  | txready => exact execTxready_wf h hx
  | statusRead => cases hx; exact h.frame s.dev s.rdData (engstatus s) s.history s.turns
  | rdEngstatus => cases hx; exact h.frame s.dev (engstatus s) s.mainData s.history s.turns
  | rdPllctl | rdDevctl | rdDevint | rdDevinten | rdDevaddr | rdEptogrst | rdEpsel =>
    exact op_wf (fun u hu => by cases hu; exact returns_keeps _ s) h hx
  | wrPllctl | wrDevctl | wrDevint | wrDevinten | wrDevaddr | wrEpsel =>
    exact op_wf (fun u hu => by cases hu; exact dev_keeps _ s) h hx
  | rdEpctl | rdEpcfg0 | rdEpcfg1 | rdEpsta | rdEpint | rdEpinten | rdEpbcnt =>
    exact op_wf (fun _ => readSelected_keeps) h hx
  | wrEptogrst => exact op_wf (fun _ => wrEptogrst_keeps) h hx
  | wrEpctl => exact op_wf (fun _ => wrEpctl_keeps) h hx
  | wrEpcfg0 => exact op_wf (fun _ => wrEpcfg0_keeps) h hx
  | wrEpcfg1 => exact op_wf (fun _ => wrEpcfg1_keeps) h hx
  | wrEpint => exact op_wf (fun _ => wrEpint_keeps) h hx
  | wrEpinten => exact op_wf (fun _ => wrEpinten_keeps) h hx
  | rdEpdata => exact op_wf (fun _ => rdEpdata_keeps) h hx
  | wrEpdata => exact op_wf (fun _ => wrEpdata_keeps) h hx
  | wrEpsta | wrEpbcnt | wrEngstatus | otherRegOp =>
    exact op_wf (op := badRegister) (fun u hu => by cases hu) h hx

theorem step_wf {s t : State} (h : s.Wf) (ht : step s = .next t) : t.Wf := by
  have hu : ({ s with turns := s.turns.tail } : State).Wf := h.frame s.dev s.rdData s.mainData s.history s.turns.tail
  rcases step_cases ht with ⟨i, -, hx⟩ | ⟨-, hx⟩ | ⟨-, rfl⟩
  · exact exec_wf hu hx
  · exact engineStep_wf hu hx
  · exact hu

theorem ExecKeeps.mem_faults {s t : State} {k : FaultKind} (h : ExecKeeps s t) (hk : k ∈ s.faults) : k ∈ t.faults := by
  rcases h.faults with hf | ⟨j, hf⟩
  · rwa [hf]
  · rw [hf]; exact mem_insertFault.mpr (.inr hk)

theorem step_mem_faults {s t : State} {k : FaultKind} (ht : step s = .next t) (hk : k ∈ s.faults) : k ∈ t.faults := by
  rcases step_cases ht with ⟨i, -, hx⟩ | ⟨-, hx⟩ | ⟨-, rfl⟩
  · exact (exec_keeps hx).mem_faults hk
  · exact (engineStep_keeps hx).mem_faults hk
  · exact hk

/-! ### Power-on -/

theorem mem_resetWith_eps {c : Config} {e : Endpoint} (he : e ∈ (State.resetWith c).eps) : e = Endpoint.reset :=
  List.eq_of_mem_replicate he

theorem resetWith_engstatus (c : Config) : engstatus (State.resetWith c) = 0 :=
  BitVec.eq_of_toNat_eq ((engstatus_toNat _).trans rfl)

theorem resetWith_wf {c : Config} (hc : c.wf = true) : (State.resetWith c).Wf where
  params := hc
  count := List.length_replicate
  endpoints e he := mem_resetWith_eps he ▸ Endpoint.reset_wf
  memory := resetWith_memory c
  record := rfl
  context := rfl
  halted := by simp [State.resetWith]

/-- Outside the streaming engine's microstates nothing is asked of the stream. -/
theorem StreamOk.of_not_streams {q : Seq} {w : Work} (h : q.streams = false) : StreamOk q w where
  inside hq := by simp [h] at hq
  some_left hq := by simp [h] at hq
  chunk hq := by rcases hq with rfl | rfl <;> cases h
  index hq := by subst hq; cases h

/-- At power-on no endpoint is allocated and the engine is at `INIT_PLL`, so most of the invariant asks nothing. -/
theorem resetWith_engineOk (c : Config) (ts : List Turn) : EngineOk { State.resetWith c with turns := ts } := by
  have fresh : ∀ {n : Nat} {e : Endpoint}, (State.resetWith c).eps[n]? = some e → e = Endpoint.reset :=
    fun he => mem_resetWith_eps (List.mem_of_getElem? he)
  exact {
    parsed := Seq.noConfusion
    selected := .inl rfl
    onEp0 := Bool.noConfusion
    onEp3 := Bool.noConfusion
    keyboard := Seq.noConfusion
    others := fun n e he _ hc => by rw [fresh he] at hc; cases hc
    control := fun e he => by rw [fresh he]; exact ⟨rfl, Bool.noConfusion⟩
    bank := fun e he hc => by rw [fresh he] at hc; cases hc
    stream := .of_not_streams rfl }

/-! ### The rule of a request -/

theorem requestStep_idle {f : Seq} {q : SetupLatch} {s : State} (h : requestRuns s = false) :
    requestStep f q s = .next s := by simp [requestStep, h]

theorem requestRuns_eq_false {s : State} (h : s.ctx = .halted ∨ s.ctx = .idle ∨ s.seq.inRequest = false) :
    requestRuns s = false := by
  rcases h with h | h | h <;> simp [requestRuns, h]

theorem exec_of_isRequest {i : Instr} (hi : i.isRequest = true) (s : State) : ∃ f q, exec i s = requestStep f q s := by
  cases i with
  | getDescriptor | setAddress | setConfiguration | getConfiguration | getStatus | stallOther => exact ⟨_, _, rfl⟩
  | _ => cases hi

/-- A request runs from the first microstate of its row (44_control_sequencer.md R295), with its own `wValue` and
`wLength`, which is all a microstate reads of it (R297). -/
theorem exec_latch_request (l : SetupLatch) (s : State) : ∃ q : SetupLatch,
    exec l.request s = requestStep (dispatchTarget (requestKind (half l.bRequest l.bmRequestType))) q s ∧
    q.wValue = l.wValue ∧ q.wLength = l.wLength := by
  unfold SetupLatch.request requestOf
  cases requestKind (half l.bRequest l.bmRequestType) <;> exact ⟨_, rfl, rfl, rfl⟩

/-- At `S_DISPATCH` the microprogram goes to the row's first microstate, as the request does; from there on they take
the same microstate with the same fields. -/
theorem exec_latch_request_eq_microstep {s : State} (hr : requestRuns s = true) :
    exec s.latch.request s = microstep s.latch s := by
  obtain ⟨q, hx, hv, hl⟩ := exec_latch_request s.latch s
  rw [hx, requestStep, if_pos hr]
  by_cases hd : s.seq = .sDispatch
  · simp [hd, microstep]
  · rw [if_neg hd, microstep_congr hv hl hd]

/-! ### The interrupt lines -/

theorem busEventIrq_iff (s : State) : busEventIrq s = true ↔
    (s.dev.sofi = true ∧ s.dev.sofe = true) ∨ (s.dev.eorsti = true ∧ s.dev.eorste = true) := by
  simp [busEventIrq, sofPending, busResetPending]

theorem Endpoint.irq_iff (e : Endpoint) : e.irq = true ↔
    (e.txini = true ∧ e.txine = true) ∨ (e.rxouti = true ∧ e.rxoute = true) ∨ (e.rxstpi = true ∧ e.rxstpe = true) := by
  simp [Endpoint.irq, or_assoc]

theorem epEventIrq_iff (s : State) : epEventIrq s = true ↔ ∃ (n : Nat) (e : Endpoint), s.eps[n]? = some e ∧ e.irq = true := by
  simp only [epEventIrq, List.any_eq_true, List.mem_iff_getElem?]
  exact ⟨fun ⟨e, ⟨n, hn⟩, he⟩ => ⟨n, e, hn, he⟩, fun ⟨n, e, hn, he⟩ => ⟨e, ⟨n, hn⟩, he⟩⟩

end Sys2Proof.Machine

namespace Sys2Proof.Proofs

open Sys2Proof.Machine

/-- Settles O10: an instruction, an engine step or a quiet step, each after its turn is used up. -/
theorem stepKeepsWellFormed : Obligations.StepKeepsWellFormed := fun _ _ => step_wf

/-- Settles O9: a request past `S_DISPATCH` takes the microprogram's own step, at `S_DISPATCH` both go to its row. -/
theorem requestFollowsMicroprogram : Obligations.RequestFollowsMicroprogram := by
  refine ⟨fun s => exec_latch_request_eq_microstep, fun i s hi hs => ?_⟩
  obtain ⟨f, q, hx⟩ := exec_of_isRequest hi s
  rw [hx, requestStep_idle (requestRuns_eq_false hs)]

/-- Settles O14: a step leaves the record or inserts one kind. -/
theorem faultsNeverRemoved : Obligations.FaultsNeverRemoved :=
  ⟨fun _ => rfl, fun _ _ _ => step_mem_faults⟩

/-- Settles O11: at power-on no endpoint has banks and no fault is recorded. -/
theorem resetWellFormed : Obligations.ResetWellFormed := fun _ => resetWith_wf

/-- Settles O13: the schedule is no part of a well-formed state nor of what the engine keeps. -/
theorem resetMicroprogram : Obligations.ResetMicroprogram := fun c ts hc hts =>
  { wf := (resetWith_wf hc).frame DevRegs.reset 0 0 [] ts
    turns := hts
    faults := fun _ hk => by cases hk
    running := fun _ => resetWith_engineOk c ts }

/-- Settles O20: `State.resetWith` field by field, each endpoint a copy of `Endpoint.reset`. -/
theorem powerOnValues : Obligations.PowerOnValues := fun c =>
  ⟨rfl, rfl, rfl, rfl, rfl, rfl, rfl, rfl, rfl, rfl, rfl, List.length_replicate, fun _ => mem_resetWith_eps, rfl,
    resetWith_engstatus c⟩

/-- Settles O60: the endpoint line is the disjunction of the endpoints' parts. -/
theorem interruptLines : Obligations.InterruptLines := fun s =>
  ⟨busEventIrq_iff s, by simp only [epEventIrq_iff, Endpoint.irq_iff]⟩

end Sys2Proof.Proofs

/-! SUPPORT. What every step keeps once its turn is used up, and from it the descriptor ROM (20_memory.md R95). -/

namespace Sys2Proof.Machine

/-- Whoever moves, a step uses up its turn and from there keeps what every instruction keeps. -/
theorem step_keeps {s t : State} (h : step s = .next t) : ExecKeeps { s with turns := s.turns.tail } t := by
  rcases step_cases h with ⟨i, -, hx⟩ | ⟨-, hx⟩ | ⟨-, rfl⟩
  · exact exec_keeps hx
  · exact engineStep_keeps hx
  · exact ⟨rfl, rfl, rfl, .inl rfl⟩

end Sys2Proof.Machine

namespace Sys2Proof.Proofs

open Sys2Proof.Machine

/-- Settles O18: a ROM read is a function of the parameters and the ROM, which every step keeps. -/
theorem romImmutable : Obligations.RomImmutable := fun _ _ h =>
  have keeps := step_keeps h
  ⟨keeps.cfg, keeps.rom, romRead_congr keeps.cfg keeps.rom⟩

end Sys2Proof.Proofs

/-! SUPPORT. The decoder and the encoder agree (30_encoding.md R100 to R109): what each decoder accepts is what the
encoder writes there, and the words no row lists. -/

namespace Sys2Proof

/-- The instruction is well formed, and at this port its encoding is what the bytes begin with. -/
structure EncodesAs (i : Instr) (p : Port) (bs rest : List Byte) : Prop where
  wf : i.wf = true
  bytes : (encode i).2 ++ rest = bs
  port : (encode i).1 = p

/-! ### Requests (R104) -/

theorem requestOf_wf (t r : Byte) (v x l : Half) : (requestOf t r v x l).wf = true := by
  cases hk : requestKind (half r t) with
  | stallOther => simpa only [requestOf, hk, Instr.wf] using (keyUnlisted_iff t r).mpr hk
  | _ => simp only [requestOf, hk, Instr.wf]

/-- The key bytes a row leaves out of its instruction are the ones the encoder puts back. -/
theorem encode_requestOf (t r : Byte) (v x l : Half) : encode (requestOf t r v x l) = encodeRequest t r v x l := by
  rw [requestOf, requestKind_bytes]
  split_ifs with hgd hsa hsc hgc hgs
  · rw [hgd.1, hgd.2]; rfl
  · rw [hsa.1, hsa.2]; rfl
  · rw [hsc.1, hsc.2]; rfl
  · rw [hgc.1, hgc.2]; rfl
  · rw [hgs]; rfl
  · rfl

theorem requestOf_getStatus (t : Byte) (v x l : Half) : requestOf t 0x00 v x l = .getStatus t v x l := by
  have hk : requestKind (half 0x00 t) = .getStatus := by rw [requestKind_bytes]; simp
  rw [requestOf, hk]

theorem requestOf_unlisted {t r : Byte} (h : keyUnlisted t r = true) (v x l : Half) :
    requestOf t r v x l = .stallOther t r v x l := by
  rw [requestOf, (keyUnlisted_iff t r).mp h]

theorem decodeSetup_ok {bs rest : List Byte} {i : Instr} (h : decodeSetup bs = .ok i rest) :
    EncodesAs i .setup bs rest := by
  unfold decodeSetup at h
  split at h
  · cases h
    refine ⟨requestOf_wf .., ?_, ?_⟩ <;> rw [encode_requestOf]
    · simp [encodeRequest, le16_half]
    · rfl
  · cases h

/-! ### Bus events (R107) -/

/-- An address byte in range is the encoding of the address read from it. -/
theorem addr_byte {a : Byte} (h : ¬(0x80 : Byte) ≤ a) : (a.setWidth 7).setWidth 8 = a := by revert a; decide

theorem endpoint_byte {e : Byte} (h : ¬(0x10 : Byte) ≤ e) : (e.setWidth 4).setWidth 8 = e := by revert e; decide

theorem decodeToken_ok {k : DevAddr → EpNum → List Byte → Decoded} {bs rest : List Byte} {i : Instr}
    (h : decodeToken k bs = .ok i rest) :
    ∃ (a : DevAddr) (e : EpNum) (tail : List Byte), bs = a.setWidth 8 :: e.setWidth 8 :: tail ∧ k a e tail = .ok i rest := by
  unfold decodeToken at h
  split at h
  · next a e tail =>
    split_ifs at h with ha he
    exact ⟨_, _, tail, by rw [addr_byte ha, endpoint_byte he], h⟩
  · cases h

theorem decodePacket8_ok {a : DevAddr} {e : EpNum} {bs rest : List Byte} {i : Instr}
    (h : decodePacket8 a e bs = .ok i rest) :
    EncodesAs i .bus (0x1 :: a.setWidth 8 :: e.setWidth 8 :: bs) rest := by
  unfold decodePacket8 at h
  split at h
  · cases h; exact ⟨rfl, rfl, rfl⟩
  · cases h

theorem decodeOutData_ok {a : DevAddr} {e : EpNum} {bs rest : List Byte} {i : Instr}
    (h : decodeOutData a e bs = .ok i rest) :
    EncodesAs i .bus (0x3 :: a.setWidth 8 :: e.setWidth 8 :: bs) rest := by
  unfold decodeOutData at h
  split at h
  · next n tail =>
    split_ifs at h with hbig hshort
    cases h
    have hlen : (tail.take n.toNat).length = n.toNat := List.length_take_of_le (not_lt.mp hshort)
    exact {
      wf := by simpa [Instr.wf, hlen] using hbig
      bytes := by simp [encode, encodeToken, hlen]
      port := rfl }
  · cases h

theorem decodeTxready_ok {bs rest : List Byte} {i : Instr} (h : decodeTxready bs = .ok i rest) :
    EncodesAs i .bus (0x8 :: bs) rest := by
  unfold decodeTxready at h
  split at h
  · split_ifs at h with hn
    cases h
    exact ⟨rfl, by simp [encode, endpoint_byte hn], rfl⟩
  · cases h

theorem decodeTxready_enc (n : EpNum) (rest : List Byte) :
    decodeTxready (n.setWidth 8 :: rest) = .ok (.txready n) rest := by
  rw [decodeTxready, if_neg (low4 n)]
  simp

theorem decodeBus_ok {bs rest : List Byte} {i : Instr} (h : decodeBus bs = .ok i rest) : EncodesAs i .bus bs rest := by
  unfold decodeBus at h
  split at h
  · cases h
  · next c tail =>
    split_ifs at h with hsetup hin hout hreset hsof hlocked hfail htxready hread
    · obtain ⟨a, e, tail, rfl, hk⟩ := decodeToken_ok h
      exact hsetup ▸ decodePacket8_ok hk
    · obtain ⟨a, e, tail, rfl, hk⟩ := decodeToken_ok h
      cases hk
      exact ⟨rfl, hin ▸ rfl, rfl⟩
    · obtain ⟨a, e, tail, rfl, hk⟩ := decodeToken_ok h
      exact hout ▸ decodeOutData_ok hk
    · cases h; exact ⟨rfl, hreset ▸ rfl, rfl⟩
    · cases h; exact ⟨rfl, hsof ▸ rfl, rfl⟩
    · cases h; exact ⟨rfl, hlocked ▸ rfl, rfl⟩
    · cases h; exact ⟨rfl, hfail ▸ rfl, rfl⟩
    · exact htxready ▸ decodeTxready_ok h
    · cases h; exact ⟨rfl, hread ▸ rfl, rfl⟩

/-! ### Register operations (R109) -/

/-- A listed word has high byte 0x00 or 0x80 and names a register. -/
theorem listedWords_named : ∀ w ∈ listedWords, (hiByte w = 0x00 ∨ hiByte w = 0x80) ∧ regOf (loByte w) ≠ none := by
  simp [listedWords, hiByte, loByte, regOf]

theorem unlisted_word {hi lo : Byte} (h : hi = 0x00 ∨ hi = 0x80 → regOf lo = none) :
    listedWords.contains (half hi lo) = false := by
  refine Bool.eq_false_iff.mpr fun hc => ?_
  obtain ⟨hhi, hlo⟩ := listedWords_named _ (List.contains_iff_mem.mp hc)
  rw [hiByte_half] at hhi
  rw [loByte_half] at hlo
  exact hlo (h hhi)

theorem readOf_encodesAs (r : Reg) (rest : List Byte) : EncodesAs (readOf r) .reg (regNum r :: 0x00 :: rest) rest := by
  cases r <;> exact ⟨rfl, rfl, rfl⟩

theorem illegalWrite_encodesAs {r : Reg} {i : Instr} (h : writeOf r = .inl i) (rest : List Byte) :
    EncodesAs i .reg (regNum r :: 0x80 :: rest) rest := by
  cases r <;> cases h <;> exact ⟨rfl, rfl, rfl⟩

theorem write_encodesAs {r : Reg} {k : Byte → Instr} (h : writeOf r = .inr k) (v : Byte) (rest : List Byte) :
    EncodesAs (k v) .reg (regNum r :: 0x80 :: v :: rest) rest := by
  cases r <;> cases h <;> exact ⟨rfl, rfl, rfl⟩

theorem otherRegOp_encodesAs {hi lo : Byte} (h : hi = 0x00 ∨ hi = 0x80 → regOf lo = none) (rest : List Byte) :
    EncodesAs (.otherRegOp (half hi lo) false) .reg (lo :: hi :: rest) rest where
  wf := by rw [Instr.wf, unlisted_word h]; rfl
  bytes := by simp [encode, encodeRegOp, le16_half]
  port := rfl

theorem decodeReg_ok {bs rest : List Byte} {i : Instr} (h : decodeReg bs = .ok i rest) : EncodesAs i .reg bs rest := by
  unfold decodeReg at h
  split at h
  · next lo hi bytes =>
    split_ifs at h with hread hwrite
    · subst hread
      split at h
      · next r hr => cases h; exact regOf_num hr ▸ readOf_encodesAs r _
      · next hr => cases h; exact otherRegOp_encodesAs (fun _ => hr) _
    · subst hwrite
      split at h
      · next r hr =>
        rw [regOf_num hr]
        split at h
        · next hw => cases h; exact illegalWrite_encodesAs hw _
        · next hw =>
          split at h
          · cases h; exact write_encodesAs hw _ _
          · cases h
      · next hr => cases h; exact otherRegOp_encodesAs (fun _ => hr) _
    · cases h; exact otherRegOp_encodesAs (fun hhi => (hhi.elim hread hwrite).elim) _
  · cases h

/-- R109: these numbers name no register. -/
theorem regOf_gap {lo : Byte} (h : (0x06 < lo ∧ lo < 0x10) ∨ (0x17 < lo ∧ lo ≠ 0x20)) : regOf lo = none := by
  revert lo; decide

theorem half_eq_0020 {hi lo : Byte} : half hi lo = 0x0020 ↔ hi = 0x00 ∧ lo = 0x20 := half_inj (c := 0x00) (d := 0x20)

theorem decodeReg32_other {w : Half} (h : w ≠ 0x0020) (rest : List Byte) :
    decodeReg32 (le16 w ++ rest) = .ok (.otherRegOp w true) rest := by
  rw [← half_hi_lo w] at h ⊢
  rw [le16_half]
  exact if_neg h

/-- What the 32-bit port accepts; the `ENGSTATUS` read is encoded for the other port (R82). -/
theorem decodeReg32_ok {bs rest : List Byte} {i : Instr} (h : decodeReg32 bs = .ok i rest) :
    EncodesAs i .reg32 bs rest ∨ (i = .rdEngstatus ∧ EncodesAs i .reg bs rest) := by
  unfold decodeReg32 at h
  split at h
  · split_ifs at h with hw
    · cases h
      obtain ⟨rfl, rfl⟩ := half_eq_0020.mp hw
      exact .inr ⟨rfl, readOf_encodesAs .engstatus rest⟩
    · cases h
      exact .inl ⟨by simpa [Instr.wf] using hw, by simp [encode, le16_half], rfl⟩
  · cases h

end Sys2Proof

namespace Sys2Proof.Machine

theorem exec_otherRegOp {s : State} (h : s.ctx ≠ .halted) (w : Half) (wide : Bool) :
    exec (.otherRegOp w wide) s = .next (raise .badRegister s) :=
  engineOp_error h rfl

end Sys2Proof.Machine

namespace Sys2Proof.Proofs

open Sys2Proof.Machine

/-- Settles O2: each decoder on what the encoder writes at its port. A listed operation word is closed, so the decoder
runs on it; the catch-alls rest on the key or word being unlisted. -/
theorem decodeEncode : Obligations.DecodeEncode := by
  intro i rest hwf
  cases i with
  | getDescriptor v x l | setAddress v x l | setConfiguration v x l | getConfiguration v x l =>
    exact decodeSetup_enc _ _ v x l rest
  | getStatus t v x l => exact (decodeSetup_enc t 0x00 v x l rest).trans (by rw [requestOf_getStatus])
  | stallOther t r v x l => exact (decodeSetup_enc t r v x l rest).trans (by rw [requestOf_unlisted hwf])
  | setup a e d => exact decodeToken_enc decodePacket8 a e _
  | inToken a e => exact decodeToken_enc (fun a e r => .ok (.inToken a e) r) a e rest
  | outToken a e data =>
    exact (decodeToken_enc decodeOutData a e _).trans (decodeOutData_enc a e data rest (of_decide_eq_true hwf))
  | txready n => exact decodeTxready_enc n rest
  | busReset | sof | pllLocked | pllFail | statusRead => rfl
  | rdPllctl | rdDevctl | rdDevint | rdDevinten | rdDevaddr | rdEptogrst | rdEpsel | rdEpctl | rdEpcfg0 | rdEpcfg1
  | rdEpsta | rdEpint | rdEpinten | rdEpdata | rdEpbcnt | rdEngstatus => rfl
  | wrPllctl | wrDevctl | wrDevint | wrDevinten | wrDevaddr | wrEptogrst | wrEpsel | wrEpctl | wrEpcfg0 | wrEpcfg1
  | wrEpint | wrEpinten | wrEpdata => rfl
  | wrEpsta | wrEpbcnt | wrEngstatus => rfl
  | otherRegOp w wide =>
    cases wide with
    | false =>
      have hbytes : (encode (.otherRegOp w false)).2 = le16 w := List.append_nil _
      rw [hbytes]
      exact other_word w (by simpa [Instr.wf] using hwf) rest
    | true => exact decodeReg32_other (by simpa [Instr.wf] using hwf) rest

/-- Settles O3, port by port. -/
theorem encodeDecode : Obligations.EncodeDecode := by
  intro p bs rest i h
  have accepted : EncodesAs i p bs rest ∨ (i = .rdEngstatus ∧ p = .reg32 ∧ EncodesAs i .reg bs rest) := by
    cases p with
    | setup => exact .inl (decodeSetup_ok h)
    | bus => exact .inl (decodeBus_ok h)
    | reg => exact .inl (decodeReg_ok h)
    | reg32 => exact (decodeReg32_ok h).imp_right fun ⟨hi, he⟩ => ⟨hi, rfl, he⟩
  rcases accepted with he | ⟨hi, hp, he⟩
  · exact ⟨he.wf, he.bytes, .inl he.port⟩
  · exact ⟨he.wf, he.bytes, .inr ⟨hi, hp⟩⟩

/-- Settles O1: the decoder run on each of the eight words. -/
theorem writtenWordsDecode : Obligations.WrittenWordsDecode := by
  unfold Obligations.WrittenWordsDecode
  decide

/-- Settles O4: the table search as a chain of tests, each row's kind giving its instruction. -/
theorem requestRowSelected : Obligations.RequestRowSelected := by
  intro t r v x l K
  have hK : half r t = K := rfl
  rw [requestOf, hK, requestKind_eq]
  split_ifs <;> rfl

/-- Settles O5: such a word is not a listed one, and on the 32-bit port the only listed one is 0x0020. -/
theorem illegalWordsRaiseBadRegister : Obligations.IllegalWordsRaiseBadRegister := by
  intro lo hi rest s hs
  refine ⟨fun hill => ⟨?_, exec_otherRegOp hs _ _⟩, fun hne => ⟨?_, exec_otherRegOp hs _ _⟩⟩
  · have hnone : hi = 0x00 ∨ hi = 0x80 → regOf lo = none := by
      rintro (rfl | rfl) <;> exact regOf_gap (hill.resolve_left (by decide))
    have hother := other_word (half hi lo) (unlisted_word hnone) rest
    rwa [le16_half] at hother
  · have hother := decodeReg32_other (w := half hi lo) (fun hw => hne (half_eq_0020.mp hw)) rest
    rwa [le16_half] at hother

end Sys2Proof.Proofs

/-! SUPPORT. The bus events (40_bus_transactions.md): what a token that reaches an endpoint does there, what the bus
signals and `TXREADY` do, and where each changes nothing. -/

namespace Sys2Proof.Machine

/-! ### The kind of an endpoint (10_state.md R33) -/

theorem Endpoint.isControl_iff {e : Endpoint} : e.isControl = true ↔ e.eptype = 0 := by simp [Endpoint.isControl]

theorem Endpoint.isControl_eq_false {e : Endpoint} : e.isControl = false ↔ e.eptype ≠ 0 := by simp [Endpoint.isControl]

theorem Endpoint.takesIn_iff {e : Endpoint} : e.takesIn = true ↔ e.eptype = 0 ∨ e.epdir = true := by
  simp [Endpoint.takesIn, Endpoint.isControl_iff]

theorem Endpoint.takesOut_iff {e : Endpoint} : e.takesOut = true ↔ e.eptype = 0 ∨ e.epdir = false := by
  simp [Endpoint.takesOut, Endpoint.isControl_iff]

/-! ### An answer that leaves the endpoint as it is -/

theorem setEp_self {s : State} {n : EpNum} {e : Endpoint} (h : s.eps[n.toNat]? = some e) : setEp n e s = s := by
  obtain ⟨hlt, rfl⟩ := List.getElem?_eq_some_iff.mp h
  simp [setEp, List.set_getElem_self]

/-! ### SETUP (R143) -/

/-- The banks after an accepted SETUP: its bytes in bank 0, every other bank empty, none committed. -/
theorem Endpoint.receiveSetup_eq (d : Packet8) (e : Endpoint) : e.receiveSetup d = { e with
    banks := e.banks.mapIdx (fun k _ =>
      ⟨if k = 0 then [d.d0, d.d1, d.d2, d.d3, d.d4, d.d5, d.d6, d.d7] else [], false⟩),
    fill := 0, send := 0, rxstpi := true, stallrq := false, toggle := true } := by
  unfold Endpoint.receiveSetup
  congr 1
  cases e.banks with
  | nil => rfl
  | cons b bs => simp [Bank.empty, Packet8.bytes, List.mapIdx_eq_ofFn]

theorem execSetup_of_reaches {s : State} {a : DevAddr} {n : EpNum} {e : Endpoint} (h : Reaches s a n e) (d : Packet8)
    (hc : e.isControl = true) :
    let u := sees .ack (setEp n (e.receiveSetup d) s)
    execSetup a n d s = .next (if s.ctx = .setup then raise .setupDuringTransfer u else u) := by
  simp [execSetup, receives_of h, hc]

/-! ### IN (R145) -/

theorem execIn_of_reaches {s : State} {a : DevAddr} {n : EpNum} {e : Endpoint} (h : Reaches s a n e)
    (ht : e.takesIn = true) : execIn a n s = .next (sees e.answerIn.1 (setEp n e.answerIn.2 s)) := by
  simp [execIn, receives_of h, ht]

theorem Endpoint.answerIn_stalled {e : Endpoint} (h : e.stallrq = true) : e.answerIn = (.stall, e) := by
  simp [Endpoint.answerIn, h]

theorem Endpoint.answerIn_committed {e : Endpoint} {d : List Byte} (h : e.stallrq = false)
    (hb : e.banks[e.send]? = some ⟨d, true⟩) : e.answerIn = (.data e.toggle d, e.sendBank) := by
  simp [Endpoint.answerIn, h, hb]

theorem Endpoint.answerIn_none_committed {e : Endpoint} (h : e.stallrq = false)
    (hb : ¬∃ d, e.banks[e.send]? = some ⟨d, true⟩) : e.answerIn = (.nak, e) := by
  rcases he : e.banks[e.send]? with _ | ⟨d, _ | _⟩
  · simp [Endpoint.answerIn, h, he]
  · simp [Endpoint.answerIn, h, he]
  · exact absurd ⟨d, he⟩ hb

theorem Endpoint.sendBank_of {e : Endpoint} {b : Bank} (hb : e.banks[e.send]? = some b) : e.sendBank = { e with
    toggle := !e.toggle, banks := e.banks.set e.send ⟨[], false⟩, send := (e.send + 1) % e.nbanks } := by
  simp [Endpoint.sendBank, modify_eq_set hb, Bank.empty]

/-! ### OUT (R147) -/

theorem execOut_of_reaches {s : State} {a : DevAddr} {n : EpNum} {e e' : Endpoint} {d : List Byte} {x : Answer}
    (h : Reaches s a n e) (ht : e.takesOut = true) (ha : e.answerOut d = (some x, e')) :
    execOut a n d s = .next (sees x (setEp n e' s)) := by
  simp [execOut, receives_of h, ht, ha]

theorem execOut_unanswered {s : State} {a : DevAddr} {n : EpNum} {e e' : Endpoint} {d : List Byte}
    (h : Reaches s a n e) (ha : e.answerOut d = (none, e')) : execOut a n d s = .next s := by
  simp [execOut, receives_of h, ha]

/-- No room for an OUT packet: on a control endpoint unread data or a committed bank 0, else no bank without data. -/
def Endpoint.OutBusy (e : Endpoint) : Prop :=
  if e.eptype = 0 then e.rxstpi = true ∨ e.rxouti = true ∨ (∃ b0, e.banks[0]? = some b0 ∧ b0.committed = true)
  else ∀ k ∈ e.banks, k.data ≠ []

theorem Endpoint.outBusy_iff {e : Endpoint} : e.outBusy = true ↔ e.OutBusy := by
  unfold Endpoint.outBusy Endpoint.OutBusy
  by_cases hc : e.eptype = 0
  · rw [if_pos (isControl_iff.mpr hc), if_pos hc]
    cases e.banks[0]? <;> simp [or_assoc]
  · rw [if_neg (mt isControl_iff.mp hc), if_neg hc]
    simp

theorem Endpoint.answerOut_stalled {e : Endpoint} (h : e.stallrq = true) (d : List Byte) :
    e.answerOut d = (some .stall, e) := by simp [Endpoint.answerOut, h]

theorem Endpoint.answerOut_oversize {e : Endpoint} {d : List Byte} (h : e.stallrq = false) (hd : e.size < d.length) :
    e.answerOut d = (none, e) := by simp [Endpoint.answerOut, h, hd]

theorem Endpoint.answerOut_busy {e : Endpoint} {d : List Byte} (h : e.stallrq = false) (hd : d.length ≤ e.size)
    (hb : e.OutBusy) : e.answerOut d = (some .nak, e) := by
  simp [Endpoint.answerOut, h, Nat.not_lt.mpr hd, outBusy_iff.mpr hb]

theorem Endpoint.answerOut_free {e : Endpoint} {d : List Byte} (h : e.stallrq = false) (hd : d.length ≤ e.size)
    (hb : ¬e.OutBusy) : e.answerOut d = (some .ack, e.receiveOut d) := by
  simp [Endpoint.answerOut, h, Nat.not_lt.mpr hd, mt outBusy_iff.mp hb]

theorem Endpoint.receiveOut_of {e : Endpoint} {b : Bank} {d : List Byte} (hb : e.banks[e.fill]? = some b) :
    e.receiveOut d = { e with
      banks := e.banks.set e.fill ⟨d, b.committed⟩, rxouti := true, toggle := !e.toggle } := by
  rw [Endpoint.receiveOut, setCurrent_of hb]

/-! ### Tokens that reach no endpoint (R141, R142) -/

theorem tokens_unreceived {s : State} {a : DevAddr} {n : EpNum} (h : receives s a n = none) (d : Packet8)
    (bs : List Byte) : exec (.setup a n d) s = .next s ∧ exec (.inToken a n) s = .next s ∧
      exec (.outToken a n bs) s = .next s := by
  simp [exec, execSetup, execIn, execOut, h]

/-! ### PLL events (R156, R157) -/

theorem pllPending_iff {s : State} :
    pllPending s = true ↔ s.dev.pllEn = true ∧ s.dev.pllLock = false ∧ s.dev.pllFail = false := by
  simp [pllPending, and_assoc]

theorem pllEvents_pending {s : State} (h : pllPending s = true) :
    exec .pllLocked s = .next { s with dev := { s.dev with pllLock := true } } ∧
      exec .pllFail s = .next { s with dev := { s.dev with pllFail := true } } := by
  simp [exec, execPllLocked, execPllFail, h]

theorem pllEvents_not_pending {s : State} (h : ¬pllPending s = true) :
    exec .pllLocked s = .next s ∧ exec .pllFail s = .next s := by
  simp [exec, execPllLocked, execPllFail, h]

/-! ### `TXREADY` (R158) -/

/-- Where `TXREADY` is enabled, in the words of R158. -/
theorem Endpoint.txEnabled_iff {e : Endpoint} : e.txEnabled = true ↔ ∃ b, e.banks[e.fill]? = some b ∧ e.epen = true ∧
    e.cfgok = true ∧ e.txini = false ∧ e.rxstpi = false ∧ b.committed = false ∧
    ((e.eptype = 0 ∧ e.rxouti = false) ∨ (e.eptype ≠ 0 ∧ e.epdir = true)) := by
  have kind : (if e.isControl then !e.rxouti else e.epdir) = true ↔
      (e.eptype = 0 ∧ e.rxouti = false) ∨ (e.eptype ≠ 0 ∧ e.epdir = true) := by
    by_cases hc : e.eptype = 0
    · rw [if_pos (isControl_iff.mpr hc)]; simp [hc]
    · rw [if_neg (mt isControl_iff.mp hc)]; simp only [hc, ne_eq, false_and, not_false_eq_true, true_and, false_or]
  cases hb : e.banks[e.fill]? with
  | none => simp [Endpoint.txEnabled, hb]
  | some b => simp only [Endpoint.txEnabled, hb, Bool.and_eq_true, kind, Bool.not_eq_true', and_assoc,
      Option.some.injEq, exists_eq_left']

theorem Endpoint.txReady_of {e : Endpoint} {b : Bank} (hb : e.banks[e.fill]? = some b) :
    e.txReady = { e with txini := true, banks := e.banks.set e.fill ⟨[], b.committed⟩ } :=
  setCurrent_of (e := { e with txini := true }) hb

theorem execTxready_of_disabled {s : State} {n : EpNum}
    (h : ∀ e, s.eps[n.toNat]? = some e → e.txEnabled ≠ true) : execTxready n s = .next s := by
  cases he : s.eps[n.toNat]? with
  | none => simp [execTxready, he]
  | some e => simp [execTxready, he, h e he]

end Sys2Proof.Machine

namespace Sys2Proof.Proofs

open Sys2Proof.Machine

/-- Settles O37: a non-control endpoint does not take a SETUP; on a control endpoint the two contexts differ in the
fault alone. -/
theorem setupEvent : Obligations.SetupEvent := by
  intro s a n e d hr
  refine ⟨fun hc => ?_, fun hc => ?_⟩
  · simp [exec, execSetup, receives_of hr, Endpoint.isControl_eq_false.mpr hc]
  · have hx := execSetup_of_reaches hr d (Endpoint.isControl_iff.mpr hc)
    rw [Endpoint.receiveSetup_eq] at hx
    exact ⟨fun hs => hx.trans (by rw [if_neg hs]; rfl), fun hs => hx.trans (by rw [if_pos hs]; rfl)⟩

/-- Settles O38, answer by answer: STALL and NAK leave the endpoint, so the state changes in its history alone. -/
theorem inEvent : Obligations.InEvent := by
  intro s a n e hr
  have same := setEp_self hr.exists_
  refine ⟨fun hc hd => ?_, fun htakes => ?_⟩
  · have hno : e.takesIn = false := by simp [Endpoint.takesIn, Endpoint.isControl_eq_false.mpr hc, hd]
    simp [exec, execIn, receives_of hr, hno]
  have hx := execIn_of_reaches hr (Endpoint.takesIn_iff.mpr htakes)
  refine ⟨fun hst => ?_, fun hst => ⟨fun d hb => ?_, fun hb => ?_⟩⟩
  · rw [Endpoint.answerIn_stalled hst, same] at hx
    exact hx
  · rw [Endpoint.answerIn_committed hst hb, Endpoint.sendBank_of hb] at hx
    exact hx
  · rw [Endpoint.answerIn_none_committed hst hb, same] at hx
    exact hx

/-- Settles O39, answer by answer; only an ACK changes the endpoint. -/
theorem outEvent : Obligations.OutEvent := by
  intro s a n e b d hr hb
  have same := setEp_self hr.exists_
  refine ⟨fun hc hd => ?_, fun htakes => ?_⟩
  · have hno : e.takesOut = false := by simp [Endpoint.takesOut, Endpoint.isControl_eq_false.mpr hc, hd]
    simp [exec, execOut, receives_of hr, hno]
  have answered {x : Answer} {e' : Endpoint} (ha : e.answerOut d = (some x, e')) :
      exec (.outToken a n d) s = .next (sees x (setEp n e' s)) :=
    execOut_of_reaches hr (Endpoint.takesOut_iff.mpr htakes) ha
  refine ⟨fun hst => ?_, fun hst hlen => ?_, fun hst hlen hbusy => ?_, fun hst hlen hfree => ?_⟩
  · rw [answered (Endpoint.answerOut_stalled hst d), same]; rfl
  · exact execOut_unanswered hr (Endpoint.answerOut_oversize hst hlen)
  · rw [answered (Endpoint.answerOut_busy hst hlen hbusy), same]; rfl
  · rw [answered (Endpoint.answerOut_free hst hlen hfree), Endpoint.receiveOut_of hb]; rfl

/-- Settles O40. -/
theorem unreceivedToken : Obligations.UnreceivedToken := fun _ _ _ d bs h => tokens_unreceived (receives_none h) d bs

/-- Settles O41; a PLL failure ends the wait for the lock. -/
theorem busSignals : Obligations.BusSignals := by
  intro s
  refine ⟨fun hd => ?_, fun hen hlock hfail => ?_, fun hfail => ?_⟩
  · exact ⟨by simp only [exec, execBusReset, hd]; rfl, by simp [exec, execSof, hd]⟩
  · exact pllEvents_pending (pllPending_iff.mpr ⟨hen, hlock, hfail⟩)
  · exact (pllEvents_not_pending fun h => by simp [(pllPending_iff.mp h).2.2] at hfail).1

/-- Settles O42: the hypotheses are R158's condition, and the effect writes the current bank. -/
theorem txreadyStep : Obligations.TxreadyStep := by
  intro s n e d hn hen hcfg htx hrx hb hkind
  have hon : e.txEnabled = true := Endpoint.txEnabled_iff.mpr ⟨_, hb, hen, hcfg, htx, hrx, rfl, hkind⟩
  exact (execTxready_of_enabled hn hon).trans (by rw [Endpoint.txReady_of hb]; rfl)

/-- Settles O43: detached, no endpoint receives; the two other conditions are the guards of the events. -/
theorem notEnabledEvents : Obligations.NotEnabledEvents := by
  intro s a n d bs
  refine ⟨fun hd => ?_, fun hp => ?_, fun hno => ?_⟩
  · obtain ⟨hsetup, hin, hout⟩ := tokens_unreceived (s := s) (a := a) (n := n) (by simp [receives, hd]) d bs
    exact ⟨hsetup, hin, hout, by simp [exec, execBusReset, hd], by simp [exec, execSof, hd]⟩
  · exact pllEvents_not_pending (mt pllPending_iff.mp hp)
  · refine execTxready_of_disabled fun e he hon => hno ?_
    obtain ⟨b, hb, rest⟩ := Endpoint.txEnabled_iff.mp hon
    obtain ⟨hen, hcfg, htx, hrx, hcom, hkind⟩ := rest
    exact ⟨e, b, he, hb, hen, hcfg, htx, hrx, hcom, hkind⟩

end Sys2Proof.Proofs

/-! SUPPORT. Who sets `TXINI` (40_bus_transactions.md R158): no register operation, no microstate and no event but
`TXREADY`. -/

namespace Sys2Proof.Machine

/-- Every endpoint with `TXINI` = 1 had it before. -/
def NoNewTxini (s t : State) : Prop :=
  ∀ (n : Nat) (f : Endpoint), t.eps[n]? = some f → f.txini = true → ∃ e, s.eps[n]? = some e ∧ e.txini = true

theorem NoNewTxini.of_eps {s t : State} (h : t.eps = s.eps) : NoNewTxini s t := fun _ f hf hx => ⟨f, h ▸ hf, hx⟩

theorem NoNewTxini.set {s t : State} {m : Nat} {e f : Endpoint} (he : s.eps[m]? = some e) (ht : t.eps = s.eps.set m f)
    (hf : f.txini = true → e.txini = true) : NoNewTxini s t := by
  intro n g hg hx
  rw [ht] at hg
  by_cases hn : m = n
  · subst hn
    rw [List.getElem?_set_self (List.getElem?_eq_some_iff.mp he).1] at hg
    cases hg
    exact ⟨e, he, hf hx⟩
  · rw [List.getElem?_set_ne hn] at hg
    exact ⟨g, hg, hx⟩

/-! ### Endpoint operations -/

theorem release_txini (v : Byte) (e : Endpoint) : ((e.releaseSetup v).releaseOut v).txini = e.txini := by
  unfold Endpoint.releaseOut Endpoint.releaseSetup
  split <;> split <;> rfl

theorem commit_txini (e : Endpoint) : e.commit.txini = e.txini := by
  unfold Endpoint.commit; split <;> rfl

/-- `WR EPINT` clears `TXINI` or leaves it (R203). -/
theorem writeInt_txini {v : Byte} {e f : Endpoint} (h : e.writeInt v = .ok f) (hf : f.txini = true) :
    e.txini = true := by
  unfold Endpoint.writeInt at h
  dsimp only at h
  split at h
  · split at h
    · cases h; cases hf
    · split at h
      · cases h
      · cases h; rw [commit_txini] at hf; cases hf
  · cases h; rwa [release_txini] at hf

theorem writeCtl_txini {v : Byte} {e : Endpoint} (hf : (e.writeCtl v).txini = true) : e.txini = true := by
  unfold Endpoint.writeCtl at hf
  split at hf
  · exact hf
  · cases hf

theorem writeCfg0_txini {v : Byte} {e : Endpoint} (hf : (e.writeCfg0 v).txini = true) : e.txini = true := by
  unfold Endpoint.writeCfg0 at hf
  cases ha : e.alloc <;> rw [ha] at hf
  · exact hf
  · cases hf

theorem writeCfg1_txini {v : Byte} {e : Endpoint} (hf : (e.writeCfg1 v).txini = true) : e.txini = true := by
  by_cases hc : bitOf v 1 = true ∧ e.epen = true ∧ epsizeOf v ≤ 3 ∧ epbkOf v ≤ 1
  · obtain ⟨halloc, hen, hsize, hbk⟩ := hc
    rw [writeCfg1_of_legal halloc hen hsize hbk] at hf
    cases hf
  · rw [writeCfg1_of_illegal hc] at hf
    exact hf

theorem answerIn_txini (e : Endpoint) : e.answerIn.2.txini = e.txini := by
  unfold Endpoint.answerIn
  split
  · rfl
  · split
    · split <;> rfl
    · rfl

theorem answerOut_txini (d : List Byte) (e : Endpoint) : (e.answerOut d).2.txini = e.txini := by
  unfold Endpoint.answerOut
  split
  · rfl
  · split
    · rfl
    · split <;> rfl

theorem resetToggle_txini (b : Bool) (e : Endpoint) : (e.resetToggle b).txini = e.txini := by
  unfold Endpoint.resetToggle; split <;> rfl

/-! ### Register operations -/

/-- The operation sets no `TXINI` where it succeeds; where it raises a fault it has no effect. -/
def SetsNoTxini (s : State) (r : OpResult) : Prop := ∀ u, r = .ok u → NoNewTxini s u

theorem returns_setsNoTxini (v : Byte) (s : State) : SetsNoTxini s (.ok (returns v s)) := by
  intro t ht; cases ht; exact .of_eps rfl

theorem dev_setsNoTxini (d : DevRegs) (s : State) : SetsNoTxini s (.ok { s with dev := d }) := by
  intro t ht; cases ht; exact .of_eps rfl

theorem onSelected_setsNoTxini {f : Endpoint → Except FaultKind Endpoint} (s : State)
    (hf : ∀ e e', f e = .ok e' → e'.txini = true → e.txini = true) : SetsNoTxini s (onSelected f s) := by
  intro u hu
  rcases onSelected_cases (f := f) (s := s) with ⟨_, h⟩ | ⟨_, _, _, _, h⟩ | ⟨e, e', hs, he, h⟩ <;> rw [h] at hu
  · cases hu
  · cases hu
  · cases hu; exact .set hs rfl (hf e e' he)

theorem readSelected_setsNoTxini (f : Endpoint → Byte) (s : State) : SetsNoTxini s (readSelected f s) := by
  cases hs : s.selected with
  | none => rw [readSelected_none hs]; intro u hu; cases hu
  | some e => rw [readSelected_ok hs]; exact returns_setsNoTxini _ s

theorem wrEpctl_setsNoTxini (v : Byte) (s : State) : SetsNoTxini s (wrEpctl v s) :=
  onSelected_setsNoTxini s fun _ _ he hf => by cases he; exact writeCtl_txini hf

theorem wrEpcfg0_setsNoTxini (v : Byte) (s : State) : SetsNoTxini s (wrEpcfg0 v s) :=
  onSelected_setsNoTxini s fun _ _ he hf => by cases he; exact writeCfg0_txini hf

theorem wrEpcfg1_setsNoTxini (v : Byte) (s : State) : SetsNoTxini s (wrEpcfg1 v s) :=
  onSelected_setsNoTxini s fun _ _ he hf => by cases he; exact writeCfg1_txini hf

theorem wrEpinten_setsNoTxini (v : Byte) (s : State) : SetsNoTxini s (wrEpinten v s) :=
  onSelected_setsNoTxini s fun _ _ he hf => by cases he; exact hf

theorem wrEpint_setsNoTxini (v : Byte) (s : State) : SetsNoTxini s (wrEpint v s) :=
  onSelected_setsNoTxini s fun _ _ => writeInt_txini

theorem wrEpdata_setsNoTxini (b : Byte) (s : State) : SetsNoTxini s (wrEpdata b s) :=
  onSelected_setsNoTxini s fun _ _ he hf => by obtain ⟨-, -, -, -, -, rfl⟩ := pushData_ok he; exact hf

theorem rdEpdata_setsNoTxini (s : State) : SetsNoTxini s (rdEpdata s) := by
  intro u hu
  cases hs : s.selected with
  | none => simp [rdEpdata_none hs] at hu
  | some e =>
    cases hp : e.popData with
    | error k => simp [rdEpdata_error hs hp] at hu
    | ok r =>
      obtain ⟨b, e'⟩ := r
      rw [rdEpdata_ok hs hp] at hu; cases hu
      obtain ⟨-, -, d, -, rfl⟩ := popData_ok hp
      exact .set (f := e.setCurrent d) hs rfl id

theorem wrEptogrst_setsNoTxini (v : Byte) (s : State) : SetsNoTxini s (wrEptogrst v s) := by
  intro u hu n f hf hx
  cases hu
  simp only [List.getElem?_mapIdx, Option.map_eq_some_iff] at hf
  obtain ⟨e, he, rfl⟩ := hf
  exact ⟨e, he, by rwa [resetToggle_txini] at hx⟩

/-! ### The engine -/

/-- A register operation, then a move of the engine that leaves the endpoints. -/
theorem finish_noNewTxini {s t : State} {r : OpResult} {g : State → State} (h : finish s (r.map g) = .next t)
    (hr : SetsNoTxini s r) (hg : ∀ u, (g u).eps = u.eps) : NoNewTxini s t := by
  rcases finish_next h with h | ⟨k, -, rfl⟩
  · obtain ⟨u, hu, rfl⟩ := map_ok_iff.mp h
    intro n f hf
    rw [hg u] at hf
    exact hr u hu n f hf
  · exact .of_eps rfl

theorem waitReady_noNewTxini {s t : State} {g : State → State} (h : waitReady s g = .next t)
    (hg : ∀ u, (g u).eps = u.eps) : NoNewTxini s t := by
  unfold waitReady at h
  split at h
  · exact finish_noNewTxini h (readSelected_setsNoTxini _ s) hg
  · cases h; exact .of_eps rfl

theorem microstep_noNewTxini {q : SetupLatch} {s t : State} (h : microstep q s = .next t) : NoNewTxini s t := by
  have goes (q : Seq) : ∀ u, (goto q u).eps = u.eps := goto_eps q
  cases hs : s.seq <;> simp only [microstep, hs, brClrStep, sSelStep] at h
  case idle | halted | brState | sDispatch | saSet | gcLoad | gsLoad | ret => cases h; exact .of_eps rfl
  case gdLookup => unfold gdLookupStep at h; split at h <;> (cases h; exact .of_eps rfl)
  case initLock =>
    unfold initLockStep at h
    split at h
    · cases h; exact .of_eps rfl
    · split at h
      · exact finish_noNewTxini h (returns_setsNoTxini _ s) (goes _)
      · cases h; exact .of_eps rfl
  case initPll | initCfgSel | initIen | brClr | brCfgSel | sSel | scCfgSel =>
    exact finish_noNewTxini h (dev_setsNoTxini _ s) (goes _)
  case initAttach | sofClr => exact finish_noNewTxini h (dev_setsNoTxini _ s) returnIdle_eps
  case saApply => exact finish_noNewTxini h (dev_setsNoTxini _ s) applyAddress_eps
  case scStore => exact finish_noNewTxini h (returns_setsNoTxini _ s) fun _ => rfl
  case initCfgEn | brCfgEn | scCfgEn | stall => exact finish_noNewTxini h (wrEpctl_setsNoTxini _ s) (goes _)
  case initCfgType | brCfgType | scCfgType => exact finish_noNewTxini h (wrEpcfg0_setsNoTxini _ s) (goes _)
  case initCfgAlloc | brCfgAlloc | scCfgAlloc => exact finish_noNewTxini h (wrEpcfg1_setsNoTxini _ s) (goes _)
  case initCfgIen | brCfgIen | scCfgIen => exact finish_noNewTxini h (wrEpinten_setsNoTxini _ s) (goes _)
  case sAck | saZc | scZc => exact finish_noNewTxini h (wrEpint_setsNoTxini _ s) (goes _)
  case strCommit => exact finish_noNewTxini h (wrEpint_setsNoTxini _ s) fun _ => rfl
  case scTog => exact finish_noNewTxini h (wrEptogrst_setsNoTxini _ s) (goes _)
  case sRd k => exact finish_noNewTxini h (rdEpdata_setsNoTxini s) (storeRead_eps k)
  case strWrite =>
    unfold strWriteStep at h
    split at h
    · exact finish_noNewTxini h (wrEpdata_setsNoTxini _ s) fun _ => rfl
    · cases h
  case saZw | saWait | scZw => exact waitReady_noNewTxini h (goes _)
  case strWait => exact waitReady_noNewTxini h startPacket_eps

theorem engineStep_noNewTxini {s t : State} (h : engineStep s = .next t) : NoNewTxini s t := by
  unfold engineStep at h
  split at h
  · cases h; exact .of_eps rfl
  · rcases handlerEntry_cases h with rfl | ⟨d, ht, -⟩
    · exact .of_eps rfl
    · exact .of_eps (by rw [ht])
  all_goals exact microstep_noNewTxini h

theorem requestStep_noNewTxini {f : Seq} {q : SetupLatch} {s t : State} (h : requestStep f q s = .next t) :
    NoNewTxini s t := by
  rcases requestStep_cases h with ⟨-, rfl⟩ | ⟨-, -, rfl⟩ | ⟨-, -, hm⟩
  · exact .of_eps rfl
  · exact .of_eps rfl
  · exact microstep_noNewTxini hm

/-! ### Instructions -/

theorem engineOp_noNewTxini {op : State → OpResult} {s t : State} (h : engineOp op s = .next t)
    (ho : SetsNoTxini s (op s)) : NoNewTxini s t := by
  rcases engineOp_next h with ⟨-, rfl⟩ | ⟨-, hu⟩ | ⟨-, k, -, rfl⟩
  · exact .of_eps rfl
  · exact ho t hu
  · exact .of_eps rfl

theorem execSetup_noNewTxini {a : DevAddr} {n : EpNum} {d : Packet8} {s t : State} (h : execSetup a n d s = .next t) :
    NoNewTxini s t := by
  unfold execSetup at h
  split at h
  · cases h; exact .of_eps rfl
  · next e hr =>
    split at h
    · cases h
      refine .set (f := e.receiveSetup d) (receives_some hr).1 ?_ id
      split <;> rfl
    · cases h; exact .of_eps rfl

theorem execIn_noNewTxini {a : DevAddr} {n : EpNum} {s t : State} (h : execIn a n s = .next t) : NoNewTxini s t := by
  unfold execIn at h
  split at h
  · cases h; exact .of_eps rfl
  · next e hr =>
    split at h
    · cases h; exact .set (receives_some hr).1 rfl (answerIn_txini e ▸ id)
    · cases h; exact .of_eps rfl

theorem execOut_noNewTxini {a : DevAddr} {n : EpNum} {d : List Byte} {s t : State} (h : execOut a n d s = .next t) :
    NoNewTxini s t := by
  unfold execOut at h
  split at h
  · cases h; exact .of_eps rfl
  · next e hr =>
    split at h
    · split at h
      · cases h; exact .of_eps rfl
      · next x e' ha =>
        have hx := answerOut_txini d e
        rw [ha] at hx
        cases h; exact .set (receives_some hr).1 rfl (hx ▸ id)
    · cases h; exact .of_eps rfl

theorem execBusReset_noNewTxini {s t : State} (h : execBusReset s = .next t) : NoNewTxini s t := by
  unfold execBusReset at h
  split at h
  · cases h; exact .of_eps rfl
  · cases h
    intro n f hf hx
    simp only [List.getElem?_map, Option.map_eq_some_iff] at hf
    obtain ⟨e, -, rfl⟩ := hf
    cases hx

/-- An event that writes only device-level registers. -/
theorem devEvent_noNewTxini {c : Prop} [Decidable c] {d d' : DevRegs} {s t : State}
    (h : (if c then .next { s with dev := d } else .next { s with dev := d' } : Result) = .next t) :
    NoNewTxini s t := by
  split at h <;> (cases h; exact .of_eps rfl)

theorem exec_noNewTxini {i : Instr} {s t : State} (hi : ∀ m, i ≠ .txready m) (h : exec i s = .next t) :
    NoNewTxini s t := by
  cases i with
  | getDescriptor | setAddress | setConfiguration | getConfiguration | getStatus | stallOther =>
    exact requestStep_noNewTxini h
  | setup => exact execSetup_noNewTxini h
  | inToken => exact execIn_noNewTxini h
  | outToken => exact execOut_noNewTxini h
  | busReset => exact execBusReset_noNewTxini h
  | sof | pllLocked | pllFail => exact devEvent_noNewTxini h
  | txready m => exact absurd rfl (hi m)
  | statusRead | rdEngstatus => cases h; exact .of_eps rfl
  | rdPllctl | rdDevctl | rdDevint | rdDevinten | rdDevaddr | rdEptogrst | rdEpsel =>
    exact engineOp_noNewTxini h (returns_setsNoTxini _ s)
  | wrPllctl | wrDevctl | wrDevint | wrDevinten | wrDevaddr | wrEpsel =>
    exact engineOp_noNewTxini h (dev_setsNoTxini _ s)
  | rdEpctl | rdEpcfg0 | rdEpcfg1 | rdEpsta | rdEpint | rdEpinten | rdEpbcnt =>
    exact engineOp_noNewTxini h (readSelected_setsNoTxini _ s)
  | wrEptogrst v => exact engineOp_noNewTxini h (wrEptogrst_setsNoTxini v s)
  | wrEpctl v => exact engineOp_noNewTxini h (wrEpctl_setsNoTxini v s)
  | wrEpcfg0 v => exact engineOp_noNewTxini h (wrEpcfg0_setsNoTxini v s)
  | wrEpcfg1 v => exact engineOp_noNewTxini h (wrEpcfg1_setsNoTxini v s)
  | wrEpint v => exact engineOp_noNewTxini h (wrEpint_setsNoTxini v s)
  | wrEpinten v => exact engineOp_noNewTxini h (wrEpinten_setsNoTxini v s)
  | rdEpdata => exact engineOp_noNewTxini h (rdEpdata_setsNoTxini s)
  | wrEpdata v => exact engineOp_noNewTxini h (wrEpdata_setsNoTxini v s)
  | wrEpsta | wrEpbcnt | wrEngstatus | otherRegOp =>
    exact engineOp_noNewTxini (op := badRegister) h fun _ hu => by cases hu

/-- `TXREADY` of one endpoint leaves every other as it is. -/
theorem execTxready_other {m : EpNum} {n : Nat} {s t : State} (h : execTxready m s = .next t) (hn : m.toNat ≠ n) :
    t.eps[n]? = s.eps[n]? := by
  unfold execTxready at h
  split at h
  · cases h; rfl
  · split at h
    · cases h; exact List.getElem?_set_ne hn
    · cases h; rfl

/-- A step sets no `TXINI`, or is a `TXREADY`, which leaves every endpoint but its own. -/
theorem step_txini {s t : State} (h : step s = .next t) :
    NoNewTxini s t ∨ ∃ m u, nextAction s = .run (.txready m) u ∧ ∀ n : Nat, m.toNat ≠ n → t.eps[n]? = s.eps[n]? := by
  rcases step_cases h with ⟨i, ha, hx⟩ | ⟨-, hx⟩ | ⟨-, rfl⟩
  · by_cases hi : ∃ m, i = .txready m
    · obtain ⟨m, rfl⟩ := hi
      have hother {n : Nat} := execTxready_other (n := n) hx
      exact .inr ⟨m, _, ha, fun _ => hother⟩
    · have hno := exec_noNewTxini (fun m hm => hi ⟨m, hm⟩) hx
      exact .inl hno
  · have hno := engineStep_noNewTxini hx
    exact .inl hno
  · exact .inl (.of_eps rfl)

end Sys2Proof.Machine

namespace Sys2Proof.Proofs

open Sys2Proof.Machine

/-- Settles O19: any step but a `TXREADY` sets no `TXINI`, and a `TXREADY` only its own endpoint's. -/
theorem onlyTxreadySetsTxini : Obligations.OnlyTxreadySetsTxini := by
  intro s t n e e' h he he' h0 h1
  have old : s.eps[n]? ≠ some e' := by
    rw [he]; rintro ⟨⟩; rw [h0] at h1; cases h1
  rcases step_txini h with hno | ⟨m, u, ha, hother⟩
  · obtain ⟨f, hf, hx⟩ := hno n e' he' h1
    rw [he] at hf; cases hf
    rw [h0] at hx; cases hx
  · refine ⟨m, u, ha, ?_⟩
    by_contra hn
    exact old (hother n hn ▸ he')

end Sys2Proof.Proofs

/-! SUPPORT. The register interface (41_register_interface.md): what a read returns as a number, what each write does to
the selected endpoint, and the faults each operation raises in the order its rule tests them. -/

namespace Sys2Proof.Machine

/-! ### The steps of a register operation -/

theorem engineOp_returns {op : State → OpResult} {s : State} {v : Byte} {n : Nat} (h : s.ctx ≠ .halted)
    (ho : op s = .ok (returns v s)) (hv : v.toNat = n) :
    engineOp op s = .next { s with rdData := BitVec.ofNat 32 n } := by
  rw [engineOp_ok h ho, returns, word_of_toNat hv]

theorem engineOp_read {f : Endpoint → Byte} {s : State} {e : Endpoint} {n : Nat} (h : s.ctx ≠ .halted)
    (hs : s.selected = some e) (hv : (f e).toNat = n) :
    engineOp (readSelected f) s = .next { s with rdData := BitVec.ofNat 32 n } :=
  engineOp_returns h (readSelected_ok hs) hv

theorem engineOp_write {f : Endpoint → Except FaultKind Endpoint} {s : State} {e e' : Endpoint} (h : s.ctx ≠ .halted)
    (hs : s.selected = some e) (hf : f e = .ok e') : engineOp (onSelected f) s = .next (s.withSelected e') :=
  engineOp_ok h (onSelected_ok hs hf)

theorem engineOp_write_fault {f : Endpoint → Except FaultKind Endpoint} {s : State} {e : Endpoint} {k : FaultKind}
    (h : s.ctx ≠ .halted) (hs : s.selected = some e) (hf : f e = .error k) :
    engineOp (onSelected f) s = .next (raise k s) :=
  engineOp_error h (onSelected_error hs hf)

/-- R211: these three writes are illegal, and no endpoint selection is tested before. -/
theorem exec_readOnly {i : Instr} {s : State} (h : s.ctx ≠ .halted)
    (hi : i = .wrEpsta ∨ i = .wrEpbcnt ∨ i = .wrEngstatus) :
    exec i s = .next (raise .badRegister s) := by
  rcases hi with rfl | rfl | rfl <;> exact engineOp_error h rfl

/-! ### The registers as numbers -/

theorem bits8_toNat (b7 b6 b5 b4 b3 b2 b1 b0 : Bool) : (bits8 b7 b6 b5 b4 b3 b2 b1 b0).toNat =
    128 * b7.toNat + 64 * b6.toNat + 32 * b5.toNat + 16 * b4.toNat + 8 * b3.toNat + 4 * b2.toNat + 2 * b1.toNat
      + b0.toNat := by
  revert b7 b6 b5 b4 b3 b2 b1 b0; decide

theorem pllctl_toNat (d : DevRegs) : d.pllctl.toNat = 4 * d.pllFail.toNat + 2 * d.pllLock.toNat + d.pllEn.toNat := by
  simp [DevRegs.pllctl, bits8_toNat]

theorem devctl_toNat (d : DevRegs) : d.devctl.toNat = d.detach.toNat := by
  simp [DevRegs.devctl, bits8_toNat]

theorem devint_toNat (d : DevRegs) : d.devint.toNat = 2 * d.eorsti.toNat + d.sofi.toNat := by
  simp [DevRegs.devint, bits8_toNat]

theorem devinten_toNat (d : DevRegs) : d.devinten.toNat = 2 * d.eorste.toNat + d.sofe.toNat := by
  simp [DevRegs.devinten, bits8_toNat]

theorem epctl_toNat (e : Endpoint) : e.epctl.toNat = 2 * e.stallrq.toNat + e.epen.toNat := by
  simp [Endpoint.epctl, bits8_toNat]

theorem epsta_toNat (e : Endpoint) : e.epsta.toNat = 128 * e.cfgok.toNat := by
  simp [Endpoint.epsta, bits8_toNat]

theorem epint_toNat (e : Endpoint) : e.epint.toNat = 8 * e.rxstpi.toNat + 4 * e.rxouti.toNat + e.txini.toNat := by
  simp [Endpoint.epint, bits8_toNat]

theorem epinten_toNat (e : Endpoint) : e.epinten.toNat = 8 * e.rxstpe.toNat + 4 * e.rxoute.toNat + e.txine.toNat := by
  simp [Endpoint.epinten, bits8_toNat]

theorem epbcnt_of_released {e : Endpoint} (h : e.cfgok = false) : e.epbcnt.toNat = 0 := by
  simp [Endpoint.epbcnt, h]

theorem epbcnt_of_bank {e : Endpoint} {b : Bank} (h : e.cfgok = true) (hb : e.banks[e.fill]? = some b)
    (hl : b.data.length < 256) : e.epbcnt.toNat = b.data.length := by
  simp [Endpoint.epbcnt, h, current_of hb, Nat.mod_eq_of_lt hl]

/-- R45, with the two flags as the conditions they stand for. -/
theorem engstatus_eq (s : State) : engstatus s = BitVec.ofNat 32
    (s.enum.devState.code.toNat + 256 * s.enum.assignedAddr.toNat + 65536 * s.enum.configValue.toNat
      + 2 ^ 24 * (decide (s.ctx = .halted)).toNat + 2 ^ 25 * (decide (s.faults ≠ [])).toNat) := by
  have hhalted : (s.ctx == .halted) = decide (s.ctx = .halted) := rfl
  have hfault : (!s.faults.isEmpty) = decide (s.faults ≠ []) := by cases s.faults <;> rfl
  rw [← hhalted, ← hfault, ← engstatus_toNat, BitVec.ofNat_toNat, BitVec.setWidth_eq]

/-! ### Writes of the endpoint registers -/

/-- R196, `EPEN` written 0. -/
theorem writeCtl_of_disable {e : Endpoint} {v : Byte} (h : bitOf v 0 = false) : e.writeCtl v = e.deactivate := by
  simp [Endpoint.writeCtl, h]

/-- R196, `EPEN` written 1. -/
theorem writeCtl_of_enable {e : Endpoint} {v : Byte} (h : bitOf v 0 = true) :
    e.writeCtl v = { e with epen := true, stallrq := if bitOf v 1 then true else e.stallrq } := by
  cases h1 : bitOf v 1 <;> simp [Endpoint.writeCtl, h, h1]

/-- R198 under an allocation. -/
theorem writeCfg0_of_alloc {e : Endpoint} {v : Byte} (h : e.alloc = true) : e.writeCfg0 v = { e with
    alloc := false, cfgok := false, banks := [], fill := 0, send := 0, txini := false, rxouti := false,
    rxstpi := false, eptype := eptypeOf v, epdir := bitOf v 0 } := by
  rw [Endpoint.writeCfg0, if_pos h]; rfl

/-- R198 without an allocation. -/
theorem writeCfg0_of_unallocated {e : Endpoint} {v : Byte} (h : e.alloc = false) :
    e.writeCfg0 v = { e with eptype := eptypeOf v, epdir := bitOf v 0 } := by
  simp [Endpoint.writeCfg0, h]

theorem resetToggle_eq (e : Endpoint) (selected : Bool) : e.resetToggle selected =
    if selected = true ∧ e.eptype ≠ 0 then { e with toggle := false } else e := by
  simp [Endpoint.resetToggle, Endpoint.isControl_eq_false]

/-- R203's conflict in the words of the rule. -/
theorem writeConflicts_iff {e : Endpoint} {v : Byte} : e.writeConflicts v = true ↔
    bitOf v 0 = false ∧ e.txini = true ∧ e.rxstpi = false ∧ e.eptype = 0 ∧ e.rxouti = true ∧ bitOf v 2 = true := by
  simp [Endpoint.writeConflicts, Endpoint.isControl_iff, and_assoc]

/-! ### `EPDATA`: the tests of R207 and R208 in their order -/

theorem popData_noBank {e : Endpoint} (h : e.cfgok = false) : e.popData = .error .noBank := by
  simp [Endpoint.popData, h]

theorem popData_notOwned {e : Endpoint} (h : e.cfgok = true) (hs : e.rxstpi = false) (ho : e.rxouti = false) :
    e.popData = .error .fifoNotOwned := by
  simp [Endpoint.popData, h, hs, ho]

theorem popData_underrun {e : Endpoint} (h : e.cfgok = true) (hr : e.rxstpi = true ∨ e.rxouti = true)
    (hd : e.current = []) : e.popData = .error .fifoUnderrun := by
  rcases hr with hr | hr <;> simp [Endpoint.popData, h, hr, hd]

theorem popData_of_cons {e : Endpoint} {x : Byte} {d : List Byte} (h : e.cfgok = true)
    (hr : e.rxstpi = true ∨ e.rxouti = true) (hd : e.current = x :: d) : e.popData = .ok (x, e.setCurrent d) := by
  rcases hr with hr | hr <;> simp [Endpoint.popData, h, hr, hd]

theorem pushData_noBank {e : Endpoint} {x : Byte} (h : e.cfgok = false) : e.pushData x = .error .noBank := by
  simp [Endpoint.pushData, h]

theorem pushData_conflict {e : Endpoint} {x : Byte} (h : e.cfgok = true)
    (hr : e.rxstpi = true ∨ (e.eptype = 0 ∧ e.rxouti = true)) : e.pushData x = .error .fifoConflict := by
  rcases hr with hs | ⟨hc, ho⟩
  · simp [Endpoint.pushData, h, hs]
  · simp [Endpoint.pushData, h, Endpoint.isControl_iff.mpr hc, ho]

theorem pushData_unread {e : Endpoint} {x : Byte} (h : e.cfgok = true) (hs : e.rxstpi = false)
    (ho : ¬(e.eptype = 0 ∧ e.rxouti = true)) : e.pushData x =
      if !e.txini then .error .fifoNotOwned
      else if e.current.length = e.size then .error .fifoOverflow
      else .ok (e.setCurrent (e.current ++ [x])) := by
  have hfree : ¬(e.isControl && e.rxouti) = true := by
    rwa [Bool.and_eq_true, Endpoint.isControl_iff]
  rw [Endpoint.pushData, h, hs, if_neg (by simp), if_neg (by simp), if_neg hfree]

end Sys2Proof.Machine

namespace Sys2Proof.Proofs

open Sys2Proof.Machine

/-- Settles O27: each of these accesses raises `BAD_REGISTER`, and what raising changes is R372's. -/
theorem badRegisterAccesses : Obligations.BadRegisterAccesses := by
  intro s i lo rest hs hi
  have unlisted (access : Byte) := fun hgap => (illegalWordsRaiseBadRegister lo access rest s hs).1 (.inr hgap)
  have raises : exec i s = .next (raise .badRegister s) := by
    rcases hi with ⟨hi | hi, -⟩ | hi | ⟨hgap, hd | hd⟩
    · exact exec_readOnly hs (.inl hi)
    · exact exec_readOnly hs (.inr (.inl hi))
    · exact exec_readOnly hs (.inr (.inr hi))
    · obtain ⟨hother, hx⟩ := unlisted 0x00 hgap
      cases hd.symm.trans hother; exact hx
    · obtain ⟨hother, hx⟩ := unlisted 0x80 hgap
      cases hd.symm.trans hother; exact hx
  exact ⟨_, raises, rfl, fun k => mem_insertFault⟩

/-- Settles O33: the conflict of the statement is `writeConflicts`, and apart from it the write is one update. -/
theorem epintWrite : Obligations.EpintWrite := by
  intro s e b v hs hsel hb
  exact ⟨fun hc => engineOp_write_fault hs hsel (writeInt_conflict hc),
    fun hc => engineOp_write hs hsel (writeInt_of_bank hb hc)⟩

/-- Settles O34: without banks there is no current bank. -/
theorem epintWriteNoBank : Obligations.EpintWriteNoBank := by
  intro s e v hs hsel hb hno
  have hc : e.writeConflicts v = false := Bool.eq_false_iff.mpr fun hc => hno (writeConflicts_iff.mp hc)
  exact engineOp_write hs hsel (writeInt_no_bank (by simp [hb]) hc)

/-- Settles O21: a written 0 in bit 0 drops the lock, a 1 leaves it. -/
theorem pllctlDevctlDevintenOperations : Obligations.PllctlDevctlDevintenOperations := by
  intro s v hs
  refine ⟨?_, engineOp_returns hs rfl (pllctl_toNat s.dev), engineOp_ok hs rfl,
    engineOp_returns hs rfl (devctl_toNat s.dev), engineOp_ok hs rfl, engineOp_returns hs rfl (devinten_toNat s.dev)⟩
  have hlock : (s.dev.pllLock && bitOf v 0) = if v.getLsbD 0 then s.dev.pllLock else false := by
    simp [bitOf, Bool.and_comm]
  rw [← hlock]; exact engineOp_ok hs rfl

/-- Settles O22: a flag survives the write only where its bit is 1. -/
theorem devintOperations : Obligations.DevintOperations := by
  intro s v hs
  have kept (flag : Bool) (n : Nat) : (if v.getLsbD n = false then false else flag) = (flag && bitOf v n) := by
    cases h : v.getLsbD n <;> simp [bitOf, h]
  refine ⟨?_, engineOp_returns hs rfl (devint_toNat s.dev)⟩
  rw [kept, kept]; exact engineOp_ok hs rfl

/-- Settles O23: the active address is a function of the two fields written. -/
theorem devaddrOperations : Obligations.DevaddrOperations := fun s _ hs =>
  ⟨⟨_, engineOp_ok hs rfl, rfl, rfl⟩, engineOp_returns hs rfl (devaddr_toNat s.dev)⟩

/-- Settles O24, endpoint by endpoint. -/
theorem eptogrstOperations : Obligations.EptogrstOperations := by
  intro s v hs
  refine ⟨⟨_, engineOp_ok hs rfl, rfl, List.length_mapIdx, fun n e he => ?_⟩, engineOp_ok hs rfl⟩
  simp only [List.getElem?_mapIdx, he, Option.map_some, resetToggle_eq, bitOf]

/-- Settles O25: the write tests no endpoint number. -/
theorem epselOperations : Obligations.EpselOperations := fun s _ hs =>
  ⟨engineOp_ok hs rfl, engineOp_returns hs rfl (epsel_toNat s.dev)⟩

/-- Settles O26: neither reader asks whether the engine is halted. -/
theorem engstatusReads : Obligations.EngstatusReads := by
  intro s w
  have hw : engstatus s = w := by
    rw [engstatus_eq]; simp only [w]; cases s.enum.devState <;> rfl
  rw [← hw]; exact ⟨rfl, rfl⟩

/-- Settles O28: the operations on the selected endpoint, by kind. -/
theorem noEndpointSelected : Obligations.NoEndpointSelected := by
  intro s v hs hlen
  have hsel : s.selected = none := List.getElem?_eq_none hlen
  have read (f : Endpoint → Byte) : engineOp (readSelected f) s = .next (raise .badEndpoint s) :=
    engineOp_error hs (readSelected_none hsel)
  have write (f : Endpoint → Except FaultKind Endpoint) : engineOp (onSelected f) s = .next (raise .badEndpoint s) :=
    engineOp_error hs (onSelected_none hsel)
  refine ⟨?_, exec_readOnly hs (.inl rfl), exec_readOnly hs (.inr (.inl rfl))⟩
  simp only [List.forall_mem_cons]
  exact ⟨read _, write _, read _, write _, read _, write _, read _, read _, write _, read _, write _,
    engineOp_error hs (rdEpdata_none hsel), write _, read _, fun _ h => nomatch h⟩

/-- Settles O29, by bit 0 of the value written. -/
theorem epctlOperations : Obligations.EpctlOperations := fun _ e _ hs hsel =>
  ⟨fun h => engineOp_write hs hsel (congrArg Except.ok (writeCtl_of_disable h)),
    fun h => engineOp_write hs hsel (congrArg Except.ok (writeCtl_of_enable h)),
    engineOp_read hs hsel (epctl_toNat e)⟩

/-- Settles O30, by `ALLOC`. -/
theorem epcfg0Operations : Obligations.Epcfg0Operations := fun _ e _ hs hsel =>
  ⟨fun h => engineOp_write hs hsel (congrArg Except.ok (writeCfg0_of_alloc h)),
    fun h => engineOp_write hs hsel (congrArg Except.ok (writeCfg0_of_unallocated h)),
    engineOp_read hs hsel (epcfg0_toNat e)⟩

/-- Settles O31: the two branches of R200 are `writeCfg1_of_legal` and `writeCfg1_of_illegal`. -/
theorem epcfg1Operations : Obligations.Epcfg1Operations := by
  intro s e v hs hsel
  refine ⟨fun ⟨ha, he, hsize, hbk⟩ => ⟨_, engineOp_write hs hsel
      (congrArg Except.ok (writeCfg1_of_legal ha he hsize hbk)), rfl, Nat.shiftLeft_eq .., rfl⟩,
    fun h => engineOp_write hs hsel (congrArg Except.ok (writeCfg1_of_illegal h)),
    engineOp_read hs hsel (epcfg1_toNat e)⟩

/-- Settles O32: each read by its register as a number. -/
theorem epstaEpintEpintenEpbcntOperations : Obligations.EpstaEpintEpintenEpbcntOperations := fun _ e _ hs hsel =>
  ⟨engineOp_read hs hsel (epsta_toNat e), engineOp_read hs hsel (epint_toNat e), engineOp_write hs hsel rfl,
    engineOp_read hs hsel (epinten_toNat e), fun h => engineOp_read hs hsel (epbcnt_of_released h),
    fun _ h hb hl => engineOp_read hs hsel (epbcnt_of_bank h hb hl)⟩

/-- Settles O35, test by test. -/
theorem epdataRead : Obligations.EpdataRead := by
  intro s e hs hsel
  refine ⟨fun h => engineOp_error hs (rdEpdata_error hsel (popData_noBank h)),
    fun h hstp hout => engineOp_error hs (rdEpdata_error hsel (popData_notOwned h hstp hout)),
    fun h hr b hb => ⟨fun hd => ?_, fun x d hd => ?_⟩⟩
  · exact engineOp_error hs (rdEpdata_error hsel (popData_underrun h hr ((current_of hb).trans hd)))
  · rw [← setCurrent_of hb]
    exact engineOp_ok hs (rdEpdata_ok hsel (popData_of_cons h hr ((current_of hb).trans hd)))

/-- Settles O36, test by test. -/
theorem epdataWrite : Obligations.EpdataWrite := by
  intro s e x hs hsel
  refine ⟨fun h => engineOp_write_fault hs hsel (pushData_noBank h),
    fun h hr => engineOp_write_fault hs hsel (pushData_conflict h hr),
    fun h hstp hout => ?_⟩
  have hpush := pushData_unread (x := x) h hstp hout
  refine ⟨fun htx => engineOp_write_fault hs hsel (hpush.trans (by simp [htx])), fun htx b hb => ?_⟩
  rw [htx, current_of hb, setCurrent_of hb] at hpush
  exact ⟨fun hl => engineOp_write_fault hs hsel (hpush.trans (by simp [hl])),
    fun hl => engineOp_write hs hsel (hpush.trans (by simp [hl]))⟩

end Sys2Proof.Proofs

/-! SUPPORT. The descriptor ROM as its records one after the other (42_descriptor_rom.md R230 to R235): how long each is,
its bytes, and a read at a record's offset. -/

namespace Sys2Proof.Machine

/-! ### The records' lengths -/

@[simp] theorem deviceDescriptor_length (c : Config) : (deviceDescriptor c).length = 18 := rfl
@[simp] theorem configurationDescriptor_length (c : Config) : (configurationDescriptor c).length = 9 := rfl
@[simp] theorem interfaceDescriptor_length : interfaceDescriptor.length = 9 := rfl
@[simp] theorem hidDescriptor_length (c : Config) : (hidDescriptor c).length = 9 := rfl
@[simp] theorem endpointDescriptor_length (c : Config) : (endpointDescriptor c).length = 7 := rfl
@[simp] theorem reportDescriptor_length : reportDescriptor.length = 63 := rfl

/-- What stands between the interface and the endpoint descriptor: the HID descriptor, if present. -/
def hidPart (c : Config) : List Byte := if c.hidPresent then hidDescriptor c else []

theorem hidPart_of_present {c : Config} (h : c.hidPresent = true) : hidPart c = hidDescriptor c := if_pos h

@[simp] theorem hidPart_length (c : Config) : (hidPart c).length = hidLen c := by
  unfold hidPart hidLen
  split <;> rfl

/-- R237: the two records of nine bytes and the endpoint descriptor's seven, and `H`. -/
theorem wTotalLength_eq (c : Config) : wTotalLength c = 25 + hidLen c := by
  unfold wTotalLength
  omega

/-- R230: the records in order. -/
theorem romImage_eq_records (c : Config) : romImage c = deviceDescriptor c ++ configurationDescriptor c
    ++ interfaceDescriptor ++ hidPart c ++ endpointDescriptor c ++ reportDescriptor := by
  simp [romImage, configurationStream, hidPart]

/-- R230: the ROM's size. -/
theorem romImage_length (c : Config) : (romImage c).length = 106 + hidLen c := by
  simp [romImage_eq_records]
  omega

/-! ### The records' bytes -/

theorem deviceDescriptor_bytes (c : Config) : deviceDescriptor c = [0x12, 0x01, 0x00, 0x02, 0x00, 0x00, 0x00, 0x20,
    loByte c.vid, hiByte c.vid, loByte c.pid, hiByte c.pid, loByte c.bcdDevice, hiByte c.bcdDevice,
    0x00, 0x00, 0x00, 0x01] := rfl

/-- `wTotalLength` fits its low byte, with the HID descriptor or without. -/
theorem configurationDescriptor_bytes (c : Config) : configurationDescriptor c =
    [0x09, 0x02, BitVec.ofNat 8 (25 + hidLen c), 0x00, 0x01, 0x01, 0x00, 0x80, c.maxPower] := by
  cases h : c.hidPresent <;> simp only [configurationDescriptor, wTotalLength, hidLen, h] <;> rfl

theorem hidDescriptor_bytes (c : Config) : hidDescriptor c =
    [0x09, 0x21, loByte c.bcdHid, hiByte c.bcdHid, 0x00, 0x01, 0x22, 0x3F, 0x00] := rfl

theorem endpointDescriptor_bytes (c : Config) : endpointDescriptor c =
    [0x07, 0x05, 0x83, 0x03, 0x08, 0x00, c.kbdInterval] := rfl

/-! ### Reads of the image -/

/-- A read succeeds exactly within the ROM's size. -/
theorem romRead_isSome_iff (s : State) (a : Nat) : (romRead s a).isSome = true ↔ a < 106 + hidLen s.cfg := by
  rw [romRead, Memory.read_isSome, romImage_length, decide_eq_true_iff]

/-- Where the image splits into three parts, a read at the middle part's offset, of its length, gives that part. -/
theorem romReads_of_image {s : State} (hr : s.rom = []) {a n : Nat} {pre part post : List Byte}
    (h : romImage s.cfg = pre ++ part ++ post) (ha : pre.length = a) (hn : part.length = n) :
    romReads s a n = some part := by
  subst ha hn
  induction part generalizing pre with
  | nil => rfl
  | cons b bs ih =>
    have first : romRead s pre.length = some b := by simp [romRead, hr, h]
    have others : romReads s (pre.length + 1) bs.length = some bs := by
      simpa using ih (pre := pre ++ [b]) (by simp [h])
    simp [romReads, first, others]

section
variable {s : State} (hr : s.rom = [])
include hr

theorem romReads_device : romReads s 0 18 = some (deviceDescriptor s.cfg) :=
  romReads_of_image hr (pre := [])
    (post := configurationDescriptor s.cfg ++ interfaceDescriptor ++ hidPart s.cfg ++ endpointDescriptor s.cfg
      ++ reportDescriptor)
    (by simp [romImage_eq_records]) rfl rfl

theorem romReads_configuration : romReads s 18 9 = some (configurationDescriptor s.cfg) :=
  romReads_of_image hr (pre := deviceDescriptor s.cfg)
    (post := interfaceDescriptor ++ hidPart s.cfg ++ endpointDescriptor s.cfg ++ reportDescriptor)
    (by simp [romImage_eq_records]) rfl rfl

theorem romReads_interface : romReads s 27 9 = some interfaceDescriptor :=
  romReads_of_image hr (pre := deviceDescriptor s.cfg ++ configurationDescriptor s.cfg)
    (post := hidPart s.cfg ++ endpointDescriptor s.cfg ++ reportDescriptor)
    (by simp [romImage_eq_records]) rfl rfl

theorem romReads_hid (h : s.cfg.hidPresent = true) : romReads s 36 9 = some (hidDescriptor s.cfg) :=
  romReads_of_image hr (pre := deviceDescriptor s.cfg ++ configurationDescriptor s.cfg ++ interfaceDescriptor)
    (post := endpointDescriptor s.cfg ++ reportDescriptor)
    (by simp [romImage_eq_records, hidPart_of_present h]) rfl rfl

theorem romReads_endpoint : romReads s (36 + hidLen s.cfg) 7 = some (endpointDescriptor s.cfg) :=
  romReads_of_image hr (romImage_eq_records s.cfg) (by simp; omega) rfl

end

end Sys2Proof.Machine

namespace Sys2Proof.Proofs

open Sys2Proof.Machine

/-- Settles O59: each record is read at its offset (`romReads_of_image`), and its bytes are those of its table. -/
theorem romLayout : Obligations.RomLayout := fun s hr =>
  ⟨romRead_isSome_iff s,
    (romReads_device hr).trans (congrArg some (deviceDescriptor_bytes _)),
    (romReads_configuration hr).trans (congrArg some (configurationDescriptor_bytes _)),
    romReads_interface hr,
    fun hid => (romReads_hid hr hid).trans (congrArg some (hidDescriptor_bytes _)),
    (romReads_endpoint hr).trans (congrArg some (endpointDescriptor_bytes _)),
    wTotalLength_eq _⟩

end Sys2Proof.Proofs

/-! SUPPORT. The SETUP handler microstate by microstate (44_control_sequencer.md): what a request does in one of its
microstates, the wait for endpoint 0's bank, the commit of a packet, and the enumeration requests settled from them. -/

namespace Sys2Proof.Machine

/-! ### A request in one of its microstates -/

/-- Past `S_DISPATCH` a request does what the microstate does with its fields. -/
theorem requestStep_of_microstep {f p : Seq} {q : SetupLatch} {s : State} {r : Result} (hc : s.ctx = .setup)
    (hs : s.seq = p) (hp : p.inRequest = true ∧ p ≠ .sDispatch) (h : microstep q s = r) : requestStep f q s = r := by
  subst hs
  rw [requestStep_at hc hp.1 hp.2, h]

/-- A microstate that reads nothing of the request acts alike for every request. -/
theorem exec_of_microstep {i : Instr} {p : Seq} {s : State} {r : Result} (hi : i.isRequest = true)
    (hc : s.ctx = .setup) (hs : s.seq = p) (hp : p.inRequest = true ∧ p ≠ .sDispatch)
    (h : ∀ q, microstep q s = r) : exec i s = r := by
  obtain ⟨f, q, hx⟩ := exec_of_isRequest hi s
  rw [hx, requestStep_of_microstep hc hs hp (h q)]

theorem finish_map_ok {s u : State} {r : OpResult} {g : State → State} (h : r = .ok u) :
    finish s (r.map g) = .next (g u) := by
  subst h; rfl

/-- The microprogram's `S_DISPATCH` goes to the row its key selects (R295). -/
theorem microstep_dispatch {q : SetupLatch} {s : State} (h : s.seq = .sDispatch) : microstep q s =
    .next { s with seq := dispatchTarget (requestKind (half q.bRequest q.bmRequestType)) } := by
  rw [microstep, h]; rfl

theorem dispatchTarget_requestKind (K : Half) : dispatchTarget (requestKind K) =
    if K = 0x0680 then .gdLookup else if K = 0x0500 then .saSet else if K = 0x0900 then .scStore
    else if K = 0x0880 then .gcLoad else if K &&& 0xFF00 = 0 then .gsLoad else .stall := by
  have full : K &&& 0xFFFF = K := BitVec.and_allOnes
  rw [requestKind_eq, full]
  split_ifs <;> rfl

/-! ### The wait for endpoint 0's bank (R324) -/

theorem bankReady_of {s : State} {e : Endpoint} (he : s.eps[0]? = some e) : bankReady s = e.txini := by
  simp [bankReady, he]

theorem selected_of_epsel0 {s : State} {e : Endpoint} (h0 : s.dev.epnum = 0) (he : s.eps[0]? = some e) :
    s.selected = some e := by
  rw [State.selected, h0]; exact he

theorem waitReady_hold {s : State} {e : Endpoint} (he : s.eps[0]? = some e) (ht : e.txini = false)
    (k : State → State) : waitReady s k = .next s := by
  simp [waitReady, bankReady_of he, ht]

/-- The `RD EPINT` that sees `TXINI` = 1. -/
theorem waitReady_lift {s : State} {e : Endpoint} (h0 : s.dev.epnum = 0) (he : s.eps[0]? = some e)
    (ht : e.txini = true) (k : State → State) : waitReady s k =
      .next (k { s with rdData := BitVec.ofNat 32 (8 * e.rxstpi.toNat + 4 * e.rxouti.toNat + 1) }) := by
  have hv : e.epint.toNat = 8 * e.rxstpi.toNat + 4 * e.rxouti.toNat + 1 := by rw [epint_toNat, ht]; rfl
  have hop : rdEpint s = .ok (returns e.epint s) := readSelected_ok (selected_of_epsel0 h0 he)
  rw [waitReady, bankReady_of he, if_pos ht, finish_map_ok hop, returns, word_of_toNat hv]

/-! ### The commit of endpoint 0's bank (R322, 41_register_interface.md R203) -/

theorem withSelected_of_epsel0 {s : State} (h0 : s.dev.epnum = 0) (e : Endpoint) : s.withSelected e = s.withEp0 e := by
  rw [State.withSelected, h0]; rfl

theorem withEp0_self {s : State} {e : Endpoint} (he : s.eps[0]? = some e) : s.withEp0 e = s := by
  obtain ⟨hlt, rfl⟩ := List.getElem?_eq_some_iff.mp he
  simp [State.withEp0]

/-- `WR EPINT, 0xFE` with the bank ready and nothing unread. -/
theorem writeInt_commit {e : Endpoint} {d : List Byte} (ht : e.txini = true) (hs : e.rxstpi = false)
    (ho : e.rxouti = false) (hb : e.banks[e.fill]? = some ⟨d, false⟩) : e.writeInt 0xFE = .ok { e with
      txini := false, banks := e.banks.set e.fill ⟨d, true⟩, fill := (e.fill + 1) % e.nbanks } := by
  rw [writeInt_of_bank hb (by simp [Endpoint.writeConflicts, ho])]
  simp [bitOf, ht, hs, ho]

/-- `WR EPINT, 0xFE` with `TXINI` = 0. -/
theorem writeInt_nothing {e : Endpoint} (ht : e.txini = false) : e.writeInt 0xFE = .ok e := by
  simp [Endpoint.writeInt, Endpoint.releaseSetup, Endpoint.releaseOut, bitOf, ht]

/-- The zero-length status packet, whichever request sends it: committed, in conflict with unread OUT data, or none. -/
theorem zeroLengthStatus {s : State} {e : Endpoint} (h0 : s.dev.epnum = 0) (he : s.eps[0]? = some e) (q : Seq) :
    (e.Ready → thenGo s (wrEpint 0xFE s) q = .next { s.withEp0 { e with
      txini := false, banks := e.banks.set e.fill ⟨[], true⟩, fill := (e.fill + 1) % e.nbanks } with seq := q }) ∧
    (e.eptype = 0 → e.txini = true → e.rxstpi = false → e.rxouti = true →
      thenGo s (wrEpint 0xFE s) q = .next (raise .fifoConflict s)) ∧
    (e.txini = false → thenGo s (wrEpint 0xFE s) q = .next { s with seq := q }) := by
  have hsel := selected_of_epsel0 h0 he
  refine ⟨fun hr => ?_, fun hc ht hs ho => ?_, fun ht => ?_⟩
  · exact (thenGo_ok (onSelected_ok hsel (writeInt_commit hr.ready hr.noSetup hr.noOut hr.bank))).trans
      (by rw [withSelected_of_epsel0 h0])
  · exact thenGo_error (onSelected_error hsel (writeInt_conflict (writeConflicts_iff.mpr ⟨rfl, ht, hs, hc, ho, rfl⟩)))
  · exact (thenGo_ok (onSelected_ok hsel (writeInt_nothing ht))).trans
      (by rw [withSelected_of_epsel0 h0, withEp0_self he])

/-! ### The microstates of the requests that read the latch -/

/-- R238, R239: the two types the ROM has. -/
theorem lookup_of_found {c : Config} {t : Byte} (i : Byte) (h : t = 0x01 ∨ t = 0x02) : lookup c t i =
    some (if t = 0x01 then 0 else 18, if t = 0x01 then 18 else if c.hidPresent then 34 else 25) := by
  rcases h with rfl | rfl
  · rfl
  · cases hp : c.hidPresent <;> simp [lookup, wTotalLength, hidLen, hp]

theorem lookup_of_unknown {c : Config} {t : Byte} (i : Byte) (h : ¬(t = 0x01 ∨ t = 0x02)) : lookup c t i = none := by
  rw [not_or] at h
  rw [lookup, if_neg h.1, if_neg h.2]

/-- No stream for length 0 (R300): the length is at most 255, so it is 0 as a 16-bit number only where it is 0. -/
theorem descriptorLength_eq_zero {w : Half} {n : Nat} : descriptorLength w n = 0 ↔ ¬0 < min (min w.toNat 255) n := by
  have hn : min (min w.toNat 255) n < 2 ^ 16 := by omega
  rw [descriptorLength, ← BitVec.toNat_inj, BitVec.toNat_ofNat, Nat.mod_eq_of_lt hn]
  exact (Nat.pos_iff_ne_zero.not.trans not_not).symm

theorem gdLookupStep_found {q : SetupLatch} {s : State} {off dlen : Nat}
    (h : lookup s.cfg (dtypeOf q.wValue) (dindexOf q.wValue) = some (off, dlen)) : gdLookupStep q s = .next { s with
      work := { s.work with
        remaining := BitVec.ofNat 16 (min (min q.wLength.toNat 255) dlen), region := .rom,
        offset := BitVec.ofNat 16 off }
      seq := if 0 < min (min q.wLength.toNat 255) dlen then .strWait else .ret } := by
  simp only [gdLookupStep, h, descriptorLength_eq_zero, ite_not]
  rfl

theorem gdLookupStep_unknown {q : SetupLatch} {s : State}
    (h : lookup s.cfg (dtypeOf q.wValue) (dindexOf q.wValue) = none) :
    gdLookupStep q s = .next { s with seq := .stall } := by
  rw [gdLookupStep, h]; rfl

/-- The `ADDEN` bit of the `DEVADDR` value just read (R306). -/
theorem returns_devaddr_bit7 (s : State) : (returns s.dev.devaddr s).rdData.getLsbD 7 = s.dev.adden := by
  rw [returns_rdData, BitVec.getLsbD_setWidth, devaddr_bit7]; rfl

theorem scStoreStep_eq (q : SetupLatch) (s : State) : scStoreStep q s = .next { s with
    enum := ⟨if cfgOf q.wValue ≠ 0 then .configured else if s.dev.adden then .addressed else .default,
      s.enum.assignedAddr, cfgOf q.wValue⟩
    rdData := BitVec.ofNat 32 (128 * s.dev.adden.toNat + s.dev.uadd.toNat), seq := .scZw } := by
  refine (finish_map_ok (r := rdDevaddr s) rfl).trans ?_
  rw [storeConfig, returns_devaddr_bit7, returns, word_of_toNat (devaddr_toNat s.dev)]

theorem saApplyStep_eq (s : State) : saApplyStep s = .next { s with
    dev := { s.dev with uadd := s.work.pendingAddr, adden := true }
    enum := ⟨.addressed, s.work.pendingAddr, s.enum.configValue⟩, seq := .ret } := by
  refine (finish_map_ok (r := wrDevaddr (0x80 ||| s.work.pendingAddr.setWidth 8) s) rfl).trans ?_
  rw [applyAddress, uaddOf_apply, adden_apply]

end Sys2Proof.Machine

namespace Sys2Proof.Proofs

open Sys2Proof.Machine

/-- Settles O49: a request at `S_DISPATCH` goes to its own row's microstate, the microprogram to the key's row's. -/
theorem dispatchTargets : Obligations.DispatchTargets := by
  intro s t r wV wI wL hc hs
  have go (f : Seq) (q : SetupLatch) : requestStep f q s = .next { s with seq := f } := requestStep_dispatch hc hs
  refine ⟨⟨go _ _, go _ _, go _ _, go _ _, go _ _, go _ _⟩, ?_⟩
  have hx : engineStep s = microstep s.latch s := by rw [engineStep, hc]
  rw [hx, microstep_dispatch hs, dispatchTarget_requestKind]; rfl

/-- Settles O50, by whether the ROM has a descriptor of the type. -/
theorem getDescriptorLookup : Obligations.GetDescriptorLookup := by
  intro s wV wI wL hc hs dlen off n
  have hx {r : Result} (h : gdLookupStep ⟨0x80, 0x06, wV, wI, wL⟩ s = r) : exec (.getDescriptor wV wI wL) s = r :=
    requestStep_of_microstep hc hs (by decide) (by rw [microstep, hs, h])
  refine ⟨fun h => hx ?_, fun h => hx ?_⟩
  · have hl : lookup s.cfg (dtypeOf wV) (dindexOf wV) =
        some (if wV.extractLsb' 8 8 = (0x01 : Byte) then 0 else 18, dlen) := lookup_of_found _ h
    have hoff : BitVec.ofNat 16 (if wV.extractLsb' 8 8 = (0x01 : Byte) then 0 else 18) = off := apply_ite ..
    rw [gdLookupStep_found (q := ⟨0x80, 0x06, wV, wI, wL⟩) hl, hoff]
  · exact gdLookupStep_unknown (lookup_of_unknown (dindexOf wV) h)

/-- Settles O51, microstate by microstate. -/
theorem setAddressSteps : Obligations.SetAddressSteps := by
  intro s e wV wI wL hc h0 he
  have hx {p : Seq} {r : Result} (hs : s.seq = p) (hp : p.inRequest = true ∧ p ≠ .sDispatch)
      (h : microstep ⟨0x00, 0x05, wV, wI, wL⟩ s = r) : exec (.setAddress wV wI wL) s = r :=
    requestStep_of_microstep hc hs hp h
  refine ⟨fun hs => ?_, fun q q' hq hs => ?_, fun hs => ?_, fun hs => ?_⟩
  · exact hx hs (by decide) (by rw [microstep, hs]; rfl)
  · have hw : exec (.setAddress wV wI wL) s = waitReady s (goto q') := by
      simp only [List.mem_cons, List.not_mem_nil, or_false, Prod.mk.injEq] at hq
      rcases hq with ⟨rfl, rfl⟩ | ⟨rfl, rfl⟩
      · exact hx hs (by decide) (by rw [microstep, hs])
      · exact hx hs (by decide) (by rw [microstep, hs])
    rw [hw]; exact ⟨fun ht => waitReady_hold he ht _, fun ht => waitReady_lift h0 he ht _⟩
  · rw [hx hs (by decide) (by rw [microstep, hs])]; exact zeroLengthStatus h0 he .saWait
  · exact hx hs (by decide) (by rw [microstep, hs, saApplyStep_eq])

/-- Settles O52, microstate by microstate. -/
theorem setConfigurationStore : Obligations.SetConfigurationStore := by
  intro s e wV wI wL hc h0 he c
  have hx {p : Seq} {r : Result} (hs : s.seq = p) (hp : p.inRequest = true ∧ p ≠ .sDispatch)
      (h : microstep ⟨0x00, 0x09, wV, wI, wL⟩ s = r) : exec (.setConfiguration wV wI wL) s = r :=
    requestStep_of_microstep hc hs hp h
  refine ⟨fun hs => ?_, fun hs => ?_, fun hs => ?_⟩
  · exact hx hs (by decide) (by rw [microstep, hs, scStoreStep_eq]; rfl)
  · rw [hx hs (by decide) (by rw [microstep, hs])]
    exact ⟨fun ht => waitReady_hold he ht _, fun ht => waitReady_lift h0 he ht _⟩
  · rw [hx hs (by decide) (by rw [microstep, hs, scZcStep])]; exact zeroLengthStatus h0 he _

/-- Settles O54: each load is one microstate, which reads no field of the request. -/
theorem fixedReplies : Obligations.FixedReplies := fun s _ _ _ _ hc =>
  ⟨fun hs => requestStep_of_microstep hc hs (by decide) (by rw [microstep, hs]; rfl),
    fun hs => requestStep_of_microstep hc hs (by decide) (by rw [microstep, hs]; rfl)⟩

/-- Settles O55: `STALL` is `WR EPCTL, 0x03`, and `RETURN` is the return of every handler. -/
theorem stallAndReturn : Obligations.StallAndReturn := by
  intro s e bm r wV wI wL hc hsel
  refine ⟨fun hs => ?_, fun hs i hi => exec_of_microstep hi hc hs (by decide) fun q => by rw [microstep, hs]; rfl⟩
  have hctl : e.writeCtl 0x03 = { e with epen := true, stallrq := true } := writeCtl_of_enable rfl
  have stalls {i : Instr} (hi : i.isRequest = true) : exec i s =
      .next { s.withSelected { e with epen := true, stallrq := true } with seq := .ret } := by
    refine exec_of_microstep hi hc hs (by decide) fun q => ?_
    rw [microstep, hs]
    exact thenGo_ok (onSelected_ok hsel (congrArg Except.ok hctl))
  exact ⟨stalls rfl, stalls rfl⟩

/-- Settles O56: the four waits are `waitReady`, and the engine has a step there exactly where it is lifted. -/
theorem waitHolds : Obligations.WaitHolds := by
  intro i s e hi hc he hs
  have enabled : engineEnabled s = e.txini := by
    rw [← bankReady_of he, engineEnabled, hc]
    rcases hs with hs | hs | hs | hs <;> rw [hs]
  obtain ⟨k, hx, hk⟩ : ∃ k, exec i s = waitReady s k ∧ ∀ v, k { s with rdData := v } = { s with
      rdData := v
      work := if s.seq = .strWait then
          { s.work with packet := BitVec.ofNat 8 (min s.work.remaining.toNat 32), i := 0 }
        else s.work
      seq := if s.seq = .strWait then .strWrite else if s.seq = .saZw then .saZc
        else if s.seq = .saWait then .saApply else .scZc } := by
    have wait {p : Seq} (k : State → State) (hs : s.seq = p) (hp : p.inRequest = true ∧ p ≠ .sDispatch)
        (h : ∀ q, microstep q s = waitReady s k) : exec i s = waitReady s k := exec_of_microstep hi hc hs hp h
    rcases hs with hs | hs | hs | hs
    · exact ⟨_, wait startPacket hs (by decide) fun q => by rw [microstep, hs, strWaitStep], fun v => by rw [hs]; rfl⟩
    · exact ⟨_, wait (goto .saZc) hs (by decide) fun q => by rw [microstep, hs], fun v => by rw [hs]; rfl⟩
    · exact ⟨_, wait (goto .saApply) hs (by decide) fun q => by rw [microstep, hs], fun v => by rw [hs]; rfl⟩
    · exact ⟨_, wait (goto .scZc) hs (by decide) fun q => by rw [microstep, hs], fun v => by rw [hs]; rfl⟩
  rw [hx, enabled]
  exact ⟨fun ht => ⟨waitReady_hold he ht k, ht⟩, fun ht h0 => ⟨ht, (waitReady_lift h0 he ht k).trans (by rw [hk])⟩⟩

end Sys2Proof.Proofs

/-! SUPPORT. The writers of the device address (40_bus_transactions.md R150, 41_register_interface.md R189,
44_control_sequencer.md R304): every operation, microstate and event by what it does to `UADD` and `ADDEN`. -/

namespace Sys2Proof.Machine

/-- The device address and its enable stay. -/
structure SameAddress (s t : State) : Prop where
  uadd : t.dev.uadd = s.dev.uadd
  adden : t.dev.adden = s.dev.adden

theorem SameAddress.of_dev {s t : State} (h : t.dev = s.dev) : SameAddress s t := ⟨by rw [h], by rw [h]⟩

/-! ### Register operations -/

/-- The operation leaves the address where it succeeds; where it raises a fault it has no effect. -/
def LeavesAddress (s : State) (r : OpResult) : Prop := ∀ u, r = .ok u → SameAddress s u

theorem LeavesAddress.of_ok {s u : State} (h : SameAddress s u) : LeavesAddress s (.ok u) := by
  intro t ht; cases ht; exact h

theorem onSelected_leavesAddress (f : Endpoint → Except FaultKind Endpoint) (s : State) :
    LeavesAddress s (onSelected f s) := by
  intro u hu
  rcases onSelected_cases (f := f) (s := s) with ⟨_, h⟩ | ⟨_, _, _, _, h⟩ | ⟨e, e', _, _, h⟩ <;> rw [h] at hu
  · cases hu
  · cases hu
  · cases hu; exact .of_dev rfl

theorem readSelected_leavesAddress (f : Endpoint → Byte) (s : State) : LeavesAddress s (readSelected f s) := by
  cases hs : s.selected with
  | none => rw [readSelected_none hs]; intro u hu; cases hu
  | some e => rw [readSelected_ok hs]; exact .of_ok (.of_dev rfl)

theorem rdEpdata_leavesAddress (s : State) : LeavesAddress s (rdEpdata s) := by
  intro u hu
  cases hs : s.selected with
  | none => simp [rdEpdata_none hs] at hu
  | some e =>
    cases hp : e.popData with
    | error k => simp [rdEpdata_error hs hp] at hu
    | ok r => rw [rdEpdata_ok hs hp] at hu; cases hu; exact .of_dev rfl

/-! ### The engine -/

/-- A register operation, then a move of the engine that leaves the device-level registers. -/
theorem finish_sameAddress {s t : State} {r : OpResult} {g : State → State} (h : finish s (r.map g) = .next t)
    (hr : LeavesAddress s r) (hg : ∀ u, (g u).dev = u.dev) : SameAddress s t := by
  rcases finish_next h with h | ⟨k, -, rfl⟩
  · obtain ⟨u, hu, rfl⟩ := map_ok_iff.mp h
    obtain ⟨hu, ha⟩ := hr u hu
    exact ⟨by rw [hg, hu], by rw [hg, ha]⟩
  · exact .of_dev rfl

theorem waitReady_sameAddress {s t : State} {g : State → State} (h : waitReady s g = .next t)
    (hg : ∀ u, (g u).dev = u.dev) : SameAddress s t := by
  unfold waitReady at h
  split at h
  · exact finish_sameAddress h (readSelected_leavesAddress _ s) hg
  · cases h; exact .of_dev rfl

/-- `SA_APPLY` writes the pending address, enabled. -/
structure AppliesAddress (s t : State) : Prop where
  microstate : s.seq = .saApply
  uadd : t.dev.uadd = s.work.pendingAddr
  adden : t.dev.adden = true

/-- R304: `SA_APPLY` is the only microstate that writes the address. -/
theorem microstep_address {q : SetupLatch} {s t : State} (h : microstep q s = .next t) :
    SameAddress s t ∨ AppliesAddress s t := by
  have goes (q : Seq) : ∀ u, (goto q u).dev = u.dev := goto_dev q
  have dev {d : DevRegs} (hd : SameAddress s { s with dev := d }) : LeavesAddress s (.ok { s with dev := d }) :=
    .of_ok hd
  have ret (v : Byte) : LeavesAddress s (.ok (returns v s)) := .of_ok (.of_dev rfl)
  have sel (f : Endpoint → Except FaultKind Endpoint) := onSelected_leavesAddress f s
  cases hs : s.seq <;> simp only [microstep, hs, brClrStep, sSelStep] at h
  case saApply => rw [saApplyStep_eq] at h; cases h; exact .inr ⟨hs, rfl, rfl⟩
  all_goals left
  case idle | halted | brState | sDispatch | saSet | gcLoad | gsLoad | ret => cases h; exact .of_dev rfl
  case gdLookup => unfold gdLookupStep at h; split at h <;> (cases h; exact .of_dev rfl)
  case initLock =>
    unfold initLockStep at h
    split at h
    · cases h; exact .of_dev rfl
    · split at h
      · exact finish_sameAddress h (ret _) (goes _)
      · cases h; exact .of_dev rfl
  case initPll | initCfgSel | initIen | brClr | brCfgSel | sSel | scCfgSel =>
    exact finish_sameAddress h (dev ⟨rfl, rfl⟩) (goes _)
  case initAttach | sofClr => exact finish_sameAddress h (dev ⟨rfl, rfl⟩) returnIdle_dev
  case scStore => exact finish_sameAddress h (ret _) fun _ => rfl
  case initCfgEn | brCfgEn | scCfgEn | stall | initCfgType | brCfgType | scCfgType | initCfgAlloc | brCfgAlloc |
      scCfgAlloc | initCfgIen | brCfgIen | scCfgIen | sAck | saZc | scZc =>
    exact finish_sameAddress h (sel _) (goes _)
  case strCommit => exact finish_sameAddress h (sel _) fun _ => rfl
  case scTog => exact finish_sameAddress h (.of_ok (.of_dev rfl)) (goes _)
  case sRd k => exact finish_sameAddress h (rdEpdata_leavesAddress s) (storeRead_dev k)
  case strWrite =>
    unfold strWriteStep at h
    split at h
    · exact finish_sameAddress h (sel _) fun _ => rfl
    · cases h
  case saZw | saWait | scZw => exact waitReady_sameAddress h (goes _)
  case strWait => exact waitReady_sameAddress h startPacket_dev

theorem handlerEntry_sameAddress {s t : State} (h : handlerEntry s = .next t) : SameAddress s t := by
  unfold handlerEntry at h
  split at h
  · cases h; exact ⟨rfl, rfl⟩
  · split at h
    · cases h; exact ⟨rfl, rfl⟩
    · split at h <;> (cases h; exact ⟨rfl, rfl⟩)

theorem engineStep_address {s t : State} (h : engineStep s = .next t) : SameAddress s t ∨ AppliesAddress s t := by
  unfold engineStep at h
  split at h
  · cases h; exact .inl (.of_dev rfl)
  · exact .inl (handlerEntry_sameAddress h)
  all_goals exact microstep_address h

theorem requestStep_address {f : Seq} {q : SetupLatch} {s t : State} (h : requestStep f q s = .next t) :
    SameAddress s t ∨ AppliesAddress s t := by
  rcases requestStep_cases h with ⟨-, rfl⟩ | ⟨-, -, rfl⟩ | ⟨-, -, hm⟩
  · exact .inl (.of_dev rfl)
  · exact .inl (.of_dev rfl)
  · exact microstep_address hm

/-! ### Instructions -/

theorem engineOp_sameAddress {op : State → OpResult} {s t : State} (h : engineOp op s = .next t)
    (ho : LeavesAddress s (op s)) : SameAddress s t := by
  rcases engineOp_next h with ⟨-, rfl⟩ | ⟨-, hu⟩ | ⟨-, k, -, rfl⟩
  · exact .of_dev rfl
  · exact ho t hu
  · exact .of_dev rfl

theorem execSetup_dev {a : DevAddr} {n : EpNum} {d : Packet8} {s t : State} (h : execSetup a n d s = .next t) :
    t.dev = s.dev := by
  unfold execSetup at h
  split at h
  · cases h; rfl
  · split at h
    · cases h; split <;> rfl
    · cases h; rfl

theorem execIn_dev {a : DevAddr} {n : EpNum} {s t : State} (h : execIn a n s = .next t) : t.dev = s.dev := by
  unfold execIn at h
  split at h
  · cases h; rfl
  · split at h <;> (cases h; rfl)

theorem execOut_dev {a : DevAddr} {n : EpNum} {d : List Byte} {s t : State} (h : execOut a n d s = .next t) :
    t.dev = s.dev := by
  unfold execOut at h
  split at h
  · cases h; rfl
  · split at h
    · split at h <;> (cases h; rfl)
    · cases h; rfl

theorem execTxready_dev {n : EpNum} {s t : State} (h : execTxready n s = .next t) : t.dev = s.dev := by
  unfold execTxready at h
  split at h
  · cases h; rfl
  · split at h <;> (cases h; rfl)

/-- R150: a bus reset clears the address, where the device is attached. -/
theorem execBusReset_address {s t : State} (h : execBusReset s = .next t) :
    SameAddress s t ∨ (t.dev.uadd = 0 ∧ t.dev.adden = false) := by
  unfold execBusReset at h
  split at h
  · cases h; exact .inl (.of_dev rfl)
  · cases h; exact .inr ⟨rfl, rfl⟩

/-- An event that writes only device-level registers other than the address. -/
theorem devEvent_sameAddress {c : Prop} [Decidable c] {d d' : DevRegs} {s t : State}
    (h : (if c then .next { s with dev := d } else .next { s with dev := d' } : Result) = .next t)
    (hd : SameAddress s { s with dev := d }) (hd' : SameAddress s { s with dev := d' }) : SameAddress s t := by
  split at h
  · cases h; exact hd
  · cases h; exact hd'

/-- What an instruction does to the device address. -/
inductive AddressEffect (s t : State) : Instr → Prop where
  | same {i : Instr} (h : SameAddress s t) : AddressEffect s t i
  | applied {i : Instr} (hi : i.isRequest = true) (h : AppliesAddress s t) : AddressEffect s t i
  | reset (hu : t.dev.uadd = 0) (ha : t.dev.adden = false) : AddressEffect s t .busReset
  | written (v : Byte) : AddressEffect s t (.wrDevaddr v)

theorem exec_address {i : Instr} {s t : State} (h : exec i s = .next t) : AddressEffect s t i := by
  have dev {d : DevRegs} (hd : SameAddress s { s with dev := d }) : LeavesAddress s (.ok { s with dev := d }) :=
    .of_ok hd
  have ret (v : Byte) : LeavesAddress s (.ok (returns v s)) := .of_ok (.of_dev rfl)
  have sel (f : Endpoint → Except FaultKind Endpoint) := onSelected_leavesAddress f s
  cases i with
  | getDescriptor | setAddress | setConfiguration | getConfiguration | getStatus | stallOther =>
    exact (requestStep_address h).elim .same (.applied rfl)
  | busReset => exact (execBusReset_address h).elim .same fun ⟨hu, ha⟩ => .reset hu ha
  | wrDevaddr v => exact .written v
  | setup => exact .same (.of_dev (execSetup_dev h))
  | inToken => exact .same (.of_dev (execIn_dev h))
  | outToken => exact .same (.of_dev (execOut_dev h))
  | txready => exact .same (.of_dev (execTxready_dev h))
  | sof | pllLocked | pllFail => exact .same (devEvent_sameAddress h ⟨rfl, rfl⟩ ⟨rfl, rfl⟩)
  | statusRead | rdEngstatus => cases h; exact .same (.of_dev rfl)
  | rdPllctl | rdDevctl | rdDevint | rdDevinten | rdDevaddr | rdEptogrst | rdEpsel =>
    exact .same (engineOp_sameAddress h (ret _))
  | wrPllctl | wrDevctl | wrDevint | wrDevinten | wrEpsel => exact .same (engineOp_sameAddress h (dev ⟨rfl, rfl⟩))
  | rdEpctl | rdEpcfg0 | rdEpcfg1 | rdEpsta | rdEpint | rdEpinten | rdEpbcnt =>
    exact .same (engineOp_sameAddress h (readSelected_leavesAddress _ s))
  | wrEpctl | wrEpcfg0 | wrEpcfg1 | wrEpint | wrEpinten | wrEpdata => exact .same (engineOp_sameAddress h (sel _))
  | wrEptogrst v => exact .same (engineOp_sameAddress h (.of_ok (.of_dev rfl)))
  | rdEpdata => exact .same (engineOp_sameAddress h (rdEpdata_leavesAddress s))
  | wrEpsta | wrEpbcnt | wrEngstatus | otherRegOp =>
    exact .same (engineOp_sameAddress (op := badRegister) h fun _ hu => by cases hu)

/-! ### Who runs an instruction -/

/-- Where the instruction of a step comes from: what `nextAction_run` says, with the record it is decoded from. -/
inductive RunOrigin (s : State) (i : Instr) : Prop where
  | request (ht : s.engineTurn) (hi : (encode i).1 = .setup)
  | bus {bs rest : List Byte} {ts : List Turn} (ht : s.turns = .bus bs :: ts) (hd : decode .bus bs = .ok i rest)
  | reg {bs rest : List Byte} {ts : List Turn} (ht : s.turns = .reg bs :: ts) (hd : decode .reg bs = .ok i rest)
  | reg32 {bs rest : List Byte} (hd : decode .reg32 bs = .ok i rest)
  | txready {n : EpNum} (hi : i = .txready n)

theorem recordAction_run {p : Port} {bs : List Byte} {i : Instr} {s u : State} (h : recordAction p bs s = .run i u) :
    ∃ rest, decode p bs = .ok i rest := by
  unfold recordAction at h
  split at h
  · next hd => cases h; exact ⟨_, hd⟩
  · cases h

theorem engineAction_run {i : Instr} {s u : State} (h : engineAction s = .run i u) : (encode i).1 = .setup := by
  unfold engineAction at h
  split at h
  · cases h; rw [SetupLatch.request, encode_requestOf]; rfl
  · cases h

theorem nextAction_runOrigin {s u : State} {i : Instr} (h : nextAction s = .run i u) : RunOrigin s i := by
  unfold nextAction at h
  split at h
  · next ts ht => exact .request (.inr ⟨ts, ht⟩) (engineAction_run h)
  · next ht => obtain ⟨rest, hd⟩ := recordAction_run h; exact .bus ht hd
  · next ht => obtain ⟨rest, hd⟩ := recordAction_run h; exact .reg ht hd
  · obtain ⟨rest, hd⟩ := recordAction_run h; exact .reg32 hd
  · next ht =>
    split at h
    · exact .request (.inl ht) (engineAction_run h)
    · split at h
      · cases h; exact .txready rfl
      · cases h

/-- The instruction of a record is one encoded for its port; at the 32-bit port `ENGSTATUS` is read too (R82). -/
theorem decodeReg32_port {bs rest : List Byte} {i : Instr} (h : decode .reg32 bs = .ok i rest) :
    (encode i).1 = .reg32 ∨ i = .rdEngstatus :=
  (decodeReg32_ok h).imp EncodesAs.port And.left

/-- A request comes only from the engine's turn. -/
theorem RunOrigin.engineTurn {s : State} {i : Instr} (h : RunOrigin s i) (hi : i.isRequest = true) : s.engineTurn := by
  have port : (encode i).1 = .setup := by
    cases i with
    | getDescriptor | setAddress | setConfiguration | getConfiguration | getStatus | stallOther => rfl
    | _ => cases hi
  cases h with
  | request ht _ => exact ht
  | bus _ hd => cases port.symm.trans (decodeBus_ok hd).port
  | reg _ hd => cases port.symm.trans (decodeReg_ok hd).port
  | reg32 hd =>
    rcases decodeReg32_port hd with hp | rfl
    · cases port.symm.trans hp
    · cases hi
  | txready hn => subst hn; cases hi

/-- A bus reset comes only from a bus record. -/
theorem RunOrigin.busRecord {s : State} (h : RunOrigin s .busReset) :
    ∃ bs ts rest, s.turns = .bus bs :: ts ∧ decode .bus bs = .ok .busReset rest := by
  cases h with
  | request _ hi => cases hi
  | bus ht hd => exact ⟨_, _, _, ht, hd⟩
  | reg _ hd => cases (decodeReg_ok hd).port
  | reg32 hd => rcases decodeReg32_port hd with hp | hp <;> cases hp
  | txready hn => cases hn

/-- A write of `DEVADDR` that is an instruction of its own comes only from an 8-bit register record. -/
theorem RunOrigin.regRecord {s : State} {v : Byte} (h : RunOrigin s (.wrDevaddr v)) :
    ∃ bs ts rest, s.turns = .reg bs :: ts ∧ decode .reg bs = .ok (.wrDevaddr v) rest := by
  cases h with
  | request _ hi => cases hi
  | bus _ hd => cases (decodeBus_ok hd).port
  | reg ht hd => exact ⟨_, _, _, ht, hd⟩
  | reg32 hd => rcases decodeReg32_port hd with hp | hp <;> cases hp
  | txready hn => cases hn

end Sys2Proof.Machine

namespace Sys2Proof.Proofs

open Sys2Proof.Machine

/-- Settles O17: what the step does to the address (`exec_address`, `engineStep_address`), with who runs it. -/
theorem addressWriters : Obligations.AddressWriters := by
  intro s t h hne
  have moved : ¬SameAddress { s with turns := s.turns.tail } t := fun ⟨hu, ha⟩ => hne.elim (· hu) (· ha)
  rcases step_cases h with ⟨i, hn, hx⟩ | ⟨hn, hx⟩ | ⟨-, rfl⟩
  · have origin := nextAction_runOrigin hn
    cases exec_address hx with
    | same hsame => exact absurd hsame moved
    | applied hi hap => exact .inl ⟨origin.engineTurn hi, hap.microstate, hap.uadd, hap.adden⟩
    | reset hu ha =>
      obtain ⟨bs, ts, rest, ht, hd⟩ := origin.busRecord
      exact .inr (.inl ⟨bs, ts, rest, ht, hd, hu, ha⟩)
    | written v =>
      obtain ⟨bs, ts, rest, ht, hd⟩ := origin.regRecord
      exact .inr (.inr ⟨bs, ts, v, rest, ht, hd⟩)
  · rcases engineStep_address hx with hsame | hap
    · exact absurd hsame moved
    · exact .inl ⟨nextAction_engine hn, hap.microstate, hap.uadd, hap.adden⟩
  · exact absurd ⟨rfl, rfl⟩ moved

end Sys2Proof.Proofs

/-! SUPPORT. SET_CONFIGURATION's configuration of endpoint 3 (44_control_sequencer.md R307, R308), as a run of its
microstates. -/

namespace Sys2Proof.Machine

/-! ### Runs -/

theorem runInstr_of_step {i : Instr} {s t : State} (n : Nat) (h : exec i s = .next t) :
    runInstr i (n + 1) s = runInstr i n t := by
  rw [runInstr, h]

/-! ### Endpoint 3 -/

/-- `s` with endpoint 3 selected and replaced, at a microstate. -/
def State.atEp3 (s : State) (q : Seq) (e : Endpoint) : State :=
  { s with seq := q, dev := { s.dev with epnum := 3 }, eps := s.eps.set 3 e }

section
variable {s : State} {e₀ : Endpoint} (h3 : s.eps[3]? = some e₀)
include h3

/-- `SC_CFG_SEL` leaves the endpoint as it is. -/
theorem scCfgSel_atEp3 : thenGo s (wrEpsel 0x03 s) .scCfgEn = .next (s.atEp3 .scCfgEn e₀) := by
  obtain ⟨hlt, rfl⟩ := List.getElem?_eq_some_iff.mp h3
  rw [State.atEp3, List.set_getElem_self hlt]; rfl

/-- A write to a register of the selected endpoint 3. -/
theorem write_atEp3 {q q' : Seq} {e e' : Endpoint} {f : Endpoint → Except FaultKind Endpoint} (hf : f e = .ok e') :
    thenGo (s.atEp3 q e) (onSelected f (s.atEp3 q e)) q' = .next (s.atEp3 q' e') := by
  have hsel : (s.atEp3 q e).selected = some e := List.getElem?_set_self (List.getElem?_eq_some_iff.mp h3).1
  refine (thenGo_ok (onSelected_ok hsel hf)).trans ?_
  have hset : (s.eps.set 3 e).set 3 e' = s.eps.set 3 e' := List.set_set ..
  simp only [State.atEp3, State.withSelected]
  rw [← hset]; rfl

end

/-- The four writes of `SC_CFG_EN` to `SC_CFG_IEN` (R307). -/
def Endpoint.configureInterruptIn (e : Endpoint) : Endpoint :=
  (((e.writeCtl 0x01).writeCfg0 0xC1).writeCfg1 0x06).writeInten 0x00

/-- R274: interrupt IN with two empty 8-byte banks, whatever the endpoint was before. -/
theorem configureInterruptIn_eq (e : Endpoint) : e.configureInterruptIn = { e with
      epen := true, eptype := 3, epdir := true, epsize := 0, epbk := 1, alloc := true, cfgok := true,
      banks := [⟨[], false⟩, ⟨[], false⟩], fill := 0, send := 0, txini := false, rxouti := false, rxstpi := false,
      txine := false, rxoute := false, rxstpe := false } := by
  have hctl : e.writeCtl 0x01 = { e with epen := true } := writeCtl_of_enable rfl
  rw [Endpoint.configureInterruptIn, hctl]
  rcases Bool.eq_false_or_eq_true e.alloc with ha | ha
  · rw [writeCfg0_of_alloc (e := { e with epen := true }) ha, writeCfg1_of_legal rfl rfl (by decide) (by decide)]; rfl
  · rw [writeCfg0_of_unallocated (e := { e with epen := true }) ha,
      writeCfg1_of_legal rfl rfl (by decide) (by decide)]; rfl

theorem bitOf_allOnes (n : Nat) : bitOf 0xFF n = decide (n < 8) := BitVec.getLsbD_allOnes (v := 8)

/-- `WR EPTOGRST, 0xFF` (R191): every non-control endpoint of the first eight. -/
theorem resetToggle_all (n : Nat) (e : Endpoint) : e.resetToggle (bitOf 0xFF n) =
    if n < 8 ∧ e.eptype ≠ 0 then { e with toggle := false } else e := by
  rw [resetToggle_eq, bitOf_allOnes]; simp only [decide_eq_true_eq]

/-- The six microstates of the configuration: the selection, four writes to endpoint 3, the toggles of all endpoints. -/
theorem runInstr_configureEp3 {s : State} {e : Endpoint} (wV wI wL : Half) (hc : s.ctx = .setup)
    (hs : s.seq = .scCfgSel) (h3 : s.eps[3]? = some e) : runInstr (.setConfiguration wV wI wL) 6 s =
      .next { s.atEp3 .ret e with
        eps := (s.eps.set 3 e.configureInterruptIn).mapIdx (fun n e => e.resetToggle (bitOf 0xFF n)) } := by
  have go {p : Seq} {u t : State} (n : Nat) (hu : u.ctx = .setup) (hs : u.seq = p)
      (hp : p.inRequest = true ∧ p ≠ .sDispatch) (h : ∀ q, microstep q u = .next t) :
      runInstr (.setConfiguration wV wI wL) (n + 1) u = runInstr (.setConfiguration wV wI wL) n t :=
    runInstr_of_step n (exec_of_microstep rfl hu hs hp h)
  calc runInstr (.setConfiguration wV wI wL) 6 s
    _ = runInstr _ 5 (s.atEp3 .scCfgEn e) := go _ hc hs (by decide) fun q => by rw [microstep, hs, scCfgSel_atEp3 h3]
    _ = runInstr _ 4 (s.atEp3 .scCfgType _) := go _ hc rfl ⟨rfl, nofun⟩ fun q => write_atEp3 h3 rfl
    _ = runInstr _ 3 (s.atEp3 .scCfgAlloc _) := go _ hc rfl ⟨rfl, nofun⟩ fun q => write_atEp3 h3 rfl
    _ = runInstr _ 2 (s.atEp3 .scCfgIen _) := go _ hc rfl ⟨rfl, nofun⟩ fun q => write_atEp3 h3 rfl
    _ = runInstr _ 1 (s.atEp3 .scTog e.configureInterruptIn) := go _ hc rfl ⟨rfl, nofun⟩ fun q => write_atEp3 h3 rfl
    _ = _ := go 0 hc rfl ⟨rfl, nofun⟩ fun q => rfl

end Sys2Proof.Machine

namespace Sys2Proof.Proofs

open Sys2Proof.Machine

/-- Settles O53: `runInstr_configureEp3`, read at endpoint 3 and at every other endpoint. -/
theorem setConfigurationEndpoint3 : Obligations.SetConfigurationEndpoint3 := by
  intro s e wV wI wL hc hs h3
  refine ⟨_, runInstr_configureEp3 wV wI wL hc hs h3, rfl, ?_, fun n e' hn he' => ?_⟩
  · simp only [List.getElem?_mapIdx, List.getElem?_set_self (List.getElem?_eq_some_iff.mp h3).1, Option.map_some]
    rw [resetToggle_all, configureInterruptIn_eq]; rfl
  · simp only [List.getElem?_mapIdx, List.getElem?_set_ne (Ne.symm hn), he', Option.map_some, resetToggle_all]

end Sys2Proof.Proofs

/-! SUPPORT. The streaming engine (44_control_sequencer.md R320): the bytes a stream reads, one chunk of it, and the
device descriptor as the one chunk of GET_DESCRIPTOR. -/

namespace Sys2Proof.Machine

/-! ### The source -/

theorem romReads_succ {s : State} {a n : Nat} {d : List Byte} (h : romReads s a (n + 1) = some d) :
    ∃ b bs, romRead s a = some b ∧ romReads s (a + 1) n = some bs ∧ d = b :: bs := by
  rw [romReads] at h
  split at h
  · next b bs hb hbs => cases h; exact ⟨b, bs, hb, hbs, rfl⟩
  · cases h

theorem romReads_getElem? {s : State} {a n j : Nat} {d : List Byte} {b : Byte} (h : romReads s a n = some d)
    (hj : d[j]? = some b) : romRead s (a + j) = some b := by
  induction n generalizing a j d with
  | zero => cases h; cases hj
  | succ n ih =>
    obtain ⟨c, bs, hc, hbs, rfl⟩ := romReads_succ h
    cases j with
    | zero => cases hj; exact hc
    | succ j => rw [Nat.add_comm j, ← Nat.add_assoc]; exact ih hbs hj

theorem romReads_length {s : State} {a n : Nat} {d : List Byte} (h : romReads s a n = some d) : d.length = n := by
  induction n generalizing a d with
  | zero => cases h; rfl
  | succ n ih =>
    obtain ⟨c, bs, -, hbs, rfl⟩ := romReads_succ h
    rw [List.length_cons, ih hbs]

theorem romRead_lt {s : State} {a : Nat} {b : Byte} (h : romRead s a = some b) : a < 115 := by
  have hlt := (romRead_isSome_iff s a).mp (by rw [h]; rfl)
  have hlen : hidLen s.cfg ≤ 9 := by unfold hidLen; split <;> decide
  omega

theorem sourceBytes_of_rom {s : State} (hr : s.work.region = .rom) (n : Nat) :
    sourceBytes s n = romReads s s.work.offset.toNat n := by
  simp only [sourceBytes, hr]

theorem sourceBytes_of_reply {s : State} (hr : s.work.region = .reply) (n : Nat) : sourceBytes s n =
    if s.work.offset.toNat + n ≤ 2 then
      some (([s.work.reply0, s.work.reply1].drop s.work.offset.toNat).take n)
    else none := by
  simp only [sourceBytes, hr]

theorem sourceBytes_length {s : State} {n : Nat} {d : List Byte} (h : sourceBytes s n = some d) : d.length = n := by
  cases hr : s.work.region with
  | rom => rw [sourceBytes_of_rom hr] at h; exact romReads_length h
  | reply =>
    rw [sourceBytes_of_reply hr] at h
    split at h
    · cases h
      simp only [List.length_take, List.length_drop, List.length_cons, List.length_nil]
      omega
    · cases h

/-- The 16-bit offset of the byte at the index `i`, where it is no more than 16 bits. -/
theorem streamOffset_toNat {w : Work} {j m : Nat} (hi : w.i.toNat = j) (hm : w.offset.toNat + j = m)
    (hlt : m < 2 ^ 16) : (w.offset + w.i.setWidth 16).toNat = m := by
  rw [BitVec.toNat_add, BitVec.toNat_setWidth, hi]
  omega

theorem streamByte_of_rom {s : State} {b : Byte} {m : Nat} (hr : s.work.region = .rom)
    (hk : (s.work.offset + s.work.i.setWidth 16).toNat = m) (hb : romRead s m = some b) : streamByte s = .ok b := by
  simp only [streamByte, hr, hk, hb]

theorem streamByte_of_reply {s : State} {m : Nat} (hr : s.work.region = .reply)
    (hk : (s.work.offset + s.work.i.setWidth 16).toNat = m) : streamByte s =
      if m = 0 then .ok s.work.reply0 else if m = 1 then .ok s.work.reply1 else .error .replyIndex := by
  simp only [streamByte, hr, hk]

/-- The byte of the source at the index `i`: no offset of the source is beyond 16 bits. -/
theorem streamByte_of_source {s : State} {n j : Nat} {d : List Byte} {b : Byte} (h : sourceBytes s n = some d)
    (hj : d[j]? = some b) (hi : s.work.i.toNat = j) : streamByte s = .ok b := by
  cases hr : s.work.region with
  | rom =>
    rw [sourceBytes_of_rom hr] at h
    have hread := romReads_getElem? h hj
    have hlt := romRead_lt hread
    exact streamByte_of_rom hr (streamOffset_toNat hi rfl (by omega)) hread
  | reply =>
    rw [sourceBytes_of_reply hr] at h
    split at h
    · cases h
      rw [List.getElem?_take, List.getElem?_drop] at hj
      split at hj
      · rcases hm : s.work.offset.toNat + j with _ | _ | m
        · rw [hm] at hj; cases hj
          exact streamByte_of_reply hr (streamOffset_toNat hi hm (by decide))
        · rw [hm] at hj; cases hj
          exact streamByte_of_reply hr (streamOffset_toNat hi hm (by decide))
        · rw [hm] at hj; cases hj
      · cases hj
    · cases h

/-! ### One chunk -/

/-- `s` at a microstate of its stream with the bytes `d` of a packet of `p` bytes written to endpoint 0. -/
def State.writing (s : State) (e : Endpoint) (p : Byte) (d : List Byte) (q : Seq) : State :=
  { s.withEp0 { e with banks := e.banks.set e.fill ⟨d, false⟩ } with
    rdData := 1, work := { s.work with packet := p, i := BitVec.ofNat 8 d.length }, seq := q }

/-- Writing the chunk leaves the source. -/
theorem sourceBytes_writing (s : State) (e : Endpoint) (p : Byte) (d : List Byte) (q : Seq) (n : Nat) :
    sourceBytes (s.writing e p d q) n = sourceBytes s n := by
  simp only [sourceBytes, romReads_congr (t := s.writing e p d q) (s := s) rfl rfl]
  rfl

/-- A ready endpoint's current bank, replaced. -/
theorem Endpoint.Ready.getElem?_set {e : Endpoint} (hr : e.Ready) (b : Bank) :
    (e.banks.set e.fill b)[e.fill]? = some b :=
  List.getElem?_set_self (List.getElem?_eq_some_iff.mp hr.bank).1

/-- `WR EPDATA` on a ready endpoint whose bank holds fewer than its 32 bytes. -/
theorem Endpoint.Ready.pushData {e : Endpoint} (hr : e.Ready) {d : List Byte} (hd : d.length < 32) (b : Byte) :
    Endpoint.pushData b { e with banks := e.banks.set e.fill ⟨d, false⟩ } =
      .ok { e with banks := e.banks.set e.fill ⟨d ++ [b], false⟩ } := by
  have hbank := hr.getElem?_set ⟨d, false⟩
  have hsize : ({ e with banks := e.banks.set e.fill ⟨d, false⟩ } : Endpoint).size = 32 := by
    rw [Endpoint.size, hr.size32]; rfl
  have hpush := pushData_unread (e := { e with banks := e.banks.set e.fill ⟨d, false⟩ }) (x := b) hr.allocated
    hr.noSetup (by simp [hr.noOut])
  rw [current_of hbank, setCurrent_of hbank, hsize, if_neg (by simp [hr.ready]), if_neg hd.ne, List.set_set] at hpush
  exact hpush

theorem writing_withSelected {s : State} (h0 : s.dev.epnum = 0) (e : Endpoint) (p : Byte) (d : List Byte) (q : Seq)
    (e' : Endpoint) : (s.writing e p d q).withSelected e' = { s.withEp0 e' with
      rdData := 1, work := { s.work with packet := p, i := BitVec.ofNat 8 d.length }, seq := q } := by
  rw [withSelected_of_epsel0 (s := s.writing e p d q) h0]
  simp only [State.withEp0, State.writing, List.set_set]

section
variable {s : State} {e : Endpoint} (h0 : s.dev.epnum = 0) (he : s.eps[0]? = some e)
include h0 he

theorem writing_selected (p : Byte) (d : List Byte) (q : Seq) : (s.writing e p d q).selected =
    some { e with banks := e.banks.set e.fill ⟨d, false⟩ } :=
  selected_of_epsel0 h0 (List.getElem?_set_self (List.getElem?_eq_some_iff.mp he).1)

variable (hr : e.Ready)
include hr

/-- `STR_WAIT` with the bank ready: the chunk's size, and no byte written yet. -/
theorem strWaitStep_ready : strWaitStep s = .next (s.writing e (packetSize s.work.remaining) [] .strWrite) := by
  rw [strWaitStep, waitReady_lift h0 he hr.ready, State.writing, set_self hr.bank, withEp0_self he, hr.noSetup,
    hr.noOut]
  rfl

/-- `STR_WRITE` of the byte `b` that follows the bytes `d`, with room for it. -/
theorem strWriteStep_byte {p b : Byte} {d : List Byte} (hd : d.length < 32)
    (hb : streamByte (s.writing e p d .strWrite) = .ok b) : strWriteStep (s.writing e p d .strWrite) =
      .next (s.writing e p (d ++ [b]) (if BitVec.ofNat 8 (d.length + 1) < p then .strWrite else .strCommit)) := by
  have hop : wrEpdata b (s.writing e p d .strWrite) = .ok _ :=
    onSelected_ok (writing_selected h0 he p d .strWrite) (hr.pushData hd b)
  have hi : BitVec.ofNat 8 d.length + 1 = BitVec.ofNat 8 (d.length + 1) := by simp [BitVec.ofNat_add]
  rw [strWriteStep, hb]
  refine (finish_map_ok hop).trans ?_
  rw [writing_withSelected h0]
  simp only [advanceByte, State.writing, hi, List.length_append, List.length_singleton]

/-- `STR_COMMIT` of the bytes `d`. -/
theorem strCommitStep_bytes {d : List Byte} (hd : d.length ≤ 32) :
    strCommitStep (s.writing e (BitVec.ofNat 8 d.length) d .strCommit) = .next { s.withEp0 { e with
        txini := false, banks := e.banks.set e.fill ⟨d, true⟩, fill := (e.fill + 1) % e.nbanks } with
      rdData := 1,
      work := { s.work with
        packet := BitVec.ofNat 8 d.length, i := BitVec.ofNat 8 d.length,
        offset := s.work.offset + BitVec.ofNat 16 d.length,
        remaining := s.work.remaining - BitVec.ofNat 16 d.length },
      seq := if s.work.remaining - BitVec.ofNat 16 d.length = 0 then .ret else .strWait } := by
  have hwidth : (BitVec.ofNat 8 d.length).setWidth 16 = BitVec.ofNat 16 d.length := by
    rw [BitVec.setWidth_ofNat_of_le_of_lt (by decide) (by omega)]
  have hw : Endpoint.writeInt 0xFE { e with banks := e.banks.set e.fill ⟨d, false⟩ } = .ok _ :=
    writeInt_commit hr.ready hr.noSetup hr.noOut (hr.getElem?_set ⟨d, false⟩)
  have hop : wrEpint 0xFE (s.writing e (BitVec.ofNat 8 d.length) d .strCommit) = .ok _ :=
    onSelected_ok (writing_selected h0 he _ d .strCommit) hw
  refine (finish_map_ok hop).trans ?_
  rw [writing_withSelected h0]
  simp only [advancePacket, List.set_set, hwidth]
  rfl

/-- As many steps as bytes of the chunk are left write these after the bytes written, and come to `STR_COMMIT`. -/
theorem runInstr_writes {i : Instr} {n : Nat} {d written rest : List Byte} (hi : i.isRequest = true)
    (hc : s.ctx = .setup) (hsrc : sourceBytes s n = some d) (hd : d.length ≤ 32) (hsplit : written ++ rest = d)
    (m : Nat) :
    runInstr i (rest.length + m) (s.writing e (BitVec.ofNat 8 d.length) written
      (if rest = [] then .strCommit else .strWrite)) =
    runInstr i m (s.writing e (BitVec.ofNat 8 d.length) d .strCommit) := by
  induction rest generalizing written with
  | nil => rw [List.append_nil] at hsplit; simp [hsplit]
  | cons b rest ih =>
    have hlen : written.length + 1 + rest.length = d.length := by
      rw [← hsplit, List.length_append, List.length_cons]; omega
    have hbyte : streamByte (s.writing e (BitVec.ofNat 8 d.length) written .strWrite) = .ok b := by
      have hi : (BitVec.ofNat 8 written.length).toNat = written.length := Nat.mod_eq_of_lt (by omega)
      exact streamByte_of_source ((sourceBytes_writing ..).trans hsrc) (by simp [← hsplit]) hi
    have hnext : (if BitVec.ofNat 8 (written.length + 1) < BitVec.ofNat 8 d.length then Seq.strWrite else .strCommit) =
        if rest = [] then .strCommit else .strWrite := by
      have hlt : BitVec.ofNat 8 (written.length + 1) < BitVec.ofNat 8 d.length ↔ ¬rest = [] := by
        rw [BitVec.lt_def, BitVec.toNat_ofNat, BitVec.toNat_ofNat, Nat.mod_eq_of_lt (by omega),
          Nat.mod_eq_of_lt (by omega), ← List.length_eq_zero_iff]
        omega
      simp only [hlt, ite_not]
    have hstep : exec i (s.writing e (BitVec.ofNat 8 d.length) written .strWrite) =
        .next (s.writing e (BitVec.ofNat 8 d.length) (written ++ [b])
          (if rest = [] then .strCommit else .strWrite)) := by
      refine exec_of_microstep hi hc rfl ⟨rfl, nofun⟩ fun q => ?_
      rw [← hnext]; exact strWriteStep_byte h0 he hr (by omega) hbyte
    rw [if_neg (List.cons_ne_nil b rest), List.length_cons, Nat.add_right_comm, runInstr_of_step _ hstep]
    exact ih (by simpa using hsplit)

end

/-! ### The device descriptor -/

/-- `s` at `STR_WAIT` with the first `n` bytes of the device descriptor to send. -/
def State.sendingDevice (s : State) (n : Nat) : State :=
  { s with work := { s.work with remaining := BitVec.ofNat 16 n, region := .rom, offset := 0 }, seq := .strWait }

theorem sourceBytes_sendingDevice {s : State} {m n : Nat} (hr : s.rom = []) (hn : n ≤ 18) :
    sourceBytes (s.sendingDevice m) n = some ((deviceDescriptor s.cfg).take n) :=
  romReads_of_image (s := s.sendingDevice m) hr (pre := [])
    (post := (deviceDescriptor s.cfg).drop n ++ configurationStream s.cfg ++ reportDescriptor)
    (by rw [← List.append_assoc, List.nil_append, ← List.append_assoc, List.take_append_drop]; rfl) rfl
    (List.length_take_of_le hn)

end Sys2Proof.Machine

namespace Sys2Proof.Proofs

open Sys2Proof.Machine

/-- Settles O57: the wait, the writes, the commit. -/
theorem streamPacket : Obligations.StreamPacket := by
  intro i s e d hi hc hs h0 he hr hrem hsrc
  have hlen : d.length = min s.work.remaining.toNat 32 := sourceBytes_length hsrc
  have hpos : s.work.remaining.toNat ≠ 0 := fun h => hrem (BitVec.eq_of_toNat_eq h)
  have hwait : exec i s = .next (s.writing e (BitVec.ofNat 8 d.length) []
      (if d = [] then .strCommit else .strWrite)) := by
    have hne : d ≠ [] := by rw [← List.length_pos_iff]; omega
    refine exec_of_microstep hi hc hs (by decide) fun q => ?_
    rw [microstep, hs, if_neg hne, hlen]; exact strWaitStep_ready h0 he hr
  have hcommit : exec i (s.writing e (BitVec.ofNat 8 d.length) d .strCommit) = .next _ :=
    exec_of_microstep hi hc rfl ⟨rfl, nofun⟩ fun q => strCommitStep_bytes h0 he hr (by omega)
  have hlast : (s.work.remaining - BitVec.ofNat 16 d.length = 0) ↔ ¬32 < s.work.remaining.toNat := by
    bv_omega
  rw [runInstr_of_step _ hwait, runInstr_writes h0 he hr hi hc hsrc (by omega) (List.nil_append d),
    runInstr_of_step _ hcommit]
  simp only [hlast, ite_not]; rfl

/-- The first bytes of the device descriptor, at most its 18, are one chunk, and the last. -/
theorem runInstr_sendingDevice {i : Instr} {s : State} {e : Endpoint} {n : Nat} (hi : i.isRequest = true)
    (hc : s.ctx = .setup) (h0 : s.dev.epnum = 0) (he : s.eps[0]? = some e) (hr : e.Ready) (hrom : s.rom = [])
    (hpos : 0 < n) (hn : n ≤ 18) : ∃ t, runInstr i (n + 2) (s.sendingDevice n) = .next t ∧ t.seq = .ret ∧
      t.eps = s.eps.set 0 { e with
        txini := false, fill := (e.fill + 1) % e.nbanks,
        banks := e.banks.set e.fill ⟨(deviceDescriptor s.cfg).take n, true⟩ } := by
  have hrem : (s.sendingDevice n).work.remaining.toNat = n := Nat.mod_eq_of_lt (by omega)
  have hne : (s.sendingDevice n).work.remaining ≠ 0 := fun h => hpos.ne' (hrem.symm.trans (congrArg BitVec.toNat h))
  have hlen : ((deviceDescriptor s.cfg).take n).length = n := List.length_take_of_le hn
  have hsend := streamPacket i (s.sendingDevice n) e _ hi hc rfl h0 he hr hne
    (by rw [hrem, Nat.min_eq_left (by omega)]; exact sourceBytes_sendingDevice hrom hn)
  rw [hlen] at hsend
  exact ⟨_, hsend, if_neg (by rw [hrem]; omega), rfl⟩

/-- Settles O58: dispatch, lookup, and the descriptor's first bytes as the stream's one chunk. -/
theorem deviceDescriptorSent : Obligations.DeviceDescriptorSent := by
  intro s e wV wI wL hc hs h0 he hr hrom ht hl
  have hpos : wL.toNat ≠ 0 := fun h => hl (BitVec.eq_of_toNat_eq h)
  have hdispatch : exec (.getDescriptor wV wI wL) s = .next { s with seq := .gdLookup } := requestStep_dispatch hc hs
  have hlookup : exec (.getDescriptor wV wI wL) { s with seq := .gdLookup } =
      .next (s.sendingDevice (min wL.toNat 18)) := by
    have h := (getDescriptorLookup { s with seq := .gdLookup } wV wI wL hc rfl).1 (.inl ht)
    have hlen : min (min wL.toNat 255) 18 = min wL.toNat 18 := by omega
    simp only [ht, if_true] at h
    rw [hlen, if_pos (by omega)] at h
    exact h
  obtain ⟨t, hsend, hseq, heps⟩ := runInstr_sendingDevice (i := .getDescriptor wV wI wL) (n := min wL.toNat 18) rfl hc
    h0 he hr hrom (by omega) (by omega)
  have hbytes : (deviceDescriptor s.cfg).take wL.toNat = (deviceDescriptor s.cfg).take (min wL.toNat 18) :=
    List.take_eq_take_min ..
  refine ⟨t, (runInstr_of_step _ hdispatch).trans ((runInstr_of_step _ hlookup).trans hsend), hseq, ?_⟩
  rw [heps, ← hbytes]; rfl

end Sys2Proof.Proofs


/-! SUPPORT. The parsing part of the SETUP handler (44_control_sequencer.md R291 to R294) as a run of the machine: the
entry, the eight reads, the acknowledge. -/

namespace Sys2Proof.Machine

theorem run_of_step {s t : State} (n : Nat) (h : step s = .next t) :
    Host.Core.run core (n + 1) s = Host.Core.run core n t := by
  simp only [Host.Core.run, core, h]

/-- The engine's turn before the request is dispatched: a microstate of the parsing. -/
theorem step_of_parsing {s t : State} {ts : List Turn} (ht : s.turns = .engine :: ts) (hc : s.ctx = .setup)
    (hq : s.seq.inRequest = false) (h : microstep s.latch { s with turns := ts } = .next t) : step s = .next t := by
  have hr : requestRuns { s with turns := ts } = false := requestRuns_eq_false (.inr (.inr hq))
  rw [step_of_engineStep (nextAction_of_turn ht) hr, ← h]
  simp only [engineStep, hc]

/-- R378 with no bus event pending: a SETUP enters its handler, whose first microstate selects endpoint 0. -/
theorem handlerEntry_setup {s : State} (hb : busResetPending s = false) (hf : sofPending s = false)
    (hs : setupPending s = true) : handlerEntry s =
      .next { s with ctx := .setup, seq := .sRd 0, dev := { s.dev with epnum := 0 } } := by
  simp only [handlerEntry, hb, hf, hs]
  rfl

/-- `s` in the parsing, at a microstate, with the turns left, the latch and the value read so far, and the bytes left in
endpoint 0's bank. -/
def State.parsing (s : State) (e : Endpoint) (bs : List Bank) (ts : List Turn) (q : Seq) (l : SetupLatch) (v : Word)
    (left : List Byte) : State :=
  { s with
    turns := ts, ctx := .setup, seq := q, dev := { s.dev with epnum := 0 }, rdData := v, latch := l
    eps := s.eps.set 0 { e with banks := ⟨left, false⟩ :: bs } }

theorem parsing_withSelected (s : State) (e : Endpoint) (bs : List Bank) (ts : List Turn) (q : Seq) (l : SetupLatch)
    (v : Word) (left : List Byte) (e' : Endpoint) : (s.parsing e bs ts q l v left).withSelected e' =
      { s.parsing e bs ts q l v left with eps := s.eps.set 0 e' } := by
  rw [withSelected_of_epsel0 rfl]
  simp only [State.withEp0, State.parsing, List.set_set]

section
variable {s : State} {e : Endpoint} {bs : List Bank} (he : s.eps[0]? = some e) (hstp : e.rxstpi = true)
  (hfill : e.fill = 0) (hok : e.cfgok = true)
include he

theorem parsing_selected (ts : List Turn) (q : Seq) (l : SetupLatch) (v : Word) (left : List Byte) :
    (s.parsing e bs ts q l v left).selected = some { e with banks := ⟨left, false⟩ :: bs } :=
  List.getElem?_set_self (List.getElem?_eq_some_iff.mp he).1

include hstp hfill

/-- `S_ACK` (R294): the three flags cleared, nothing sent. -/
theorem step_ack {ts : List Turn} {l : SetupLatch} {v : Word} :
    step (s.parsing e bs (.engine :: ts) .sAck l v []) = .next { s.parsing e bs ts .sDispatch l v [] with
      eps := s.eps.set 0 { e with rxstpi := false, rxouti := false, txini := false, banks := ⟨[], false⟩ :: bs } } := by
  have hbank : (⟨[], false⟩ :: bs)[e.fill]? = some ⟨[], false⟩ := by rw [hfill]; rfl
  have hwrite : Endpoint.writeInt 0xF2 { e with banks := ⟨[], false⟩ :: bs } =
      .ok { e with rxstpi := false, rxouti := false, txini := false, banks := ⟨[], false⟩ :: bs } := by
    rw [writeInt_of_bank hbank (by simp [Endpoint.writeConflicts, hstp])]
    simp [bitOf, hstp, hfill]
  have hop : wrEpint 0xF2 (s.parsing e bs ts .sAck l v []) = .ok _ :=
    onSelected_ok (parsing_selected he ts .sAck l v []) hwrite
  refine step_of_parsing rfl rfl rfl ((thenGo_ok hop).trans ?_)
  rw [parsing_withSelected]; rfl

include hok

/-- `S_RD<k>` (R293): the next byte of the bank, into the latch. -/
theorem step_read {ts : List Turn} {k : Fin 8} {l : SetupLatch} {v : Word} {b : Byte} {left : List Byte} :
    step (s.parsing e bs (.engine :: ts) (.sRd k) l v (b :: left)) =
      .next (s.parsing e bs ts (afterRead k) (l.store k b) (b.setWidth 32) left) := by
  have hbank : (⟨b :: left, false⟩ :: bs)[e.fill]? = some ⟨b :: left, false⟩ := by rw [hfill]; rfl
  have hcur : Endpoint.current { e with banks := ⟨b :: left, false⟩ :: bs } = b :: left := by
    rw [current_of hbank]
  have hpop : Endpoint.popData { e with banks := ⟨b :: left, false⟩ :: bs } =
      .ok (b, { e with banks := ⟨left, false⟩ :: bs }) := by
    rw [popData_of_cons (e := { e with banks := ⟨b :: left, false⟩ :: bs }) hok (.inl hstp) hcur, setCurrent_of hbank]
    simp only [hfill, List.set_cons_zero]
  have hop := rdEpdata_ok (parsing_selected he ts (.sRd k) l v (b :: left)) hpop
  have hbyte : (b.setWidth 32).setWidth 8 = b := by simp
  refine step_of_parsing rfl rfl rfl ((finish_map_ok hop).trans ?_)
  rw [parsing_withSelected, storeRead, returns_rdData, hbyte]; rfl

end

end Sys2Proof.Machine

namespace Sys2Proof.Proofs

open Sys2Proof.Machine

/-- Settles O48: the entry, one read for each byte, the acknowledge. -/
theorem setupParsed : Obligations.SetupParsed := by
  intro s e d bs hc hbus hsof he hstp hstpe hok hfill hbanks hts
  have hentry : step s =
      .next (s.parsing e bs (List.replicate 9 .engine) (.sRd 0) s.latch s.rdData (Packet8.bytes d)) := by
    have hself : s.eps.set 0 { e with banks := ⟨Packet8.bytes d, false⟩ :: bs } = s.eps := by
      have hbytes : e.banks = ⟨Packet8.bytes d, false⟩ :: bs := hbanks
      rw [← hbytes]; exact congrArg State.eps (withEp0_self he)
    have hr : requestRuns { s with turns := List.replicate 9 .engine } = false := requestRuns_eq_false (.inr (.inl hc))
    rw [step_of_engineStep (nextAction_of_turn hts) hr, State.parsing, hself]
    simp only [engineStep, hc]
    refine handlerEntry_setup ?_ ?_ ?_
    · simpa [busResetPending] using hbus
    · simpa [sofPending] using hsof
    · simp [setupPending, he, hstp, hstpe]
  have read {k : Fin 8} {ts : List Turn} {l : SetupLatch} {v : Word} {b : Byte} {left : List Byte} (n : Nat) :=
    run_of_step n (step_read (bs := bs) (ts := ts) (k := k) (l := l) (v := v) (b := b) (left := left) he hstp hfill hok)
  refine (run_of_step 9 hentry).trans <| (read 8).trans <| (read 7).trans <| (read 6).trans <| (read 5).trans <|
    (read 4).trans <| (read 3).trans <| (read 2).trans <| (read 1).trans <|
    (run_of_step 0 (step_ack he hstp hfill)).trans ?_
  simp only [Host.Core.run, State.parsing, SetupLatch.store, loByte_half]
  rfl

end Sys2Proof.Proofs

/-! SUPPORT. The writers of the enumeration state (45_enumeration.md R351): no event, no register operation and no
microstate but `BR_STATE`, `SA_APPLY` and `SC_STORE`; and which request the engine's turn runs. -/

namespace Sys2Proof.Machine

/-! ### The microstates -/

/-- A register operation, then a move of the engine that leaves the enumeration state. A fault leaves it too (R351). -/
theorem finish_sameEnum {s t : State} {r : OpResult} {g : State → State} (h : finish s (r.map g) = .next t)
    (hr : ∀ u, r = .ok u → OpFrame s u) (hg : ∀ u, (g u).enum = u.enum) : t.enum = s.enum := by
  rcases finish_next h with h | ⟨k, -, rfl⟩
  · obtain ⟨u, hu, rfl⟩ := map_ok_iff.mp h
    rw [hg, (hr u hu).same]
  · rfl

theorem waitReady_sameEnum {s t : State} {g : State → State} (h : waitReady s g = .next t)
    (hg : ∀ u, (g u).enum = u.enum) : t.enum = s.enum := by
  unfold waitReady at h
  split at h
  · exact finish_sameEnum h (fun _ => readSelected_frame) hg
  · cases h; rfl

/-- What an engine step with the request fields `q` does to the enumeration state: the rows of R351's table by the
microstate that writes them. -/
inductive EnumRow (q : SetupLatch) (s t : State) : Prop where
  | same (h : t.enum = s.enum)
  | reset (hs : s.seq = .brState) (h : t.enum = ⟨.default, 0, 0⟩)
  | address (hs : s.seq = .saApply) (h : t.enum = ⟨.addressed, s.work.pendingAddr, s.enum.configValue⟩)
  | config (hs : s.seq = .scStore) (h : t.enum =
      ⟨if cfgOf q.wValue ≠ 0 then .configured else if s.dev.adden then .addressed else .default,
        s.enum.assignedAddr, cfgOf q.wValue⟩)

/-- `BR_STATE`, `SA_APPLY` and `SC_STORE` write their row; every other microstate leaves the enumeration state. -/
theorem microstep_enumRow {q : SetupLatch} {s t : State} (h : microstep q s = .next t) : EnumRow q s t := by
  have goes (q : Seq) : ∀ u, (goto q u).enum = u.enum := goto_enum q
  have dev {d : DevRegs} : ∀ u, (Except.ok { s with dev := d } : OpResult) = .ok u → OpFrame s u := by
    rintro u ⟨⟩; exact .dev d s
  have ret {v : Byte} : ∀ u, (Except.ok (returns v s) : OpResult) = .ok u → OpFrame s u := by
    rintro u ⟨⟩; exact .returns v s
  have sel {f : Endpoint → Except FaultKind Endpoint} : ∀ u, onSelected f s = .ok u → OpFrame s u :=
    fun _ => onSelected_frame
  cases hs : s.seq <;> simp only [microstep, hs, brClrStep, sSelStep] at h
  case brState => cases h; exact .reset hs rfl
  case saApply => rw [saApplyStep_eq] at h; cases h; exact .address hs rfl
  case scStore => rw [scStoreStep_eq] at h; cases h; exact .config hs rfl
  all_goals apply EnumRow.same
  case idle | halted | sDispatch | saSet | gcLoad | gsLoad | ret => cases h; rfl
  case gdLookup => unfold gdLookupStep at h; split at h <;> (cases h; rfl)
  case initLock =>
    unfold initLockStep at h
    split at h
    · cases h; rfl
    · split at h
      · exact finish_sameEnum h ret (goes _)
      · cases h; rfl
  case initPll | initCfgSel | initIen | brClr | brCfgSel | sSel | scCfgSel => exact finish_sameEnum h dev (goes _)
  case initAttach | sofClr => exact finish_sameEnum h dev returnIdle_enum
  case initCfgEn | brCfgEn | scCfgEn | stall | initCfgType | brCfgType | scCfgType | initCfgAlloc | brCfgAlloc |
      scCfgAlloc | initCfgIen | brCfgIen | scCfgIen | sAck | saZc | scZc =>
    exact finish_sameEnum h sel (goes _)
  case strCommit => exact finish_sameEnum h sel fun _ => rfl
  case scTog => exact finish_sameEnum h (fun _ => wrEptogrst_frame) (goes _)
  case sRd k => exact finish_sameEnum h (fun _ => rdEpdata_frame) (storeRead_enum k)
  case strWrite =>
    unfold strWriteStep at h
    split at h
    · exact finish_sameEnum h sel fun _ => rfl
    · cases h
  case saZw | saWait | scZw => exact waitReady_sameEnum h (goes _)
  case strWait => exact waitReady_sameEnum h startPacket_enum

theorem engineStep_enumRow {s t : State} (h : engineStep s = .next t) : EnumRow s.latch s t := by
  unfold engineStep at h
  split at h
  · cases h; exact .same rfl
  · rcases handlerEntry_cases h with rfl | ⟨d, ht, -⟩
    · exact .same rfl
    · exact .same (by rw [ht])
  all_goals exact microstep_enumRow h

/-! ### The request of a step -/

theorem engineAction_run_iff {i : Instr} {s u : State} :
    engineAction s = .run i u ↔ requestRuns s = true ∧ s.latch.request = i ∧ s = u := by
  unfold engineAction
  split
  · next hr => simp [hr]
  · next hr => simp [hr]

/-- A request that a step executes is the running one, the latch's (30_encoding.md R104). -/
theorem nextAction_request {i : Instr} {s u : State} (h : nextAction s = .run i u) (hi : i.isRequest = true) :
    s.engineTurn ∧ requestRuns u = true ∧ u.latch.request = i := by
  have ht := (nextAction_runOrigin h).engineTurn hi
  have latch {v : State} (hv : engineAction v = .run i u) : requestRuns u = true ∧ u.latch.request = i := by
    obtain ⟨hr, hq, rfl⟩ := engineAction_run_iff.mp hv
    exact ⟨hr, hq⟩
  refine ⟨ht, ?_⟩
  rcases ht with ht | ⟨ts, ht⟩
  · cases he : engineEnabled s with
    | true => exact latch (nextAction_of_empty_enabled ht he ▸ h)
    | false =>
      cases hn : firstTxReady s with
      | none => simp [nextAction, ht, he, hn] at h
      | some n => simp only [nextAction, ht, he, hn] at h; cases h; cases hi
  · rw [nextAction_of_turn ht] at h; exact latch h

/-- Only the engine, in its turn, writes the enumeration state. -/
theorem step_enumRow {s t : State} (h : step s = .next t) :
    t.enum = s.enum ∨ (s.engineTurn ∧ EnumRow s.latch { s with turns := s.turns.tail } t) := by
  rcases step_cases h with ⟨i, hn, hx⟩ | ⟨hn, hx⟩ | ⟨-, rfl⟩
  · cases hi : i.isRequest with
    | false => exact .inl (exec_not_request hi hx).enum
    | true =>
      obtain ⟨ht, hr, rfl⟩ := nextAction_request hn hi
      rw [exec_latch_request_eq_microstep hr] at hx
      exact .inr ⟨ht, microstep_enumRow hx⟩
  · exact .inr ⟨nextAction_engine hn, engineStep_enumRow hx⟩
  · exact .inl rfl

end Sys2Proof.Machine

namespace Sys2Proof.Proofs

open Sys2Proof.Machine

/-- Settles O16: a step leaves the enumeration state, or is the engine's and writes the row of its microstate. -/
theorem enumerationTable : Obligations.EnumerationTable := by
  refine ⟨fun _ => rfl, fun s t h => ?_⟩
  rcases step_enumRow h with he | ⟨ht, he | ⟨hs, he⟩ | ⟨hs, he⟩ | ⟨hs, he⟩⟩
  · exact .inl he
  · exact .inl he
  · exact .inr (.inl ⟨ht, hs, he⟩)
  · exact .inr (.inr (.inl ⟨ht, hs, he⟩))
  · exact .inr (.inr (.inr ⟨ht, hs, he⟩))

end Sys2Proof.Proofs

/-! SUPPORT. The handlers (60_exceptions.md): the entry at `IDLE` (R378), the engine's turn as the engine's own step,
the bus-reset handler as a run of the machine (R382), and the halted engine (R373). -/

namespace Sys2Proof.Machine

/-! ### The entry (R378) -/

theorem busResetPending_iff {s : State} : busResetPending s = true ↔ s.dev.eorsti = true ∧ s.dev.eorste = true := by
  simp [busResetPending]

theorem sofPending_iff {s : State} : sofPending s = true ↔ s.dev.sofi = true ∧ s.dev.sofe = true := by
  simp [sofPending]

theorem setupPending_iff {s : State} :
    setupPending s = true ↔ ∃ e, s.eps[0]? = some e ∧ e.rxstpi = true ∧ e.rxstpe = true := by
  cases he : s.eps[0]? <;> simp [setupPending, he]

theorem engineStep_at_idle {s : State} (h : s.ctx = .idle) : engineStep s = handlerEntry s := by
  simp only [engineStep, h]

/-- `WR DEVINT, 0xFD` clears `EORSTI` only. -/
theorem brClrStep_eq (s : State) :
    brClrStep s = .next { s with seq := .brCfgSel, dev := { s.dev with eorsti := false } } := by
  have hbits : bitOf 0xFD 0 = true ∧ bitOf 0xFD 1 = false := by decide
  refine (thenGo_ok (r := wrDevint 0xFD s) rfl).trans ?_
  rw [hbits.1, hbits.2, Bool.and_true, Bool.and_false]

/-- `WR DEVINT, 0xFE` clears `SOFI` only. -/
theorem sofClrStep_eq (s : State) :
    sofClrStep s = .next { s with ctx := .idle, seq := .idle, dev := { s.dev with sofi := false } } := by
  have hbits : bitOf 0xFE 0 = false ∧ bitOf 0xFE 1 = true := by decide
  refine (finish_map_ok (r := wrDevint 0xFE s) rfl).trans ?_
  rw [returnIdle, hbits.1, hbits.2, Bool.and_true, Bool.and_false]

theorem handlerEntry_busReset {s : State} (hb : busResetPending s = true) : handlerEntry s =
    .next { s with ctx := .busReset, seq := .brCfgSel, dev := { s.dev with eorsti := false } } := by
  rw [handlerEntry, if_pos hb, brClrStep_eq]

theorem handlerEntry_sof {s : State} (hb : busResetPending s = false) (hf : sofPending s = true) : handlerEntry s =
    .next { s with ctx := .idle, seq := .idle, dev := { s.dev with sofi := false } } := by
  rw [handlerEntry, if_neg (by simp [hb]), if_pos hf, sofClrStep_eq]

theorem handlerEntry_none {s : State} (hb : busResetPending s = false) (hf : sofPending s = false)
    (hs : setupPending s = false) : handlerEntry s = .next s := by
  simp [handlerEntry, hb, hf, hs]

/-! ### The engine's turn -/

/-- Whether or not a request is dispatched, the engine's turn is the engine's step: a request that runs takes the step
of its microstate. -/
theorem step_of_engineAction {s u : State} (hn : nextAction s = engineAction u) : step s = engineStep u := by
  cases hr : requestRuns u with
  | false => exact step_of_engineStep hn hr
  | true =>
    rw [step_of_request hn hr, exec_latch_request_eq_microstep hr]
    cases hc : u.ctx with
    | halted | idle => simp [requestRuns, hc] at hr
    | init | busReset | busSof | setup => simp only [engineStep, hc]

theorem step_of_engineTurn {s : State} {ts : List Turn} (ht : s.turns = .engine :: ts) :
    step s = engineStep { s with turns := ts } :=
  step_of_engineAction (nextAction_of_turn ht)

/-! ### The bus-reset handler (R382) -/

/-- The four writes of `BR_CFG_EN` to `BR_CFG_IEN`, those of the initialisation (43_endpoint_config.md R272). -/
def Endpoint.configureControl (e : Endpoint) : Endpoint :=
  (((e.writeCtl 0x01).writeCfg0 0x00).writeCfg1 0x22).writeInten 0x08

/-- R383: after the controller's bus reset the configuration gives the endpoint of the initialisation. -/
theorem configureControl_busReset (e : Endpoint) : e.busReset.configureControl = ep0Initialised := by
  have hctl : e.busReset.writeCtl 0x01 = { e.busReset with epen := true, stallrq := false } := by
    rw [writeCtl_of_enable rfl]; rfl
  rw [Endpoint.configureControl, hctl, writeCfg0_of_unallocated rfl,
    writeCfg1_of_legal rfl rfl (by decide) (by decide)]
  rfl

/-- `s` in the bus-reset handler after `BR_CFG_SEL`: the turns left, the microstate, endpoint 0 so far, every other
endpoint as the controller's bus reset left it. -/
def State.reinitialising (s : State) (ts : List Turn) (q : Seq) (e : Endpoint) : State :=
  { s with
    turns := ts, ctx := .busReset, seq := q
    dev := { s.dev with uadd := 0, adden := false, eorsti := false, epnum := 0 }
    eps := (s.eps.map Endpoint.busReset).set 0 e }

/-- A well-formed state has the endpoints 0 to 3 (`NUM_EP` >= 4). -/
theorem State.Wf.four_le_length {s : State} (h : s.Wf) : 4 ≤ s.eps.length := by
  have hparams := h.params
  simp only [Config.wf, Bool.and_eq_true, decide_eq_true_eq] at hparams
  rw [h.count]
  exact hparams.1

theorem execBusReset_attached {s : State} (h : s.dev.detach = false) : execBusReset s = .next { s with
    dev := { s.dev with uadd := 0, adden := false, eorsti := true }, eps := s.eps.map Endpoint.busReset } := by
  rw [execBusReset, if_neg (by simp [h])]

section
variable {s : State} {e₀ : Endpoint} (he : s.eps[0]? = some e₀)
include he

/-- A write to a register of endpoint 0 in the handler. -/
theorem step_reinitialising {ts : List Turn} {q q' : Seq} {e : Endpoint} {f : Endpoint → Endpoint}
    (hq : ∀ l u, u.seq = q → microstep l u = thenGo u (onSelected (fun e => .ok (f e)) u) q') :
    step (s.reinitialising (.engine :: ts) q e) = .next (s.reinitialising ts q' (f e)) := by
  have hlen : 0 < (s.eps.map Endpoint.busReset).length := by
    rw [List.length_map]; exact (List.getElem?_eq_some_iff.mp he).1
  have hsel : (s.reinitialising ts q e).selected = some e := List.getElem?_set_self hlen
  rw [step_of_engineTurn (ts := ts) rfl]
  have hop := onSelected_ok (f := fun e => .ok (f e)) hsel rfl
  refine (hq _ (s.reinitialising ts q e) rfl).trans ((thenGo_ok hop).trans ?_)
  rw [withSelected_of_epsel0 rfl]
  simp only [State.withEp0, State.reinitialising, List.set_set]

/-- The controller's part of a bus reset at `IDLE`, the entry, and the selection of endpoint 0. -/
theorem run_busReset_entry {ts : List Turn} (n : Nat) (hc : s.ctx = .idle) (hd : s.dev.detach = false)
    (hen : s.dev.eorste = true) (ht : s.turns = .bus [0x04] :: .engine :: .engine :: ts) :
    Host.Core.run core (n + 3) s = Host.Core.run core n (s.reinitialising ts .brCfgEn e₀.busReset) := by
  let u : State := { s with
    turns := .engine :: .engine :: ts
    dev := { s.dev with uadd := 0, adden := false, eorsti := true }
    eps := s.eps.map Endpoint.busReset }
  let v : State := { u with
    turns := .engine :: ts, ctx := .busReset, seq := .brCfgSel, dev := { u.dev with eorsti := false } }
  have hreset : step s = .next u := by
    rw [step_of_record_ok (nextAction_of_turn ht) (show decode .bus [0x04] = .ok .busReset [] from rfl)]
    exact execBusReset_attached (s := { s with turns := .engine :: .engine :: ts }) hd
  have hentry : step u = .next v := by
    rw [step_of_engineTurn rfl, engineStep_at_idle (s := { u with turns := .engine :: ts }) hc]
    exact handlerEntry_busReset (s := { u with turns := .engine :: ts }) (busResetPending_iff.mpr ⟨rfl, hen⟩)
  have hself : (s.eps.map Endpoint.busReset).set 0 e₀.busReset = s.eps.map Endpoint.busReset := by
    obtain ⟨hlt, rfl⟩ := List.getElem?_eq_some_iff.mp he
    rw [← List.map_set, List.set_getElem_self]
  have hselect : step v = .next (s.reinitialising ts .brCfgEn e₀.busReset) := by
    rw [step_of_engineTurn rfl, State.reinitialising, hself]
    rfl
  rw [run_of_step _ hreset, run_of_step _ hentry, run_of_step _ hselect]

theorem run_configureControl {ts : List Turn} (n : Nat) (e : Endpoint) :
    Host.Core.run core (n + 4) (s.reinitialising (.engine :: .engine :: .engine :: .engine :: ts) .brCfgEn e) =
      Host.Core.run core n (s.reinitialising ts .brState e.configureControl) := by
  have write {ts : List Turn} {q : Seq} {e : Endpoint} (m : Nat) (q' : Seq) (f : Endpoint → Endpoint)
      (hq : ∀ l u, u.seq = q → microstep l u = thenGo u (onSelected (fun e => .ok (f e)) u) q') :=
    run_of_step m (step_reinitialising (ts := ts) (e := e) he hq)
  rw [write (n + 3) .brCfgType (·.writeCtl 0x01) fun l u h => by rw [microstep, h]; rfl,
    write (n + 2) .brCfgAlloc (·.writeCfg0 0x00) fun l u h => by rw [microstep, h]; rfl,
    write (n + 1) .brCfgIen (·.writeCfg1 0x22) fun l u h => by rw [microstep, h]; rfl,
    write n .brState (·.writeInten 0x08) fun l u h => by rw [microstep, h]; rfl]
  rfl

end

/-! ### The halted engine (R373) -/

theorem engineStep_halted {s : State} (h : s.ctx = .halted) : engineStep s = .next s := by
  simp only [engineStep, h]

theorem context_eq_halted {q : Seq} (h : q.context = .halted) : q = .halted := by
  revert h; cases q <;> simp [Seq.context]

/-- An instruction of the register ports is `RD ENGSTATUS` (R210) or an operation in the engine's place (R180). -/
theorem exec_register {i : Instr} (hi : (encode i).1 = .reg ∨ (encode i).1 = .reg32) :
    i = .rdEngstatus ∨ ∃ op, ∀ s, exec i s = engineOp op s := by
  cases i with
  | getDescriptor | setAddress | setConfiguration | getConfiguration | getStatus | stallOther | setup | inToken
  | outToken | busReset | sof | pllLocked | pllFail | txready | statusRead => rcases hi with hi | hi <;> cases hi
  | rdEngstatus => exact .inl rfl
  | _ => exact .inr ⟨_, fun _ => rfl⟩

/-- Log 16: in a halted state a register operation changes nothing but the value `RD ENGSTATUS` reads. -/
theorem exec_register_halted {i : Instr} {s t : State} (hi : (encode i).1 = .reg ∨ (encode i).1 = .reg32)
    (hc : s.ctx = .halted) (h : exec i s = .next t) : t = { s with rdData := t.rdData } := by
  rcases exec_register hi with rfl | ⟨op, hop⟩
  · cases h; rfl
  · rw [hop, engineOp_halted hc] at h; cases h; rfl

theorem decode_register_port {p : Port} {bs rest : List Byte} {i : Instr} (hp : p = .reg ∨ p = .reg32)
    (h : decode p bs = .ok i rest) : (encode i).1 = .reg ∨ (encode i).1 = .reg32 := by
  rcases hp with rfl | rfl
  · exact .inl (decodeReg_ok h).port
  · exact (decodeReg32_ok h).elim (fun he => .inr he.port) (fun he => .inl he.2.port)

/-- A step of a register record in a halted state (log 16, log 17). -/
theorem step_record_halted {s t u : State} {p : Port} {bs : List Byte} (hp : p = .reg ∨ p = .reg32)
    (hn : nextAction s = recordAction p bs u) (hc : u.ctx = .halted) (h : step s = .next t) :
    t = { u with rdData := t.rdData } := by
  cases hd : decode p bs with
  | ok i rest =>
    rw [step_of_record_ok hn hd] at h
    exact exec_register_halted (decode_register_port hp hd) hc h
  | reject x => rw [step_of_record_reject hn hd] at h; cases h

/-- What no step of a halted state writes. -/
structure StaysHalted (s t : State) : Prop where
  ctx : t.ctx = .halted
  seq : t.seq = .halted
  latch : t.latch = s.latch
  work : t.work = s.work
  enum : t.enum = s.enum

theorem exec_staysHalted {i : Instr} {s t : State} (hc : s.ctx = .halted) (hs : s.seq = .halted)
    (h : exec i s = .next t) : StaysHalted s t := by
  cases hi : i.isRequest with
  | true =>
    obtain ⟨f, q, hx⟩ := exec_of_isRequest hi s
    rw [hx, requestStep_idle (requestRuns_eq_false (.inl hc))] at h
    cases h; exact ⟨hc, hs, rfl, rfl, rfl⟩
  | false =>
    have keeps := exec_not_request hi h
    rcases keeps.control with ⟨hc', hs', -⟩ | ⟨-, hc', hs'⟩
    · exact ⟨hc'.trans hc, hs'.trans hs, keeps.latch, keeps.work, keeps.enum⟩
    · exact ⟨hc', hs', keeps.latch, keeps.work, keeps.enum⟩

theorem step_staysHalted {s t : State} (hc : s.ctx = .halted) (hs : s.seq = .halted) (h : step s = .next t) :
    StaysHalted s t := by
  rcases step_cases h with ⟨i, -, hx⟩ | ⟨-, hx⟩ | ⟨-, rfl⟩
  · obtain ⟨h1, h2, h3, h4, h5⟩ := exec_staysHalted (s := { s with turns := s.turns.tail }) hc hs hx
    exact ⟨h1, h2, h3, h4, h5⟩
  · rw [engineStep_halted (s := { s with turns := s.turns.tail }) hc] at hx
    cases hx; exact ⟨hc, hs, rfl, rfl, rfl⟩
  · exact ⟨hc, hs, rfl, rfl, rfl⟩

/-- R373: `ENGSTATUS` shows `HALTED` and `FAULT` in a well-formed halted state. -/
theorem engstatus_halted {s : State} (hw : s.Wf) (hc : s.ctx = .halted) :
    (engstatus s).getLsbD 24 = true ∧ (engstatus s).getLsbD 25 = true := by
  obtain ⟨hhalted, hfault⟩ := engstatus_bits s
  have hne : s.faults ≠ [] := hw.halted.mp hc
  exact ⟨by rw [hhalted, hc]; rfl, by rw [hfault]; simpa using hne⟩

end Sys2Proof.Machine

namespace Sys2Proof.Proofs

open Sys2Proof.Machine

/-- Settles O46: each condition selects its branch of `handlerEntry`, whose first microstate is one register write. -/
theorem handlerEntry : Obligations.HandlerEntry := by
  intro s hc bus frame request
  have off {p : Prop} {b : Bool} (hi : b = true ↔ p) (hp : ¬p) : b = false := Bool.eq_false_iff.mpr (mt hi.mp hp)
  rw [engineStep_at_idle hc]
  refine ⟨fun hb => ?_, fun hb hf => ?_, fun hb hf hr => ?_, fun hb hf hr => ?_⟩
  · exact handlerEntry_busReset (busResetPending_iff.mpr hb)
  · exact handlerEntry_sof (off busResetPending_iff hb) (sofPending_iff.mpr hf)
  · exact handlerEntry_setup (off busResetPending_iff hb) (off sofPending_iff hf) (setupPending_iff.mpr hr)
  · exact handlerEntry_none (off busResetPending_iff hb) (off sofPending_iff hf) (off setupPending_iff hr)

/-- Settles O15: no instruction and no engine step leaves a halted state, and there the engine's turn and a register
record have no effect of their own. -/
theorem haltedEngine : Obligations.HaltedEngine := by
  intro s t hw hc h
  have hs : s.seq = .halted := context_eq_halted (hw.context.symm.trans hc)
  have stays := step_staysHalted hc hs h
  obtain ⟨hhalted, hfault⟩ := engstatus_halted (step_wf hw h) stays.ctx
  refine ⟨stays.ctx, stays.seq, stays.latch, stays.work, stays.enum, hhalted, hfault, fun ts ht => ?_,
    fun bs ts ht => ?_⟩
  · have hsame := (step_of_engineTurn ht).trans (engineStep_halted hc)
    rw [h] at hsame; cases hsame; rfl
  · rcases ht with ht | ht
    · exact step_record_halted (.inl rfl) (nextAction_of_turn ht) hc h
    · exact step_record_halted (.inr rfl) (nextAction_of_turn ht) hc h

/-- Settles O47: the reset and the entry, the four writes to endpoint 0, `BR_STATE`; the four writes make the endpoint
of the initialisation (`configureControl_busReset`). -/
theorem busResetReinitialises : Obligations.BusResetReinitialises := by
  intro s hw hc hd hen ht
  have hlen : 0 < s.eps.length := Nat.lt_of_lt_of_le (by decide) hw.four_le_length
  have he : s.eps[0]? = some s.eps[0] := List.getElem?_eq_getElem hlen
  have hstate : step (s.reinitialising [.engine] .brState ep0Initialised) =
      .next (returnIdle { s.reinitialising [] .brState ep0Initialised with enum := ⟨.default, 0, 0⟩ }) :=
    step_of_engineTurn rfl
  refine (run_busReset_entry he 5 hc hd hen ht).trans ((run_configureControl he 1 _).trans ?_)
  rw [configureControl_busReset]
  refine (run_of_step 0 hstate).trans ?_
  simp only [Host.Core.run, State.reinitialising, returnIdle, hc]
  rfl

end Sys2Proof.Proofs

/-! SUPPORT. The engine's microprogram keeps its invariant (60_exceptions.md R375). `EngineOk` is taken apart into what
it says of `EPSEL`, of each endpoint and of the stream; then every microstate, every event and every step keeps them. -/

namespace Sys2Proof.Machine

/-! ### The invariant by parts -/

/-- What the microprogram keeps of `EPSEL` at a microstate. -/
structure SelectionOk (q : Seq) (p : BitVec 3) : Prop where
  parsed : q ≠ .sSel
  selected : p = 0 ∨ p = 3
  onEp0 : q.onEp0 = true → p = 0
  onEp3 : q.onEp3 = true → p = 3

/-- What it keeps of endpoint 0. -/
structure ControlOk (q : Seq) (w : Work) (e : Endpoint) : Prop where
  type : e.eptype = 0
  layout : e.cfgok = true → e.epsize = 2 ∧ e.epbk = 0
  bank : e.cfgok = true → BankOk q w e

/-- What it keeps of endpoint `n`. -/
structure EndpointOk (q : Seq) (w : Work) (n : Nat) (e : Endpoint) : Prop where
  control : n = 0 → ControlOk q w e
  other : n ≠ 0 → e.cfgok = true → n = 3 ∧ e.eptype = 3
  keyboard : n = 3 → q = .scCfgAlloc → e.eptype = 3

/-- What it keeps of all endpoints. -/
def EndpointsOk (q : Seq) (w : Work) (eps : List Endpoint) : Prop :=
  ∀ n e, eps[n]? = some e → EndpointOk q w n e

theorem EngineOk.selection {s : State} (h : EngineOk s) : SelectionOk s.seq s.dev.epnum :=
  ⟨h.parsed, h.selected, h.onEp0, h.onEp3⟩

theorem EngineOk.endpoints {s : State} (h : EngineOk s) : EndpointsOk s.seq s.work s.eps := fun n e he =>
  { control := fun hn => by
      subst hn
      obtain ⟨htype, hlayout⟩ := h.control e he
      exact ⟨htype, hlayout, h.bank e he⟩
    other := h.others n e he
    keyboard := fun hn hq => by subst hn; exact h.keyboard hq e he }

theorem EngineOk.of_parts {s : State} (hsel : SelectionOk s.seq s.dev.epnum) (heps : EndpointsOk s.seq s.work s.eps)
    (hstr : StreamOk s.seq s.work) : EngineOk s where
  parsed := hsel.parsed
  selected := hsel.selected
  onEp0 := hsel.onEp0
  onEp3 := hsel.onEp3
  keyboard hq e he := (heps 3 e he).keyboard rfl hq
  others n e he := (heps n e he).other
  control e he := ⟨((heps 0 e he).control rfl).type, ((heps 0 e he).control rfl).layout⟩
  bank e he := ((heps 0 e he).control rfl).bank
  stream := hstr

/-! ### Moves between microstates -/

/-- The move from `q` to `q'` asks nothing new of endpoint 0's bank. -/
abbrev Seq.Passes (q q' : Seq) : Prop :=
  (∀ k, q' ≠ .sRd k) ∧ q' ≠ .strWrite ∧ q ≠ .strWrite ∧ q ≠ .strCommit ∧
    (q'.inRequest = true → q.inRequest = true) ∧
    (q'.context ≠ .setup → q.context ≠ .setup ∨ q.inRequest = true)

/-- The move from `q` to `q'` asks nothing new of `EPSEL`. -/
abbrev Seq.KeepsSelection (q q' : Seq) : Prop :=
  q' ≠ .sSel ∧ (q'.onEp0 = true → q.onEp0 = true) ∧ (q'.onEp3 = true → q.onEp3 = true)

/-- The move from `q` to `q'` asks nothing new at all. -/
abbrev Seq.Moves (q q' : Seq) : Prop :=
  q.Passes q' ∧ q.KeepsSelection q' ∧ q' ≠ .scCfgAlloc ∧ q'.streams = false

theorem SelectionOk.move {q q' : Seq} {p : BitVec 3} (h : SelectionOk q p) (hm : q.KeepsSelection q') :
    SelectionOk q' p := by
  obtain ⟨hparsed, h0, h3⟩ := hm
  exact ⟨hparsed, h.selected, fun hq => h.onEp0 (h0 hq), fun hq => h.onEp3 (h3 hq)⟩

theorem SelectionOk.at_zero {q : Seq} (hs : q ≠ .sSel) (h3 : q.onEp3 = false) : SelectionOk q 0 :=
  ⟨hs, .inl rfl, fun _ => rfl, fun hq => absurd hq (by simp [h3])⟩

theorem SelectionOk.at_three {q : Seq} (hs : q ≠ .sSel) (h0 : q.onEp0 = false) : SelectionOk q 3 :=
  ⟨hs, .inr rfl, fun hq => absurd hq (by simp [h0]), fun _ => rfl⟩

theorem BankOk.pass {q q' : Seq} {w w' : Work} {e : Endpoint} (h : BankOk q w e) (hp : q.Passes q') :
    BankOk q' w' e := by
  obtain ⟨hread, hwrite', hwrite, hcommit, hreq, hctx⟩ := hp
  exact {
    owned := h.owned
    reading := fun k hk => absurd hk (hread k)
    acked := fun hq => h.acked (hreq hq)
    unread := fun hq hs => (hctx hq).elim (fun hq => h.unread hq hs) (fun hq => by rw [h.acked hq] at hs; cases hs)
    writing := fun hq => absurd hq hwrite'
    clean := fun _ _ => h.clean hwrite hcommit }

/-- With no flag of ownership set, nothing is asked of the bank outside `S_RD<k>` and `STR_WRITE`. -/
theorem BankOk.of_quiet {q : Seq} {w : Work} {e : Endpoint} (ht : e.txini = false) (hs : e.rxstpi = false)
    (hread : ∀ k, q ≠ .sRd k) (hwrite : q ≠ .strWrite) : BankOk q w e where
  owned hx := by simp [ht, hs] at hx
  reading k hk := absurd hk (hread k)
  acked _ := hs
  unread _ hx := by rw [hs] at hx; cases hx
  writing hq := absurd hq hwrite
  clean _ _ hx := by rw [ht] at hx; cases hx

/-- The two endpoints differ only in what `WR EPCTL`, `WR EPINTEN` and `WR EPTOGRST` write. -/
def Endpoint.SameBuffer (e f : Endpoint) : Prop := f = { e with
  epen := f.epen, stallrq := f.stallrq, txine := f.txine, rxoute := f.rxoute, rxstpe := f.rxstpe, toggle := f.toggle }

theorem BankOk.sameBuffer {q : Seq} {w : Work} {e f : Endpoint} (h : BankOk q w e) (hf : e.SameBuffer f) :
    BankOk q w f := by
  rw [hf]
  exact ⟨h.owned, h.reading, h.acked, h.unread, h.writing, h.clean⟩

theorem ControlOk.pass {q q' : Seq} {w w' : Work} {e f : Endpoint} (h : ControlOk q w e) (hp : q.Passes q')
    (hf : e.SameBuffer f) : ControlOk q' w' f := by
  have hc : f.cfgok = e.cfgok := by rw [hf]
  refine ⟨?_, fun hok => ?_, fun hok => ((h.bank (hc ▸ hok)).pass hp).sameBuffer hf⟩
  · rw [hf]; exact h.type
  · rw [hf]; exact h.layout (hc ▸ hok)

/-- Away from endpoint 0 a move asks for nothing but the keyboard's type at `SC_CFG_ALLOC`. -/
theorem EndpointOk.away {q q' : Seq} {w w' : Work} {n : Nat} {e f : Endpoint} (h : EndpointOk q w n e) (hn : n ≠ 0)
    (hf : e.SameBuffer f) (hq : n = 3 → q' ≠ .scCfgAlloc) : EndpointOk q' w' n f where
  control h0 := absurd h0 hn
  other _ hok := by rw [hf] at hok ⊢; exact h.other hn hok
  keyboard h3 ha := absurd ha (hq h3)

theorem EndpointOk.pass {q q' : Seq} {w w' : Work} {n : Nat} {e f : Endpoint} (h : EndpointOk q w n e)
    (hp : q.Passes q') (hf : e.SameBuffer f) (hq : n = 3 → q' ≠ .scCfgAlloc) : EndpointOk q' w' n f := by
  by_cases hn : n = 0
  · exact ⟨fun h0 => (h.control h0).pass hp hf, fun h0 => absurd hn h0, fun h3 ha => absurd ha (hq h3)⟩
  · exact h.away hn hf hq

theorem EndpointOk.of_control {q : Seq} {w : Work} {e : Endpoint} (h : ControlOk q w e) : EndpointOk q w 0 e :=
  ⟨fun _ => h, fun h0 => absurd rfl h0, fun h3 => by cases h3⟩

theorem EndpointsOk.pass {q q' : Seq} {w w' : Work} {eps : List Endpoint} (h : EndpointsOk q w eps)
    (hp : q.Passes q') (hq : q' ≠ .scCfgAlloc) : EndpointsOk q' w' eps :=
  fun n e he => (h n e he).pass hp rfl fun _ => hq

/-- A move that asks something new of endpoint 0 alone. -/
theorem EndpointsOk.of_ep0 {q q' : Seq} {w w' : Work} {eps : List Endpoint} (h : EndpointsOk q w eps)
    (hq : q' ≠ .scCfgAlloc)
    (h0 : ∀ e, eps[0]? = some e → e.cfgok = true → BankOk q w e → BankOk q' w' e) : EndpointsOk q' w' eps := by
  intro n e he
  by_cases hn : n = 0
  · subst hn
    have hc := (h 0 e he).control rfl
    exact .of_control ⟨hc.type, hc.layout, fun hok => h0 e he hok (hc.bank hok)⟩
  · exact (h n e he).away hn rfl fun _ => hq

theorem EndpointsOk.set {q : Seq} {w : Work} {eps : List Endpoint} {m : Nat} {f : Endpoint}
    (hrest : ∀ n e, n ≠ m → eps[n]? = some e → EndpointOk q w n e) (hf : EndpointOk q w m f) :
    EndpointsOk q w (eps.set m f) := by
  intro n e he
  by_cases hn : n = m
  · subst hn
    rw [List.getElem?_set] at he
    simp only [if_true] at he
    split at he
    · cases he; exact hf
    · cases he
  · rw [List.getElem?_set_ne (Ne.symm hn)] at he
    exact hrest n e hn he

/-! ### A step that keeps the invariant -/

/-- What a step keeps: only reachable kinds are recorded anew, and the facts above hold until one is. -/
structure Kept (s t : State) : Prop where
  faults : ∀ k ∈ t.faults, k ∈ s.faults ∨ k.reachable = true
  running : t.ctx ≠ .halted → EngineOk t

/-- The step ends in a next state, no fault of the model and no refusal, and keeps the invariant. -/
def Runs (s : State) (r : Result) : Prop := ∃ t, r = .next t ∧ Kept s t

theorem Runs.next {s t : State} (hf : t.faults = s.faults) (h : t.ctx ≠ .halted → EngineOk t) : Runs s (.next t) :=
  ⟨t, rfl, fun _ hk => .inl (hf ▸ hk), h⟩

theorem Runs.raise {s t : State} {k : FaultKind} (hf : t.faults = s.faults) (hk : k.reachable = true) :
    Runs s (.next (raise k t)) := by
  refine ⟨_, rfl, fun j hj => ?_, fun hc => absurd rfl hc⟩
  rcases mem_insertFault.mp hj with rfl | hj
  · exact .inr hk
  · exact .inl (hf ▸ hj)

/-- A move that leaves the endpoints as they are. -/
theorem EngineOk.runs_pass {s t : State} (h : EngineOk s) {q : Seq} (q' : Seq) (hs : s.seq = q)
    (hsel : SelectionOk q' t.dev.epnum) (hstr : StreamOk q' t.work)
    (hp : q.Passes q' ∧ q' ≠ .scCfgAlloc := by decide) (ht : t.seq = q' := by rfl)
    (hf : t.faults = s.faults := by rfl) (heps : t.eps = s.eps := by rfl) : Runs s (.next t) := by
  subst hs ht
  exact .next hf fun _ => .of_parts hsel (by rw [heps]; exact h.endpoints.pass hp.1 hp.2) hstr

/-- A move that leaves the endpoints and `EPSEL` as they are, and starts no stream. -/
theorem EngineOk.runs_move {s t : State} (h : EngineOk s) {q : Seq} (q' : Seq) (hs : s.seq = q)
    (hm : q.Moves q' := by decide) (ht : t.seq = q' := by rfl) (hf : t.faults = s.faults := by rfl)
    (heps : t.eps = s.eps := by rfl) (hnum : t.dev.epnum = s.dev.epnum := by rfl) : Runs s (.next t) := by
  obtain ⟨hp, hsel, hq, hstr⟩ := hm
  refine h.runs_pass q' hs ?_ (.of_not_streams hstr) ⟨hp, hq⟩ ht hf heps
  subst hs
  rw [hnum]
  exact h.selection.move hsel

/-- `EPSEL` names an endpoint while the microprogram runs. -/
theorem EngineOk.exists_selected {s : State} (h : EngineOk s) (hw : s.Wf) : ∃ e, s.selected = some e := by
  have hlen := hw.four_le_length
  rcases h.selected with h0 | h3
  · exact ⟨_, by rw [State.selected, h0]; exact List.getElem?_eq_getElem (i := 0) (by omega)⟩
  · exact ⟨_, by rw [State.selected, h3]; exact List.getElem?_eq_getElem (i := 3) (by omega)⟩

/-! ### Register operations on endpoint 0 -/

/-- In a microstate that acts on endpoint 0 (44_control_sequencer.md R292) it is the selected endpoint. -/
theorem EngineOk.exists_ep0 {s : State} (h : EngineOk s) (hw : s.Wf) {q : Seq} (hs : s.seq = q)
    (h0 : q.onEp0 = true) : s.dev.epnum = 0 ∧ ∃ e, s.selected = some e ∧ e.Wf ∧ ControlOk q s.work e := by
  subst hs
  have hnum := h.onEp0 h0
  obtain ⟨e, he⟩ := h.exists_selected hw
  have he0 : s.eps[0]? = some e := by rw [State.selected, hnum] at he; exact he
  exact ⟨hnum, e, he, EndpointsWf.get hw.endpoints he0, (h.endpoints 0 e he0).control rfl⟩

/-- From `q` to `q'` the operation raises only reachable kinds on endpoint 0 and keeps what is kept of it. -/
def ControlWrites (f : Endpoint → Except FaultKind Endpoint) (q q' : Seq) (w w' : Work) : Prop :=
  ∀ e, e.Wf → ControlOk q w e →
    (∃ k, f e = .error k ∧ k.reachable = true) ∨ ∃ e', f e = .ok e' ∧ ControlOk q' w' e'

theorem EngineOk.runs_onEp0 {s : State} (h : EngineOk s) (hw : s.Wf) {q q' : Seq} {w' : Work} (hs : s.seq = q)
    {f : Endpoint → Except FaultKind Endpoint} {g : State → State} (h0 : q.onEp0 = true)
    (hg : ∀ e, g (s.withSelected e) = { s.withSelected e with seq := q', work := w' })
    (hf : ControlWrites f q q' s.work w') (hsel : q.KeepsSelection q') (hstr : StreamOk q' w')
    (hq : q' ≠ .scCfgAlloc) : Runs s (finish s ((onSelected f s).map g)) := by
  obtain ⟨hnum, e, he, hew, hcontrol⟩ := h.exists_ep0 hw hs h0
  subst hs
  rcases hf e hew hcontrol with ⟨k, hk, hr⟩ | ⟨e', hk, hc⟩
  · rw [onSelected_error he hk]
    exact .raise rfl hr
  · rw [onSelected_ok he hk]
    refine .next (t := g (s.withSelected e')) (by rw [hg]; rfl) fun _ => ?_
    rw [hg, withSelected_of_epsel0 hnum]
    exact .of_parts (h.selection.move hsel) (.set (fun n f hn hf => (h.endpoints n f hf).away hn rfl fun _ => hq)
      (.of_control hc)) hstr

/-- A write to a register of endpoint 0, then a microstate that starts no stream. -/
theorem EngineOk.runs_write {s : State} (h : EngineOk s) (hw : s.Wf) {q q' : Seq} (hs : s.seq = q)
    {f : Endpoint → Except FaultKind Endpoint} (h0 : q.onEp0 = true)
    (hm : q.KeepsSelection q' ∧ q' ≠ .scCfgAlloc ∧ q'.streams = false) (hf : ControlWrites f q q' s.work s.work) :
    Runs s (thenGo s (onSelected f s) q') := by
  obtain ⟨hsel, hq, hstr⟩ := hm
  exact h.runs_onEp0 hw hs h0 (fun _ => rfl) hf hsel (.of_not_streams hstr) hq

theorem writeCtl_sameBuffer {v : Byte} (hv : bitOf v 0 = true) (e : Endpoint) : e.SameBuffer (e.writeCtl v) := by
  rw [writeCtl_of_enable hv]; rfl

theorem resetToggle_sameBuffer (b : Bool) (e : Endpoint) : e.SameBuffer (e.resetToggle b) := by
  rw [resetToggle_eq]; split <;> rfl

theorem controlWrites_ctl {q q' : Seq} {w w' : Work} {v : Byte} (hv : bitOf v 0 = true) (hp : q.Passes q') :
    ControlWrites (fun e => .ok (e.writeCtl v)) q q' w w' :=
  fun e _ h => .inr ⟨_, rfl, h.pass hp (writeCtl_sameBuffer hv e)⟩

theorem controlWrites_inten {q q' : Seq} {w w' : Work} {v : Byte} (hp : q.Passes q') :
    ControlWrites (fun e => .ok (e.writeInten v)) q q' w w' :=
  fun _ _ h => .inr ⟨_, rfl, h.pass hp rfl⟩

/-- `WR EPCFG0` leaves a well-formed endpoint without an allocation (41_register_interface.md R198). -/
theorem writeCfg0_cfgok {e : Endpoint} (hw : e.Wf) (v : Byte) : (e.writeCfg0 v).cfgok = false := by
  cases ha : e.alloc with
  | true => rw [writeCfg0_of_alloc ha]
  | false =>
    rw [writeCfg0_of_unallocated ha]
    refine Bool.eq_false_iff.mpr fun hok => ?_
    obtain ⟨-, halloc, -⟩ := hw.allocated hok
    exact Bool.false_ne_true (ha.symm.trans halloc)

theorem writeCfg0_eptype (e : Endpoint) (v : Byte) : (e.writeCfg0 v).eptype = eptypeOf v := rfl

theorem controlWrites_cfg0 {q q' : Seq} {w w' : Work} :
    ControlWrites (fun e => .ok (e.writeCfg0 0x00)) q q' w w' := fun e hw _ =>
  have hoff {p : Prop} (hok : (e.writeCfg0 0x00).cfgok = true) : p := by
    rw [writeCfg0_cfgok hw] at hok; cases hok
  .inr ⟨_, rfl, writeCfg0_eptype e 0x00, hoff, hoff⟩

/-- `WR EPCFG1, 0x22`: an allocation with one empty bank of 32 bytes, or none (43_endpoint_config.md R272). -/
theorem controlWrites_cfg1 {q q' : Seq} {w w' : Work} (hread : ∀ k, q' ≠ .sRd k) (hwrite : q' ≠ .strWrite) :
    ControlWrites (fun e => .ok (e.writeCfg1 0x22)) q q' w w' := by
  intro e _ h
  refine .inr ⟨_, rfl, ?_⟩
  by_cases hen : e.epen = true
  · rw [writeCfg1_of_legal (by decide) hen (by decide) (by decide)]
    exact ⟨h.type, fun _ => ⟨rfl, rfl⟩, fun _ => .of_quiet rfl rfl hread hwrite⟩
  · rw [writeCfg1_of_illegal fun hlegal => hen hlegal.2.1]
    exact ⟨h.type, nofun, nofun⟩

/-- `WR EPINT` is a conflict, or writes the flags, the banks and `fill` (R203). -/
theorem writeInt_cases (e : Endpoint) (v : Byte) : e.writeInt v = .error .fifoConflict ∨ ∃ bs n,
    e.writeInt v = .ok { e with
      rxstpi := e.rxstpi && bitOf v 3, rxouti := e.rxouti && bitOf v 2, txini := e.txini && bitOf v 0,
      banks := bs, fill := n } := by
  cases hc : e.writeConflicts v with
  | true => exact .inl (writeInt_conflict hc)
  | false =>
    cases hb : e.banks[e.fill]? with
    | none => exact .inr ⟨_, _, writeInt_no_bank hb hc⟩
    | some b => exact .inr ⟨_, _, writeInt_of_bank hb hc⟩

/-- `WR EPINT` that clears `TXINI`, and `RXSTPI` unless it is already 0. -/
theorem controlWrites_int {q q' : Seq} {w w' : Work} {v : Byte} (h0 : bitOf v 0 = false)
    (h3 : bitOf v 3 = false ∨ q.inRequest = true) (hread : ∀ k, q' ≠ .sRd k) (hwrite : q' ≠ .strWrite) :
    ControlWrites (Endpoint.writeInt v) q q' w w' := by
  intro e _ h
  rcases writeInt_cases e v with hx | ⟨bs, n, hx⟩
  · exact .inl ⟨_, hx, rfl⟩
  · refine .inr ⟨_, hx, h.type, h.layout, fun hok => .of_quiet ?_ ?_ hread hwrite⟩
    · simp [h0]
    · rcases h3 with h3 | h3
      · simp [h3]
      · simp [(h.bank hok).acked h3]

/-- `WR EPCFG1` leaves the type (R200). -/
theorem writeCfg1_eptype (e : Endpoint) (v : Byte) : (e.writeCfg1 v).eptype = e.eptype := by
  unfold Endpoint.writeCfg1; dsimp only; split <;> rfl

/-! ### Register operations on endpoint 3, and on all endpoints -/

theorem EngineOk.runs_onEp3 {s : State} (h : EngineOk s) (hw : s.Wf) {q q' : Seq} (hs : s.seq = q)
    {f : Endpoint → Endpoint} (h3 : q.onEp3 = true) (hp : q.Passes q') (hsel : q.KeepsSelection q')
    (hstr : q'.streams = false)
    (hf : ∀ e, e.Wf → EndpointOk q s.work 3 e →
      ((f e).cfgok = true → (f e).eptype = 3) ∧ (q' = .scCfgAlloc → (f e).eptype = 3)) :
    Runs s (thenGo s (onSelected (fun e => .ok (f e)) s) q') := by
  subst hs
  have hnum := h.onEp3 h3
  obtain ⟨e, he⟩ := h.exists_selected hw
  have he3 : s.eps[3]? = some e := by rw [State.selected, hnum] at he; exact he
  obtain ⟨hother, hkeyboard⟩ := hf e (EndpointsWf.get hw.endpoints he3) (h.endpoints 3 e he3)
  rw [thenGo_ok (onSelected_ok (f := fun e => .ok (f e)) he rfl), State.withSelected, hnum]
  refine .next rfl fun _ => .of_parts (h.selection.move hsel) (.set (fun n f hn hf => ?_) ?_) (.of_not_streams hstr)
  · exact (h.endpoints n f hf).pass hp rfl fun h3 => absurd h3 hn
  · exact ⟨fun h0 => absurd h0 (by decide), fun _ hok => ⟨rfl, hother hok⟩, fun _ => hkeyboard⟩

/-- `WR EPTOGRST` and the return from SET_CONFIGURATION. -/
theorem EngineOk.runs_resetToggles {s : State} (h : EngineOk s) {q q' : Seq} (hs : s.seq = q) (v : Byte)
    (hm : q.Moves q') : Runs s (thenGo s (wrEptogrst v s) q') := by
  subst hs
  obtain ⟨hp, hsel, hq, hstr⟩ := hm
  refine .next rfl fun _ => .of_parts (h.selection.move hsel) (fun n f hf => ?_) (.of_not_streams hstr)
  obtain ⟨e, he, rfl⟩ : ∃ e, s.eps[n]? = some e ∧ e.resetToggle (bitOf v n) = f := by
    simpa [goto] using hf
  exact (h.endpoints n e he).pass hp (resetToggle_sameBuffer _ e) fun _ => hq

/-! ### Endpoint 0's bank -/

/-- An allocated endpoint has a current bank (10_state.md R40). -/
theorem Endpoint.Wf.exists_bank {e : Endpoint} (hw : e.Wf) (hok : e.cfgok = true) :
    ∃ b, e.banks[e.fill]? = some b := by
  obtain ⟨-, -, -, -, hlen, hfill, -⟩ := hw.allocated hok
  exact ⟨_, List.getElem?_eq_getElem (hlen ▸ hfill)⟩

theorem current_setCurrent {e : Endpoint} (hw : e.Wf) (hok : e.cfgok = true) (d : List Byte) :
    (e.setCurrent d).current = d := by
  obtain ⟨b, hb⟩ := hw.exists_bank hok
  have hlt : e.fill < e.banks.length := (List.getElem?_eq_some_iff.mp hb).1
  rw [setCurrent_of hb]
  exact current_of (b := ⟨d, b.committed⟩) (List.getElem?_set_self hlt)

theorem fillCommitted_of {e : Endpoint} {b : Bank} (hb : e.banks[e.fill]? = some b) :
    e.fillCommitted = b.committed := by simp [Endpoint.fillCommitted, hb]

theorem fillCommitted_setCurrent (e : Endpoint) (d : List Byte) : (e.setCurrent d).fillCommitted = e.fillCommitted := by
  cases hb : e.banks[e.fill]? with
  | none => rw [setCurrent_none hb]
  | some b =>
    have hlt : e.fill < e.banks.length := (List.getElem?_eq_some_iff.mp hb).1
    rw [setCurrent_of hb, fillCommitted_of hb]
    exact fillCommitted_of (b := ⟨d, b.committed⟩) (List.getElem?_set_self hlt)

/-! ### The parsing reads (44_control_sequencer.md R293) -/

theorem afterRead_eq_sRd {k j : Fin 8} (h : afterRead k = .sRd j) : j.val = k.val + 1 := by revert h; revert k j; decide

theorem afterRead_not_request (k : Fin 8) : (afterRead k).inRequest = false := by revert k; decide

theorem afterRead_moves (k : Fin 8) : (afterRead k).streams = false ∧ Seq.KeepsSelection (.sRd k) (afterRead k) ∧
    afterRead k ≠ .strWrite ∧ afterRead k ≠ .scCfgAlloc := by revert k; decide

/-- The byte read and the bank without it. -/
theorem ControlOk.popData {k : Fin 8} {w w' : Work} {e : Endpoint} (hw : e.Wf) (h : ControlOk (.sRd k) w e)
    (hok : e.cfgok = true) : ∃ b e', e.popData = .ok (b, e') ∧ ControlOk (afterRead k) w' e' := by
  have hb := h.bank hok
  obtain ⟨hstp, hlen⟩ := hb.reading k rfl
  obtain ⟨b, d, hd⟩ : ∃ b d, e.current = b :: d := List.exists_cons_of_ne_nil fun hnil => by
    rw [hnil, List.length_nil] at hlen; omega
  rw [hd, List.length_cons] at hlen
  obtain ⟨-, -, hwrite, -⟩ := afterRead_moves k
  refine ⟨b, e.setCurrent d, popData_of_cons hok (.inl hstp) hd, h.type, h.layout, fun _ => ?_⟩
  exact {
    owned := fun hx => (fillCommitted_setCurrent e d).trans (hb.owned hx)
    reading := fun j hj => ⟨hstp, by rw [current_setCurrent hw hok, afterRead_eq_sRd hj]; omega⟩
    acked := fun hq => by rw [afterRead_not_request] at hq; cases hq
    unread := fun hq => absurd (afterRead_context k) hq
    writing := fun hq => absurd hq hwrite
    clean := fun _ _ _ hx => (Bool.false_ne_true (hx.symm.trans hstp)).elim }

theorem EngineOk.runs_sRd {s : State} (h : EngineOk s) (hw : s.Wf) {k : Fin 8} (hs : s.seq = .sRd k) :
    Runs s (sRdStep k s) := by
  obtain ⟨hnum, e, he, hew, hc⟩ := h.exists_ep0 hw hs rfl
  rw [sRdStep]
  cases hok : e.cfgok with
  | false =>
    rw [rdEpdata_error he (popData_noBank hok)]
    exact .raise rfl rfl
  | true =>
    obtain ⟨b, e', hpop, hc'⟩ := hc.popData hew hok (w' := s.work)
    obtain ⟨hstr, hsel, -, hq⟩ := afterRead_moves k
    rw [rdEpdata_ok he hpop, withSelected_of_epsel0 hnum]
    refine .next rfl fun _ => .of_parts ((hs ▸ h.selection).move hsel) (.set (fun n f hn hf => ?_) (.of_control hc'))
      (.of_not_streams hstr)
    exact (h.endpoints n f hf).away hn rfl fun _ => hq

/-! ### The stream (44_control_sequencer.md R320) -/

/-- Before a chunk is started nothing is asked of `packet` and `i`. -/
theorem StreamOk.at_wait {w : Work} (hin : w.offset.toNat + w.remaining.toNat ≤ w.region.limit)
    (hleft : w.remaining ≠ 0) : StreamOk .strWait w :=
  ⟨fun _ => hin, fun _ => hleft, fun hq => (by rcases hq with hq | hq <;> cases hq), nofun⟩

theorem packetSize_toNat (n : Half) : (packetSize n).toNat = min n.toNat 32 := by
  rw [packetSize, BitVec.toNat_ofNat, Nat.mod_eq_of_lt ((Nat.min_le_right _ _).trans_lt (by decide))]

theorem packetSize_pos {n : Half} (h : n ≠ 0) : 0 < (packetSize n).toNat := by
  have hn : n.toNat ≠ 0 := fun h0 => h (BitVec.eq_of_toNat_eq h0)
  rw [packetSize_toNat]; omega

/-- Every descriptor the lookup finds lies in the ROM's first 52 bytes (42_descriptor_rom.md R238). -/
theorem lookup_inside {c : Config} {t i : Byte} {off n : Nat} (h : lookup c t i = some (off, n)) : off + n ≤ 52 := by
  have hlen : hidLen c ≤ 9 := by unfold hidLen; split <;> decide
  unfold lookup at h
  split_ifs at h
  · cases h; decide
  · cases h; rw [wTotalLength_eq]; omega

theorem EngineOk.runs_gdLookup {s : State} (h : EngineOk s) (hs : s.seq = .gdLookup) (q : SetupLatch) :
    Runs s (gdLookupStep q s) := by
  cases hl : lookup s.cfg (dtypeOf q.wValue) (dindexOf q.wValue) with
  | none =>
    rw [gdLookupStep_unknown hl]
    exact h.runs_move .stall hs
  | some d =>
    obtain ⟨off, n⟩ := d
    have hin := lookup_inside hl
    have hsel := hs ▸ h.selection
    rw [gdLookupStep_found hl]
    split
    · refine h.runs_pass .strWait hs (hsel.move (by decide)) (.at_wait ?_ ?_)
      · simp only [Region.limit, BitVec.toNat_ofNat]; omega
      · rw [Ne, ← BitVec.toNat_inj, BitVec.toNat_ofNat]
        show ¬_ = 0
        omega
    · exact h.runs_move .ret hs

/-- The byte at the index is a byte of the source. -/
theorem StreamOk.exists_byte {s : State} (h : StreamOk .strWrite s.work) : ∃ b, streamByte s = .ok b := by
  have hin := h.inside rfl
  have hlt : s.work.i.toNat < min s.work.remaining.toNat 32 := by
    rw [← packetSize_toNat, ← h.chunk (.inl rfl)]; exact h.index rfl
  cases hr : s.work.region with
  | rom =>
    rw [hr] at hin
    have hread : (romRead s (s.work.offset.toNat + s.work.i.toNat)).isSome = true :=
      (romRead_isSome_iff ..).mpr (by simp only [Region.limit] at hin; omega)
    obtain ⟨b, hb⟩ := Option.isSome_iff_exists.mp hread
    exact ⟨b, streamByte_of_rom hr (streamOffset_toNat rfl rfl (by simp only [Region.limit] at hin; omega)) hb⟩
  | reply =>
    rw [hr] at hin
    simp only [Region.limit] at hin
    rw [streamByte_of_reply hr (streamOffset_toNat rfl rfl (by omega))]
    split_ifs with h0 h1
    · exact ⟨_, rfl⟩
    · exact ⟨_, rfl⟩
    · omega

/-- The byte written follows the bytes written before it. No bank after a bus reset, or unread OUT data, is one of the
reachable faults. -/
theorem controlWrites_push {w : Work} {q' : Seq} (hlt : w.i.toNat < 32) (hq : q' = .strWrite ∨ q' = .strCommit)
    (b : Byte) : ControlWrites (Endpoint.pushData b) .strWrite q' w { w with i := w.i + 1 } := by
  intro e hw h
  cases hok : e.cfgok with
  | false => exact .inl ⟨_, pushData_noBank hok, rfl⟩
  | true =>
    have hb := h.bank hok
    have hstp : e.rxstpi = false := hb.acked rfl
    cases ho : e.rxouti with
    | true => exact .inl ⟨_, pushData_conflict hok (.inr ⟨h.type, ho⟩), rfl⟩
    | false =>
      obtain ⟨ht, hlen⟩ := (hb.writing rfl).resolve_left (by simp [ho])
      have hsize : e.size = 32 := by rw [Endpoint.size, (h.layout hok).1]; rfl
      have hpush := pushData_unread (x := b) hok hstp fun hx => by rw [ho] at hx; cases hx.2
      rw [ht, hsize, hlen, if_neg (by simp), if_neg hlt.ne] at hpush
      refine .inr ⟨_, hpush, h.type, h.layout, fun _ => ?_⟩
      exact {
        owned := fun _ => (fillCommitted_setCurrent ..).trans (hb.owned (.inl ht))
        reading := fun k hk => by subst hk; rcases hq with hq | hq <;> cases hq
        acked := fun _ => hstp
        unread := fun hx => by rcases hq with rfl | rfl <;> exact absurd rfl hx
        writing := fun _ => .inr ⟨ht, by
          rw [current_setCurrent hw hok, List.length_append, hlen, BitVec.toNat_add]
          exact (Nat.mod_eq_of_lt (show w.i.toNat + 1 < 256 by omega)).symm⟩
        clean := fun h1 h2 => (hq.elim h1 h2).elim }

theorem waitReady_runs {s : State} (h : EngineOk s) (hw : s.Wf) {g : State → State}
    (hg : ∀ v, bankReady s = true → Runs s (.next (g (returns v s)))) : Runs s (waitReady s g) := by
  unfold waitReady
  split
  · next hready =>
    obtain ⟨e, he⟩ := h.exists_selected hw
    have hop : rdEpint s = .ok (returns e.epint s) := readSelected_ok he
    rw [finish_map_ok hop]
    exact hg _ hready
  · exact .next rfl fun _ => h

/-- With the bank ready and nothing unread, a chunk starts in an empty bank, unless OUT data are there. -/
theorem BankOk.startPacket {w w' : Work} {e : Endpoint} (hb : BankOk .strWait w e) (ht : e.txini = true)
    (hi : w'.i = 0) : BankOk .strWrite w' e where
  owned := hb.owned
  reading := nofun
  acked _ := hb.acked rfl
  unread hx := absurd rfl hx
  writing _ := by
    cases ho : e.rxouti with
    | true => exact .inl rfl
    | false => exact .inr ⟨ht, by rw [hb.clean nofun nofun ht (hb.acked rfl) ho, hi]; rfl⟩
  clean hx := absurd rfl hx

theorem EngineOk.runs_strWait {s : State} (h : EngineOk s) (hw : s.Wf) (hs : s.seq = .strWait) :
    Runs s (strWaitStep s) := by
  refine waitReady_runs h hw fun v hready => .next rfl fun _ => ?_
  have hsel : SelectionOk .strWait s.dev.epnum := hs ▸ h.selection
  have heps : EndpointsOk .strWait s.work s.eps := hs ▸ h.endpoints
  have hstr : StreamOk .strWait s.work := hs ▸ h.stream
  have hleft := hstr.some_left rfl
  refine .of_parts (hsel.move (q' := .strWrite) (by decide)) (heps.of_ep0 nofun fun e he _ hb => ?_) ?_
  · exact hb.startPacket ((bankReady_of he).symm.trans hready) rfl
  · exact ⟨fun _ => hstr.inside rfl, fun _ => hleft, fun _ => rfl, fun _ => packetSize_pos hleft⟩

theorem advanceByte_more {s : State} (hi : s.work.i + 1 < s.work.packet) :
    advanceByte s = { s with work := { s.work with i := s.work.i + 1 }, seq := .strWrite } := by
  rw [advanceByte, if_pos hi]

theorem advanceByte_last {s : State} (hi : ¬s.work.i + 1 < s.work.packet) :
    advanceByte s = { s with work := { s.work with i := s.work.i + 1 }, seq := .strCommit } := by
  rw [advanceByte, if_neg hi]

theorem EngineOk.runs_strWrite {s : State} (h : EngineOk s) (hw : s.Wf) (hs : s.seq = .strWrite) :
    Runs s (strWriteStep s) := by
  have hstr : StreamOk .strWrite s.work := hs ▸ h.stream
  obtain ⟨b, hb⟩ := hstr.exists_byte
  have hlt : s.work.i.toNat < (packetSize s.work.remaining).toNat := by
    rw [← hstr.chunk (.inl rfl)]; exact hstr.index rfl
  have hlt32 : s.work.i.toNat < 32 := by rw [packetSize_toNat] at hlt; omega
  have stream {q' : Seq} (hi : q' = .strWrite → s.work.i + 1 < s.work.packet) :
      StreamOk q' { s.work with i := s.work.i + 1 } :=
    ⟨fun _ => hstr.inside rfl, fun _ => hstr.some_left rfl, fun _ => hstr.chunk (.inl rfl), hi⟩
  rw [strWriteStep, hb]
  by_cases hi : s.work.i + 1 < s.work.packet
  · exact h.runs_onEp0 hw hs rfl (fun e => advanceByte_more (s := s.withSelected e) hi)
      (controlWrites_push hlt32 (.inl rfl) b) (by decide) (stream fun _ => hi) nofun
  · exact h.runs_onEp0 hw hs rfl (fun e => advanceByte_last (s := s.withSelected e) hi)
      (controlWrites_push hlt32 (.inr rfl) b) (by decide) (stream nofun) nofun

/-- The stream past the packet just committed. -/
def Work.afterPacket (w : Work) : Work :=
  { w with offset := w.offset + w.packet.setWidth 16, remaining := w.remaining - w.packet.setWidth 16 }

theorem advancePacket_more {s : State} (hn : s.work.afterPacket.remaining ≠ 0) :
    advancePacket s = { s with work := s.work.afterPacket, seq := .strWait } := by
  simp only [Work.afterPacket] at hn
  simp only [advancePacket, if_neg hn, Work.afterPacket]

theorem advancePacket_last {s : State} (hn : s.work.afterPacket.remaining = 0) :
    advancePacket s = { s with work := s.work.afterPacket, seq := .ret } := by
  simp only [Work.afterPacket] at hn
  simp only [advancePacket, if_pos hn, Work.afterPacket]

theorem StreamOk.afterPacket_inside {w : Work} (h : StreamOk .strCommit w) :
    w.afterPacket.offset.toNat + w.afterPacket.remaining.toNat ≤ w.region.limit := by
  have hin := h.inside rfl
  have hle : (w.packet.setWidth 16).toNat ≤ w.remaining.toNat := by
    rw [h.chunk (.inr rfl), BitVec.toNat_setWidth, packetSize_toNat]
    exact (Nat.mod_le _ _).trans (Nat.min_le_left _ _)
  have hlimit : w.region.limit ≤ 52 := by cases w.region <;> decide
  simp only [Work.afterPacket, BitVec.toNat_add, BitVec.toNat_sub_of_le (BitVec.le_def.mpr hle)]
  omega

theorem EngineOk.runs_strCommit {s : State} (h : EngineOk s) (hw : s.Wf) (hs : s.seq = .strCommit) :
    Runs s (strCommitStep s) := by
  have hstr : StreamOk .strCommit s.work := hs ▸ h.stream
  by_cases hn : s.work.afterPacket.remaining = 0
  · exact h.runs_onEp0 hw hs (w' := s.work.afterPacket) rfl (fun e => advancePacket_last (s := s.withSelected e) hn)
      (controlWrites_int rfl (.inr rfl) nofun nofun) (by decide) (.of_not_streams rfl) nofun
  · exact h.runs_onEp0 hw hs (w' := s.work.afterPacket) rfl (fun e => advancePacket_more (s := s.withSelected e) hn)
      (controlWrites_int rfl (.inr rfl) nofun nofun) (by decide) (.at_wait hstr.afterPacket_inside hn) nofun

/-! ### The microprogram -/

theorem dispatchTarget_moves (i : RequestKind) : Seq.Moves .sDispatch (dispatchTarget i) := by
  cases i <;> decide

/-- Every microstate keeps the invariant. -/
theorem microstep_runs {s : State} (q : SetupLatch) (h : EngineOk s) (hw : s.Wf) : Runs s (microstep q s) := by
  have hsel := h.selection
  have rest : Runs s (.next s) := .next rfl fun _ => h
  cases hs : s.seq <;> rw [hs] at hsel <;> simp only [microstep, hs]
  case idle | halted => exact rest
  case initPll => exact h.runs_move .initLock hs
  case initLock =>
    unfold initLockStep
    split
    · exact .raise rfl rfl
    · split
      · exact h.runs_move .initCfgSel hs
      · exact rest
  case initCfgSel => exact h.runs_pass .initCfgEn hs (.at_zero nofun rfl) (.of_not_streams rfl)
  case initCfgEn => exact h.runs_write hw hs rfl (by decide) (controlWrites_ctl rfl (by decide))
  case initCfgType => exact h.runs_write hw hs rfl (by decide) controlWrites_cfg0
  case initCfgAlloc => exact h.runs_write hw hs rfl (by decide) (controlWrites_cfg1 nofun nofun)
  case initCfgIen => exact h.runs_write hw hs rfl (by decide) (controlWrites_inten (by decide))
  case initIen => exact h.runs_move .initAttach hs
  case initAttach => exact h.runs_move .idle hs
  case brClr => exact h.runs_move .brCfgSel hs
  case brCfgSel => exact h.runs_pass .brCfgEn hs (.at_zero nofun rfl) (.of_not_streams rfl)
  case brCfgEn => exact h.runs_write hw hs rfl (by decide) (controlWrites_ctl rfl (by decide))
  case brCfgType => exact h.runs_write hw hs rfl (by decide) controlWrites_cfg0
  case brCfgAlloc => exact h.runs_write hw hs rfl (by decide) (controlWrites_cfg1 nofun nofun)
  case brCfgIen => exact h.runs_write hw hs rfl (by decide) (controlWrites_inten (by decide))
  case brState => exact h.runs_move .idle hs
  case sofClr => exact h.runs_move .idle hs
  case sSel => exact absurd hs h.parsed
  case sRd k => exact h.runs_sRd hw hs
  case sAck => exact h.runs_write hw hs rfl (by decide) (controlWrites_int rfl (.inl rfl) nofun nofun)
  case sDispatch => exact h.runs_move (dispatchTarget _) hs (dispatchTarget_moves _)
  case gdLookup => exact h.runs_gdLookup hs q
  case saSet => exact h.runs_move .saZw hs
  case saZw => exact waitReady_runs h hw fun v _ => h.runs_move .saZc hs
  case saZc => exact h.runs_write hw hs rfl (by decide) (controlWrites_int rfl (.inr rfl) nofun nofun)
  case saWait => exact waitReady_runs h hw fun v _ => h.runs_move .saApply hs
  case saApply => exact h.runs_move .ret hs
  case scStore => exact h.runs_move .scZw hs
  case scZw => exact waitReady_runs h hw fun v _ => h.runs_move .scZc hs
  case scZc =>
    unfold scZcStep
    split <;> exact h.runs_write hw hs rfl (by decide) (controlWrites_int rfl (.inr rfl) nofun nofun)
  case scCfgSel => exact h.runs_pass .scCfgEn hs (.at_three nofun rfl) (.of_not_streams rfl)
  case scCfgEn =>
    exact h.runs_onEp3 hw hs (f := Endpoint.writeCtl 0x01) rfl (by decide) (by decide) rfl
      fun e _ he => ⟨fun hok => (he.other nofun hok).2, nofun⟩
  case scCfgType =>
    exact h.runs_onEp3 hw hs (f := Endpoint.writeCfg0 0xC1) rfl (by decide) (by decide) rfl
      fun e _ _ => ⟨fun _ => rfl, fun _ => rfl⟩
  case scCfgAlloc =>
    exact h.runs_onEp3 hw hs (f := Endpoint.writeCfg1 0x06) rfl (by decide) (by decide) rfl
      fun e _ he => ⟨fun _ => (writeCfg1_eptype e 0x06).trans (he.keyboard rfl rfl), nofun⟩
  case scCfgIen =>
    exact h.runs_onEp3 hw hs (f := Endpoint.writeInten 0x00) rfl (by decide) (by decide) rfl
      fun e _ he => ⟨fun hok => (he.other nofun hok).2, nofun⟩
  case scTog => exact h.runs_resetToggles hs 0xFF (by decide)
  case gcLoad =>
    exact h.runs_pass .strWait hs (hsel.move (by decide))
      (.at_wait (show 0 + 1 ≤ 2 by decide) (show (1 : Half) ≠ 0 by decide))
  case gsLoad =>
    exact h.runs_pass .strWait hs (hsel.move (by decide))
      (.at_wait (show 0 + 2 ≤ 2 by decide) (show (2 : Half) ≠ 0 by decide))
  case strWait => exact h.runs_strWait hw hs
  case strWrite => exact h.runs_strWrite hw hs
  case strCommit => exact h.runs_strCommit hw hs
  case stall => exact h.runs_write hw hs rfl (by decide) (controlWrites_ctl rfl (by decide))
  case ret => exact h.runs_move .idle hs

/-! ### The handler entry (R378) -/

theorem context_eq_idle {q : Seq} (h : q.context = .idle) : q = .idle := by
  revert h; cases q <;> simp [Seq.context]

/-- An unread SETUP at `IDLE` is its 8 bytes, which the handler reads. -/
theorem BankOk.startParsing {w : Work} {e : Endpoint} (hb : BankOk .idle w e) (hstp : e.rxstpi = true) :
    BankOk (.sRd 0) w e where
  owned := hb.owned
  reading k hk := by cases hk; exact ⟨hstp, hb.unread nofun hstp⟩
  acked := nofun
  unread hx := absurd rfl hx
  writing := nofun
  clean _ _ := hb.clean nofun nofun

theorem EngineOk.runs_setupEntry {s : State} (h : EngineOk s) (hs : s.seq = .idle) (hp : setupPending s = true) :
    Runs s (.next { s with ctx := .setup, seq := .sRd 0, dev := { s.dev with epnum := 0 } }) := by
  obtain ⟨e₀, he₀, hstp, -⟩ := setupPending_iff.mp hp
  have heps : EndpointsOk .idle s.work s.eps := hs ▸ h.endpoints
  refine .next rfl fun _ => .of_parts (.at_zero nofun rfl) (heps.of_ep0 nofun fun e he _ hb => ?_) (.of_not_streams rfl)
  obtain rfl : e₀ = e := Option.some_inj.mp (he₀.symm.trans he)
  exact hb.startParsing hstp

theorem handlerEntry_runs {s : State} (h : EngineOk s) (hs : s.seq = .idle) : Runs s (handlerEntry s) := by
  cases hb : busResetPending s with
  | true =>
    rw [handlerEntry_busReset hb]
    exact h.runs_move .brCfgSel hs
  | false =>
    cases hf : sofPending s with
    | true =>
      rw [handlerEntry_sof hb hf]
      exact h.runs_move .idle hs
    | false =>
      cases hp : setupPending s with
      | true =>
        rw [handlerEntry_setup hb hf hp]
        exact h.runs_setupEntry hs hp
      | false =>
        rw [handlerEntry_none hb hf hp]
        exact .next rfl fun _ => h

/-- Every step of the engine keeps the invariant. -/
theorem engineStep_runs {s : State} (hw : s.Wf) (h : s.ctx ≠ .halted → EngineOk s) : Runs s (engineStep s) := by
  cases hc : s.ctx with
  | halted => rw [engineStep_halted hc]; exact .next rfl h
  | idle =>
    rw [engineStep_at_idle hc]
    exact handlerEntry_runs (h (by simp [hc])) (context_eq_idle (hw.context.symm.trans hc))
  | init | busReset | busSof | setup =>
    simp only [engineStep, hc]
    exact microstep_runs s.latch (h (by simp [hc])) hw

/-! ### Tokens and `TXREADY` at an endpoint -/

/-- The endpoint keeps its type, sizes and allocation. -/
structure Endpoint.SameConfig (e f : Endpoint) : Prop where
  eptype : f.eptype = e.eptype
  epsize : f.epsize = e.epsize
  epbk : f.epbk = e.epbk
  cfgok : f.cfgok = e.cfgok

theorem EndpointOk.of_sameConfig {q : Seq} {w : Work} {n : Nat} {e f : Endpoint} (h : EndpointOk q w n e)
    (hs : e.SameConfig f) (hb : ControlOk q w e → e.cfgok = true → BankOk q w f) : EndpointOk q w n f where
  control hn := {
    type := hs.eptype.trans (h.control hn).type
    layout := fun hok => by rw [hs.epsize, hs.epbk]; exact (h.control hn).layout (hs.cfgok ▸ hok)
    bank := fun hok => hb (h.control hn) (hs.cfgok ▸ hok) }
  other hn hok := by rw [hs.eptype]; exact h.other hn (hs.cfgok ▸ hok)
  keyboard hn hq := by rw [hs.eptype]; exact h.keyboard hn hq

/-- While neither `TXINI` nor `RXSTPI` is set the banks may be anything: the host takes the committed one. -/
theorem BankOk.of_unowned {q : Seq} {w : Work} {e : Endpoint} (h : BankOk q w e) (ht : e.txini = false)
    (hs : e.rxstpi = false) (b : Bool) (bs : List Bank) (n m : Nat) :
    BankOk q w { e with toggle := b, banks := bs, fill := n, send := m } where
  owned hx := by simp [ht, hs] at hx
  reading k hk := (Bool.false_ne_true (hs.symm.trans (h.reading k hk).1)).elim
  acked _ := hs
  unread _ hx := (Bool.false_ne_true (hs.symm.trans hx)).elim
  writing hq := .inl ((h.writing hq).resolve_right fun hx => Bool.false_ne_true (ht.symm.trans hx.1))
  clean _ _ hx := (Bool.false_ne_true (ht.symm.trans hx)).elim

theorem Endpoint.Wf.single_bank {e : Endpoint} (hw : e.Wf) (hok : e.cfgok = true) (hbk : e.epbk = 0) :
    e.fill = 0 ∧ e.send = 0 := by
  obtain ⟨-, -, -, -, -, hfill, hsend⟩ := hw.allocated hok
  have hn : e.nbanks = 1 := by rw [Endpoint.nbanks, hbk]; rfl
  omega

/-- R145: the bank the host takes is committed, so endpoint 0 owns none. -/
theorem EndpointOk.answerIn {q : Seq} {w : Work} {n : Nat} {e : Endpoint} (hw : e.Wf) (h : EndpointOk q w n e) :
    EndpointOk q w n e.answerIn.2 := by
  by_cases hst : e.stallrq = true
  · rw [Endpoint.answerIn_stalled hst]; exact h
  rw [Bool.not_eq_true] at hst
  by_cases hb : ∃ d, e.banks[e.send]? = some ⟨d, true⟩
  · obtain ⟨d, hb⟩ := hb
    rw [Endpoint.answerIn_committed hst hb, Endpoint.sendBank_of hb]
    refine h.of_sameConfig ⟨rfl, rfl, rfl, rfl⟩ fun hc hok => ?_
    obtain ⟨hfill, hsend⟩ := hw.single_bank hok (hc.layout hok).2
    have hcommitted : e.fillCommitted = true := fillCommitted_of (by rw [hfill, ← hsend]; exact hb)
    have hfree : ¬(e.txini = true ∨ e.rxstpi = true) := fun hx => by
      rw [(hc.bank hok).owned hx] at hcommitted; cases hcommitted
    rw [not_or, Bool.not_eq_true, Bool.not_eq_true] at hfree
    exact (hc.bank hok).of_unowned hfree.1 hfree.2 _ _ e.fill _
  · rw [Endpoint.answerIn_none_committed hst hb]; exact h

/-- R147: an accepted OUT marks its data as received. -/
theorem EndpointOk.answerOut {q : Seq} {w : Work} {n : Nat} {e : Endpoint} (d : List Byte) (h : EndpointOk q w n e) :
    EndpointOk q w n (e.answerOut d).2 := by
  by_cases hst : e.stallrq = true
  · rw [Endpoint.answerOut_stalled hst]; exact h
  rw [Bool.not_eq_true] at hst
  by_cases hlen : e.size < d.length
  · rw [Endpoint.answerOut_oversize hst hlen]; exact h
  by_cases hbusy : e.OutBusy
  · rw [Endpoint.answerOut_busy hst (not_lt.mp hlen) hbusy]; exact h
  rw [Endpoint.answerOut_free hst (not_lt.mp hlen) hbusy]
  refine h.of_sameConfig ⟨rfl, rfl, rfl, rfl⟩ fun hc hok => ?_
  have hb := hc.bank hok
  have hstp : e.rxstpi = false := Bool.eq_false_iff.mpr fun hx => hbusy (by
    rw [Endpoint.OutBusy, if_pos hc.type]; exact .inl hx)
  exact {
    owned := fun hx => (fillCommitted_setCurrent e d).trans (hb.owned hx)
    reading := fun k hk => (Bool.false_ne_true (hstp.symm.trans (hb.reading k hk).1)).elim
    acked := fun _ => hstp
    unread := fun _ hx => (Bool.false_ne_true (hstp.symm.trans hx)).elim
    writing := fun _ => .inl rfl
    clean := fun _ _ _ _ hx => by cases hx }

/-- R158: the bank made ready is empty. -/
theorem EndpointOk.txReady {q : Seq} {w : Work} {n : Nat} {e : Endpoint} (hw : e.Wf) (h : EndpointOk q w n e)
    (hen : e.txEnabled = true) : EndpointOk q w n e.txReady := by
  obtain ⟨b, hbank, -, -, ht, hstp, hcommitted, hkind⟩ := Endpoint.txEnabled_iff.mp hen
  refine h.of_sameConfig ⟨rfl, rfl, rfl, rfl⟩ fun hc hok => ?_
  have hb := hc.bank hok
  have hempty : e.txReady.current = [] := current_setCurrent hw hok []
  have ho : e.rxouti = false := hkind.elim (·.2) fun hx => absurd hc.type hx.1
  exact {
    owned := fun _ => (fillCommitted_setCurrent e []).trans ((fillCommitted_of hbank).trans hcommitted)
    reading := fun k hk => (Bool.false_ne_true (hstp.symm.trans (hb.reading k hk).1)).elim
    acked := fun _ => hstp
    unread := fun _ hx => (Bool.false_ne_true (hstp.symm.trans hx)).elim
    writing := fun hq => ((hb.writing hq).elim (fun hx => Bool.false_ne_true (ho.symm.trans hx))
      (fun hx => Bool.false_ne_true (ht.symm.trans hx.1))).elim
    clean := fun _ _ _ _ _ => hempty }

theorem inRequest_context {q : Seq} (h : q.inRequest = true) : q.context = .setup := by
  revert h; cases q <;> simp [Seq.inRequest, Seq.context]

/-- R143: outside the SETUP handler an accepted SETUP leaves its 8 bytes unread in endpoint 0's bank. -/
theorem EndpointOk.receiveSetup {q : Seq} {w : Work} {n : Nat} {e : Endpoint} (hw : e.Wf) (h : EndpointOk q w n e)
    (d : Packet8) (hq : q.context ≠ .setup) : EndpointOk q w n (e.receiveSetup d) := by
  refine h.of_sameConfig ⟨rfl, rfl, rfl, rfl⟩ fun hc hok => ?_
  obtain ⟨-, -, -, -, hlen, -, -⟩ := hw.allocated hok
  have hpos : 0 < e.banks.length := hlen ▸ e.nbanks_pos
  have hbank : (e.receiveSetup d).banks[(e.receiveSetup d).fill]? = some ⟨Packet8.bytes d, false⟩ := by
    rw [Endpoint.receiveSetup_eq]
    simp [hpos, Packet8.bytes]
  have hnot {p : Prop} {x : Seq} (hx : x.context = .setup) (hqx : q = x) : p := absurd (hqx ▸ hx) hq
  exact {
    owned := fun _ => fillCommitted_of hbank
    reading := fun k hk => hnot rfl hk
    acked := fun hx => absurd (inRequest_context hx) hq
    unread := fun _ _ => by rw [current_of hbank]; rfl
    writing := fun hx => hnot rfl hx
    clean := fun _ _ _ hx => by cases hx }

/-! ### Events -/

section
variable {s : State} (hw : s.Wf) (h : s.ctx ≠ .halted → EngineOk s)
include h

/-- An event that leaves the engine and the endpoints. -/
theorem runs_frame {t : State} (hnum : t.dev.epnum = s.dev.epnum) (hf : t.faults = s.faults := by rfl)
    (hc : t.ctx = s.ctx := by rfl) (hs : t.seq = s.seq := by rfl) (hwork : t.work = s.work := by rfl)
    (heps : t.eps = s.eps := by rfl) : Runs s (.next t) := by
  refine .next hf fun ht => ?_
  have hs' := h (hc ▸ ht)
  refine .of_parts ?_ ?_ ?_
  · rw [hs, hnum]; exact hs'.selection
  · rw [hs, hwork, heps]; exact hs'.endpoints
  · rw [hs, hwork]; exact hs'.stream

/-- A token answered, or a bank made ready, at the endpoint `n`. -/
theorem runs_setEp {t : State} {n : EpNum} {e f : Endpoint} (he : s.eps[n.toNat]? = some e)
    (hk : EndpointOk s.seq s.work n.toNat e → EndpointOk s.seq s.work n.toNat f)
    (heps : t.eps = s.eps.set n.toNat f := by rfl) (hf : t.faults = s.faults := by rfl) (hc : t.ctx = s.ctx := by rfl)
    (hs : t.seq = s.seq := by rfl) (hwork : t.work = s.work := by rfl)
    (hnum : t.dev.epnum = s.dev.epnum := by rfl) : Runs s (.next t) := by
  refine .next hf fun ht => ?_
  have hs' := h (hc ▸ ht)
  refine .of_parts ?_ ?_ ?_
  · rw [hs, hnum]; exact hs'.selection
  · rw [hs, hwork, heps]
    exact .set (fun m g _ hg => hs'.endpoints m g hg) (hk (hs'.endpoints _ e he))
  · rw [hs, hwork]; exact hs'.stream

theorem runs_self : Runs s (.next s) := runs_frame h rfl

include hw

/-- R299: a SETUP that comes while the SETUP handler runs is the fault of code 8. -/
theorem execSetup_runs (a : DevAddr) (n : EpNum) (d : Packet8) : Runs s (execSetup a n d s) := by
  unfold execSetup
  split
  · exact runs_self h
  · next e hr =>
    have he := (receives_some hr).1
    split
    · dsimp only
      by_cases hc : s.ctx = .setup
      · rw [if_pos hc]; exact .raise rfl rfl
      · rw [if_neg hc]
        exact runs_setEp h he fun hk =>
          hk.receiveSetup (EndpointsWf.get hw.endpoints he) d (hw.context ▸ hc)
    · exact runs_self h

theorem execIn_runs (a : DevAddr) (n : EpNum) : Runs s (execIn a n s) := by
  unfold execIn
  split
  · exact runs_self h
  · next e hr =>
    have he := (receives_some hr).1
    split
    · exact runs_setEp h he fun hk => hk.answerIn (EndpointsWf.get hw.endpoints he)
    · exact runs_self h

omit hw in
theorem execOut_runs (a : DevAddr) (n : EpNum) (d : List Byte) : Runs s (execOut a n d s) := by
  unfold execOut
  split
  · exact runs_self h
  · next e hr =>
    split
    · split
      · exact runs_self h
      · next x e' hout =>
        refine runs_setEp h (receives_some hr).1 fun hk => ?_
        have hk' := hk.answerOut d
        rwa [hout] at hk'
    · exact runs_self h

omit hw in
/-- R150: no endpoint is allocated after a bus reset, so nothing is asked of the banks. -/
theorem execBusReset_runs : Runs s (execBusReset s) := by
  unfold execBusReset
  split
  · exact runs_self h
  · refine .next rfl fun hc => ?_
    have hs' := h hc
    refine .of_parts hs'.selection (fun n f hf => ?_) hs'.stream
    obtain ⟨e, he, rfl⟩ : ∃ e, s.eps[n]? = some e ∧ e.busReset = f := by simpa using hf
    have hk := hs'.endpoints n e he
    exact ⟨fun hn => ⟨(hk.control hn).type, nofun, nofun⟩, fun _ => nofun, hk.keyboard⟩

theorem execTxready_runs (n : EpNum) : Runs s (execTxready n s) := by
  unfold execTxready
  split
  · exact runs_self h
  · next e he =>
    split
    · next hen =>
      exact runs_setEp h he fun hk => hk.txReady (EndpointsWf.get hw.endpoints he) hen
    · exact runs_self h

omit hw in
/-- An event that writes only flags of the device-level registers. -/
theorem devEvent_runs {c : Prop} [Decidable c] {d d' : DevRegs} (hd : d.epnum = s.dev.epnum)
    (hd' : d'.epnum = s.dev.epnum) :
    Runs s (if c then .next { s with dev := d } else .next { s with dev := d' }) := by
  split
  · exact runs_frame h hd
  · exact runs_frame h hd'

/-- Every event keeps the invariant. -/
theorem event_runs {i : Instr} (hi : (encode i).1 = .bus) : Runs s (exec i s) := by
  cases i with
  | setup a n d => exact execSetup_runs hw h a n d
  | inToken a n => exact execIn_runs hw h a n
  | outToken a n d => exact execOut_runs h a n d
  | busReset => exact execBusReset_runs h
  | sof | pllLocked | pllFail => exact devEvent_runs h rfl rfl
  | txready n => exact execTxready_runs hw h n
  | statusRead => exact runs_frame h rfl
  | otherRegOp _ wide => cases wide <;> cases hi
  | _ => cases hi

end

/-! ### A step of the machine -/

/-- With no other program's operation scheduled a step is an engine step, an event, nothing, or a refused record. -/
theorem step_of_microprogram {s : State} (ht : ∀ t ∈ s.turns, t.isMicroprogram = true) :
    let u : State := { s with turns := s.turns.tail }
    step s = engineStep u ∨ (∃ i, (encode i).1 = .bus ∧ step s = exec i u) ∨ step s = .next u ∨
      ∃ x, step s = .refused x := by
  intro u
  rcases hs : s.turns with _ | ⟨t, ts⟩
  · have hu : u = s := withTurns_self (by rw [hs]; rfl)
    rw [hu]
    cases he : engineEnabled s with
    | true => exact .inl (step_of_engineAction (nextAction_of_empty_enabled hs he))
    | false =>
      cases hn : firstTxReady s with
      | some n => exact .inr (.inl ⟨.txready (BitVec.ofNat 4 n), rfl, step_of_empty_txready hs he hn⟩)
      | none => exact .inr (.inr (.inl (step_of_empty_quiet hs he hn)))
  · have hu : u = { s with turns := ts } := by simp only [u, hs, List.tail_cons]
    rw [hu]
    have hmicro := ht t (by rw [hs]; exact List.mem_cons_self)
    cases t with
    | engine => exact .inl (step_of_engineTurn hs)
    | bus bs =>
      cases hd : decode .bus bs with
      | ok i rest => exact .inr (.inl ⟨i, decodeBus_event hd, step_of_record_ok (nextAction_of_turn hs) hd⟩)
      | reject x => exact .inr (.inr (.inr ⟨_, step_of_record_reject (nextAction_of_turn hs) hd⟩))
    | reg bs => cases hmicro
    | reg32 bs => cases hmicro

/-- Using up a turn changes nothing the engine keeps. -/
theorem EngineOk.withTurns {s : State} (h : EngineOk s) (ts : List Turn) : EngineOk { s with turns := ts } :=
  .of_parts h.selection h.endpoints h.stream

/-- A step of the microprogram, its host and its controller keeps the invariant, or its record is refused. -/
theorem step_runs {s : State} (h : s.MicroInv) :
    Runs { s with turns := s.turns.tail } (step s) ∨ ∃ x, step s = .refused x := by
  have hw : ({ s with turns := s.turns.tail } : State).Wf := h.wf.frame s.dev s.rdData s.mainData s.history s.turns.tail
  have hrun : s.ctx ≠ .halted → EngineOk { s with turns := s.turns.tail } := fun hc => (h.running hc).withTurns _
  rcases step_of_microprogram h.turns with hs | ⟨i, hi, hs⟩ | hs | hs
  · exact .inl (hs ▸ engineStep_runs hw hrun)
  · exact .inl (hs ▸ event_runs hw hrun hi)
  · exact .inl (hs ▸ runs_self hrun)
  · exact .inr hs

end Sys2Proof.Machine

namespace Sys2Proof.Proofs

open Sys2Proof.Machine

/-- Settles O12: a step of the microprogram ends in a next state that keeps the engine's facts (`step_runs`), is well
formed, and has the rest of the schedule. -/
theorem microprogramInvariant : Obligations.MicroprogramInvariant := by
  intro s h
  rcases step_runs h with ⟨u, hu, hkept⟩ | ⟨x, hx⟩
  · refine ⟨fun t ht => ?_, fun f hf => nomatch hu.symm.trans hf⟩
    cases hu.symm.trans ht
    have hturns : u.turns = s.turns.tail := (step_keeps hu).turns
    exact {
      wf := step_wf h.wf hu
      turns := fun t ht => h.turns t (List.mem_of_mem_tail (hturns ▸ ht))
      faults := fun k hk => (hkept.faults k hk).elim (h.faults k) id
      running := hkept.running }
  · exact ⟨fun t ht => (nomatch hx.symm.trans ht), fun f hf => nomatch hx.symm.trans hf⟩

end Sys2Proof.Proofs

/-! SUPPORT. The initialisation (70_reset_and_hazards.md): what the hold `INIT_LOCK` does (R413), and the ten steps from
power-on as a run of the machine (R412, R414). -/

namespace Sys2Proof.Machine

theorem engineStep_at_init {s : State} (h : s.ctx = .init) : engineStep s = microstep s.latch s := by
  simp only [engineStep, h]

/-! ### The hold for the PLL lock (R413) -/

theorem initLockStep_failed {s : State} (hf : s.dev.pllFail = true) :
    initLockStep s = .next (raise .pllLockFail s) := by
  rw [initLockStep, if_pos hf]

theorem initLockStep_hold {s : State} (hf : s.dev.pllFail = false) (hl : s.dev.pllLock = false) :
    initLockStep s = .next s := by
  rw [initLockStep, if_neg (by simp [hf]), if_neg (by simp [hl])]

theorem initLockStep_locked {s : State} (hf : s.dev.pllFail = false) (hl : s.dev.pllLock = true) :
    initLockStep s = .next { s with seq := .initCfgSel, rdData := BitVec.ofNat 32 (2 + s.dev.pllEn.toNat) } := by
  have hv : s.dev.pllctl.toNat = 2 + s.dev.pllEn.toNat := by rw [pllctl_toNat, hf, hl]; rfl
  rw [initLockStep, if_neg (by simp [hf]), if_pos hl, thenGo_ok (r := rdPllctl s) rfl, returns, word_of_toNat hv]

/-- At `INIT_LOCK` the engine's step is the hold. -/
theorem engineStep_at_initLock {s : State} (hc : s.ctx = .init) (hs : s.seq = .initLock) :
    engineStep s = initLockStep s := by
  rw [engineStep_at_init hc, microstep, hs]

/-! ### The run from power-on (R412) -/

/-- Power-on gives an endpoint what a bus reset leaves of it, so the configuration makes the same endpoint of both. -/
theorem configureControl_reset : Endpoint.reset.configureControl = ep0Initialised :=
  configureControl_busReset Endpoint.reset

/-- The initialisation after `INIT_LOCK`: the turns left, the microstate, endpoint 0 so far; `PLLCTL` was read as 3. -/
def State.initialising (c : Config) (ts : List Turn) (q : Seq) (e : Endpoint) : State :=
  { State.resetWith c with
    turns := ts, seq := q, rdData := 3, dev := { DevRegs.reset with pllEn := true, pllLock := true }
    eps := (List.replicate c.numEp Endpoint.reset).set 0 e }

theorem initialising_reset (c : Config) (ts : List Turn) (q : Seq) : State.initialising c ts q Endpoint.reset =
    { State.resetWith c with
      turns := ts, seq := q, rdData := 3, dev := { DevRegs.reset with pllEn := true, pllLock := true } } := by
  rw [State.initialising, List.set_replicate_self]; rfl

/-- `WR PLLCTL, 0x01` at `INIT_PLL` enables the PLL and keeps its lock bit. -/
theorem step_initPll {s : State} {ts : List Turn} (ht : s.turns = .engine :: ts) (hc : s.ctx = .init)
    (hs : s.seq = .initPll) :
    step s = .next { s with turns := ts, seq := .initLock, dev := { s.dev with pllEn := true } } := by
  have hbit : bitOf 0x01 0 = true := by decide
  rw [step_of_engineTurn ht, engineStep_at_init (s := { s with turns := ts }) hc, microstep, hs]
  refine (thenGo_ok (r := wrPllctl 0x01 { s with turns := ts }) rfl).trans ?_
  rw [hbit, Bool.and_true]

/-- R156: the lock, reported where it is awaited. -/
theorem step_pllLocked {s : State} {ts : List Turn} (ht : s.turns = .bus [0x06] :: ts) (hp : pllPending s = true) :
    step s = .next { s with turns := ts, dev := { s.dev with pllLock := true } } := by
  rw [step_of_record_ok (nextAction_of_turn ht) (show decode .bus [0x06] = .ok .pllLocked [] from rfl)]
  exact (pllEvents_pending (s := { s with turns := ts }) hp).1

/-- The engine's turn at `INIT_LOCK` once the lock is reported. -/
theorem step_initLock {s : State} {ts : List Turn} (ht : s.turns = .engine :: ts) (hc : s.ctx = .init)
    (hs : s.seq = .initLock) (hf : s.dev.pllFail = false) (hl : s.dev.pllLock = true) : step s = .next { s with
      turns := ts, seq := .initCfgSel, rdData := BitVec.ofNat 32 (2 + s.dev.pllEn.toNat) } := by
  rw [step_of_engineTurn ht, engineStep_at_initLock (s := { s with turns := ts }) hc hs]
  exact initLockStep_locked (s := { s with turns := ts }) hf hl

/-- `INIT_PLL`, the lock reported, `INIT_LOCK` and `INIT_CFG_SEL`. -/
theorem run_pllLock (c : Config) (ts : List Turn) (n : Nat) :
    Host.Core.run core (n + 4) { State.resetWith c with
        turns := .engine :: .bus [0x06] :: .engine :: .engine :: ts } =
      Host.Core.run core n (State.initialising c ts .initCfgEn Endpoint.reset) := by
  have hselect : step (State.initialising c (.engine :: ts) .initCfgSel Endpoint.reset) =
      .next (State.initialising c ts .initCfgEn Endpoint.reset) := step_of_engineTurn rfl
  rw [initialising_reset] at hselect
  exact (run_of_step (n + 3) (step_initPll rfl rfl rfl)).trans <|
    (run_of_step (n + 2) (step_pllLocked rfl rfl)).trans <|
    (run_of_step (n + 1) (step_initLock rfl rfl rfl rfl rfl)).trans (run_of_step n hselect)

section
variable {c : Config} (hc : c.wf = true)
include hc

/-- A write to a register of endpoint 0 in the initialisation. -/
theorem step_initialising {ts : List Turn} {q q' : Seq} {e : Endpoint} {f : Endpoint → Endpoint}
    (hq : ∀ l u, u.seq = q → microstep l u = thenGo u (onSelected (fun e => .ok (f e)) u) q') :
    step (State.initialising c (.engine :: ts) q e) = .next (State.initialising c ts q' (f e)) := by
  have hlen : 0 < (List.replicate c.numEp Endpoint.reset).length :=
    Nat.lt_of_lt_of_le (by decide) (resetWith_wf hc).four_le_length
  have hsel : (State.initialising c ts q e).selected = some e := List.getElem?_set_self hlen
  have hop := onSelected_ok (f := fun e => .ok (f e)) hsel rfl
  rw [step_of_engineTurn (ts := ts) rfl, engineStep_at_init rfl]
  refine (hq _ (State.initialising c ts q e) rfl).trans ((thenGo_ok hop).trans ?_)
  rw [withSelected_of_epsel0 rfl]
  simp only [State.withEp0, State.initialising, List.set_set]

/-- The four writes of `INIT_CFG_EN` to `INIT_CFG_IEN` (43_endpoint_config.md R272). -/
theorem run_initialiseEp0 (ts : List Turn) (n : Nat) (e : Endpoint) :
    Host.Core.run core (n + 4) (State.initialising c (.engine :: .engine :: .engine :: .engine :: ts) .initCfgEn e) =
      Host.Core.run core n (State.initialising c ts .initIen e.configureControl) := by
  have write {ts : List Turn} {q : Seq} {e : Endpoint} (m : Nat) (q' : Seq) (f : Endpoint → Endpoint)
      (hq : ∀ l u, u.seq = q → microstep l u = thenGo u (onSelected (fun e => .ok (f e)) u) q') :=
    run_of_step m (step_initialising (ts := ts) (e := e) hc hq)
  rw [write (n + 3) .initCfgType (·.writeCtl 0x01) fun l u h => by rw [microstep, h]; rfl,
    write (n + 2) .initCfgAlloc (·.writeCfg0 0x00) fun l u h => by rw [microstep, h]; rfl,
    write (n + 1) .initCfgIen (·.writeCfg1 0x22) fun l u h => by rw [microstep, h]; rfl,
    write n .initIen (·.writeInten 0x08) fun l u h => by rw [microstep, h]; rfl]
  rfl

end

/-- `INIT_IEN` and `INIT_ATTACH`: the bus-event sources enabled, the block attached. -/
theorem run_initAttach (c : Config) (e : Endpoint) :
    Host.Core.run core 2 (State.initialising c [.engine, .engine] .initIen e) =
      .next { State.initialising c [] .idle e with
        ctx := .idle
        dev := { DevRegs.reset with
          pllEn := true, pllLock := true, detach := false, sofe := true, eorste := true } } := by
  have hien : step (State.initialising c [.engine, .engine] .initIen e) = .next
      { State.initialising c [.engine] .initAttach e with
        dev := { DevRegs.reset with pllEn := true, pllLock := true, sofe := true, eorste := true } } :=
    step_of_engineTurn rfl
  rw [run_of_step 1 hien]
  exact run_of_step 0 (step_of_engineTurn rfl)

end Sys2Proof.Machine

namespace Sys2Proof.Proofs

open Sys2Proof.Machine

/-- Settles O44: the lock and the selection of endpoint 0 (`run_pllLock`), the four writes to it (`run_initialiseEp0`),
which make it the endpoint of R414 (`configureControl_reset`), the sources and the attach (`run_initAttach`). -/
theorem initialisationRun : Obligations.InitialisationRun := by
  intro c hc
  calc _
    _ = Host.Core.run core 6 (State.initialising c (List.replicate 6 .engine) .initCfgEn Endpoint.reset) :=
      run_pllLock c _ 6
    _ = Host.Core.run core 2 (State.initialising c [.engine, .engine] .initIen ep0Initialised) := by
      rw [← configureControl_reset]; exact run_initialiseEp0 hc _ 2 Endpoint.reset
    _ = _ := run_initAttach c ep0Initialised

/-- Settles O45: the three cases of the hold at `INIT_LOCK`. -/
theorem pllLockGate : Obligations.PllLockGate := by
  intro s hc hs
  rw [engineStep_at_initLock hc hs]
  exact ⟨initLockStep_failed, initLockStep_hold, fun hf hl => ⟨_, initLockStep_locked hf hl, rfl⟩⟩

end Sys2Proof.Proofs
